-- ==== Sys2Proof/Word.lean ====
section
/-! DEFINITION. The words of the machine: widths of registers, addresses, identifiers, memory and the register file.
R10 (10_state.md): 256 register numbers, one 64-bit slot each. R25: VM numbers are 32 bits. R50 (20_memory.md): the
byte is the unit of memory and addresses have 64 bits. -/

namespace Sys2Proof

/-- A byte of memory (R50). -/
abbrev Byte := BitVec 8

/-- A 64-bit register slot or address (R10, R50). -/
abbrev Word := BitVec 64

/-- A register number, 0 to 255 (R10). -/
abbrev RegNo := Fin 256

/-- The register file: 256 slots of 64 bits (R10). -/
abbrev Regs := Vector Word 256

/-- The number of a virtual machine, the low half of its identifiers (R25, R32). -/
abbrev VmNum := BitVec 32

/-- The exception a vm context identifier or a VM record signals: none, or an index 0 to 15, or 16 for RESET
(R25, R32). -/
abbrev Pending := Option (Fin 17)

/-- Host physical memory: (address, byte) pairs in the canonical form of `Machine.memWf`. -/
abbrev Memory := List Host.Cell

end Sys2Proof
end

