-- ==== Sys2Proof/Config.lean ====
section
/-! DEFINITION. The base interface of 00_scope.md sections 4 and 5: everything the model must be given of the base
Clever ISA and of the implementation, as ONE record of parameters and ONE opaque value of it, `Config.hw`. Nothing about
`Config.hw` can be evaluated or proved; the constraints the spec puts on a parameter hold by construction in the functions
of Machine/Base.lean that read it. The free values (`drawWord`, `drawByte`, `drawNum`) are fields of the same opaque value. -/

namespace Sys2Proof

/-- What an access is for: the `acc` of `GuestPhys` (00_scope.md section 5). -/
inductive Access where
  | fetch
  | load
  | store
deriving DecidableEq, Repr

/-- The `info` handed to the base delivery of an exception. The spec says only that what an exception records is the base
ISA's matter (R148, N13), so the model hands on what caused it and lets the delivery record what it will. -/
inductive Cause where
  /-- A check of a rule of this extension on the executing instruction. -/
  | virt
  /-- XA or PF on the destination or the fetch address `a`. -/
  | address (a : Word)
  /-- The base ISA raised it, with information of its own. -/
  | base (info : Word)
  /-- hresume forwards an exception that was trapped before (R91). -/
  | forwarded
  /-- An interrupt. -/
  | interrupt
deriving DecidableEq, Repr, Inhabited

/-- Where in a step a byte of host memory is read, for the draws of the bytes that are free values: each read of a step has
a place, an ordinal and an address of its own (R46: "two reads of the same byte may differ"). -/
inductive Place where
  /-- `ReadVmcs` by vmcreate, and at an entry, at an exit, after the exit of a trap, and at an io instruction (R43). -/
  | vmcsCreate
  | vmcsEnter
  | vmcsExit
  | vmcsTrap
  | vmcsIo
  /-- The slots `LoadRegs` reads, and the entry of `vmtrxtab`. -/
  | vmregs
  | vmtrxtab
  /-- The data reads of one base operation: the operand of vmcreate, a base instruction, a delivery, its return address, an
  io access. -/
  | operand
  | base
  | deliver
  | returnIp
  | ioPort
  /-- The bytes of the instruction at `ip`. -/
  | fetch
  /-- The check of a destination, of the hypervisor and of a VM. -/
  | dest
  | vmDest
  /-- The bytes an effect writes: their addresses are translated. -/
  | store
  /-- The question whether the `k`-th address asked for at a place can be written. -/
  | probe (p : Place)
  /-- The context's own page walk for the `k`-th access of a place. -/
  | paging (p : Place) (k : Nat)
  /-- The walk of the VM's table (R49) for the `k`-th access of a place. -/
  | guest (p : Place) (k : Nat)
deriving DecidableEq, Repr

/-- An address as a base operation uses it: in the executing context's virtual address space (R50), where paging is on, or a
physical address of that context. -/
inductive Ref where
  | virt (a : Word)
  | phys (a : Word)
deriving DecidableEq, Repr

/-- What goes wrong while the base ISA delivers an exception (R91: a further exception is a new exception), or a RESET the
base escalation ends in (R153). -/
inductive Further where
  | exception (n : Fin 16) (info : Word)
  | reset
deriving DecidableEq, Repr, Inhabited

/-- The whole effect of one base-ISA operation: the register file it leaves, the bytes it writes (in the executing context:
a VM's addresses go through its table, R49, R136), its mark of an exception in progress (R95), whether it is a
branch for instruction execution coherence (R55), and a further exception it ends in. It has no way to change mxcw, `G` or
the VM table (log 24 says what that settles for a narrow `out`). -/
structure Effect where
  regs : Regs
  writes : List (Ref × Byte)
  excMark : Nat
  branch : Bool
  further : Option Further
deriving DecidableEq, Repr, Inhabited

/-- What a base-ISA operation sees. It holds nothing that tells a VM from a real machine (R2, R147): the register values,
the mark of an exception in progress, the bytes of the instruction, and memory as the executing context reaches it. `code k`
is the `k`-th byte from `ip`, fetched as the decoder's bytes are (R49, R55): the very same bytes. `read k r` is the `k`-th
read of the operation: `none` where a virtual address does not fit or translate (R49, R50) or nothing is mapped, and reads of
a live register region may differ from one `k` to the next (R46). `writable k r` asks whether a byte could be stored. -/
structure View where
  regs : Regs
  excMark : Nat
  code : Nat → Option Byte
  read : Nat → Ref → Option Byte
  writable : Nat → Ref → Bool

/-- The value of vmcreate's operand, or the exception its evaluation raises (R63). DESIGN CHOICE (log 41): reading the operand
changes no register and no memory and does not reset the processor, whatever the addressing mode (R105, R136; D4 assumes
nothing of the form). -/
inductive OperandResult where
  | value (v : Word)
  | raises (n : Fin 16) (info : Word)
deriving DecidableEq, Repr, Inhabited

/-- What the base ISA asks for when it executes an instruction this spec does not define (`BaseStep`, R65), in the terms
in which 43_base_instruction_changes.md changes it. -/
inductive Action where
  /-- An instruction the extension leaves unchanged (R2; `scall` too, R128). -/
  | run (e : Effect)
  /-- `in` from io address `a`; `wide` says it is a 64-bit access (D16); `k` is its effect for the value read. -/
  | ioIn (a : Word) (wide : Bool) (k : Word → Effect)
  /-- `out` of `v` to io address `a`; `e` is its effect without the io write. -/
  | ioOut (a : Word) (wide : Bool) (v : Word) (e : Effect)
  /-- `iret`: the flags it installs are slot 17 of `e.regs` (R127). -/
  | iret (e : Effect)
  /-- `scret`, the same (R127). -/
  | scret (e : Effect)
  /-- A machine-specific instruction, or an access to a machine-specific control register, of identity `id` (R129). -/
  | machineSpecific (id : Word) (e : Effect)
  /-- An instruction that needs feature bit `b` of feature register `r` (R133, R161). -/
  | needsFeature (r : RegNo) (b : Fin 64) (e : Effect)
  /-- A read of register `i`; `k` is its effect for the value read (R130, R132). -/
  | readRegister (i : RegNo) (k : Word → Effect)
  /-- A write of `v` to register `i` (R131). -/
  | writeRegister (i : RegNo) (v : Word) (e : Effect)
  /-- A base-ISA exception. -/
  | raises (n : Fin 16) (info : Word)
  /-- The base ISA resets the processor (R153, R180). -/
  | resets
deriving Inhabited

/-- The parameters of the model: 00_scope.md sections 4 and 5. A name ending in `Raw` is read only through a function of
Machine/Base.lean that puts the spec's constraint on it. -/
structure Config where
  /-- Position of `flags.XM` (R14, N3). -/
  xmBit : Fin 64
  /-- Wanted numbers of the named control registers (N5). -/
  scdpRaw : RegNo
  scspRaw : RegNo
  sccrRaw : RegNo
  cpuex2Raw : RegNo
  cpuidloRaw : RegNo
  cpuidhiRaw : RegNo
  /-- Hardware values of cpuex2, cpuidlo, cpuidhi (R17, R27). -/
  cpuex2Value : Word
  cpuidloValue : Word
  cpuidhiValue : Word
  /-- Hardware values of the other cpuinfo and cpu extended feature registers; `none` for every other register (R17, R27). -/
  infoReg : RegNo → Option Word
  /-- `RegDefined` (R132). -/
  regDefinedRaw : RegNo → Bool
  /-- `RegAvail`, judged on the register values of the VM's side of a transfer (R44, D40): of a register of a tier it sees the
  values of the lower tiers (log 6). -/
  regAvailRaw : Regs → RegNo → Bool
  /-- Two less than the tier of a register that is neither always available nor a cpuinfo or feature register (log 6). -/
  availTierRaw : RegNo → Fin 254
  /-- The feature bit a register's extension is shown by, where it belongs to an optional extension (R161). -/
  regFeatureRaw : RegNo → Option (RegNo × Fin 64)
  /-- The values a write to a register raises UND for: a bit of a control register that is undefined (R131). -/
  writeUnd : RegNo → Word → Bool
  /-- The exception an absent feature raises (R161, N16). -/
  absentFeature : Fin 16
  /-- `ExcNo` (R148, D28). -/
  abortNo : Fin 16
  undNo : Fin 16
  protNo : Fin 16
  pfNo : Fin 16
  xaNo : Fin 16
  /-- `ExcReturnIp` (D34). -/
  excReturnIp : View → Nat → Word
  /-- `BaseDeliver`: the effect of delivering exception or interrupt `n` with the given return address (R149, R150). -/
  deliver : View → Nat → Word → Cause → Effect
  /-- Bytes of an operand after its first two, from those two (R64); any number (D4). -/
  operandTail : Byte → Byte → Nat
  /-- `DecodeOperand`: the value of a source operand given by its bytes (R63), with no other effect (DESIGN CHOICE, log 41). -/
  operandValue : View → List Byte → OperandResult
  /-- What the base ISA gives the delivery of the PF of an operand whose bytes cannot all be fetched (N13): a free value
  (DESIGN CHOICE, log 7). -/
  operandPfInfo : View → Word
  /-- `BaseStep`: what the base ISA does with the instruction at `ip` (R65). -/
  baseAct : View → Action
  /-- How many io addresses after 0xff00 and after 0xff80 belong to the "CPU Initialization registers starting at" them
  (R134; log 24). -/
  cpuInitTail0 : Nat
  cpuInitTail1 : Nat
  /-- `IoReadBase`, with a counter (a device's answers may change) and the number of CPUs it shows (R134). -/
  ioRead : Nat → Nat → View → Word → Bool → Word
  /-- `IoWriteBase`: the effect of the whole `out`, given its effect without the io write (R134). -/
  ioWrite : Nat → View → Word → Bool → Word → Effect → Effect
  /-- `PagingEnabled` (section 5). -/
  pagingRaw : Regs → Bool
  /-- The context's own paging: virtual to context-physical address, by the registers and a walk whose `k`-th byte read is at
  a context-physical address (N8). -/
  translate : Regs → (Nat → Word → Option Byte) → Word → Access → Option Word
  /-- `GuestPhys`: the walk of the table at `vmmmap` with a depth, in host memory; its first argument gives the `k`-th byte
  read of the walk, at a host physical address (R49, N8). -/
  guestPhysRaw : (Nat → Word → Byte) → Word → Nat → Word → Access → Option Word
  /-- `PasBits`, `VasBits`, `MapDepth` (D26, N7). -/
  pasBits : BitVec 3 → Nat
  vasBits : BitVec 3 → Nat
  mapDepth : BitVec 3 → Nat
  /-- The lowest bits of the 3-bit fields `cpuex2.PAS` and `cpuex2.VAS` (R17, section 4). -/
  pasPos : Fin 62
  vasPos : Fin 62
  /-- One less than `VMLIMIT_CPU`, `VMLIMIT_ALL` and `NCPU`, which are at least 1 (R106, section 4). -/
  vmLimitCpuRaw : Nat
  vmLimitAllRaw : Nat
  ncpuRaw : Nat
  /-- `MsPassthrough` (R129), of the current VM by its number (DESIGN CHOICE, log 42). -/
  msPassthrough : VmNum → Word → Bool
  /-- `HvInterrupt` (R162). -/
  hvInterrupt : Nat → Bool
  /-- The upper half of identifiers, per VM number, as a permutation of the default coding of D11 (R32). -/
  ctxPerm : VmNum → Equiv.Perm (BitVec 32)
  /-- What `CtxDecode` makes of a value that is no identifier: malformed, or a pending signal (R32). -/
  ctxForeign : Word → Option Pending
  /-- FREE VALUE: the draws of 64-bit values (R157, U12, U18). -/
  drawWord : Nat → Word
  /-- FREE VALUE: bytes read from a live register region, fetched where a store is not yet visible, or walked where no memory
  is implemented (R46, R55, log 18): draw counter, place in the step, ordinal of the read, host physical address. -/
  drawByte : Nat → Place → Nat → Word → Byte
  /-- FREE VALUE: the number a new VM gets, where it is free (R107). -/
  drawNum : Nat → VmNum
deriving Inhabited

/-- The hardware's parameters: uninterpreted. -/
opaque Config.hw : Config

end Sys2Proof
end

