-- ==== Sys2Proof/Machine/State.lean ====
section
/-! DEFINITION. The state of one CPU and what it shares with the others, as plain data; the reasons a step can stop; the
state after reset. INVENTORY.md, heading State, lists every field with its rule. -/

namespace Sys2Proof.Machine

/-- The four meaningful 8-byte words of a Virtual Machine Control Structure, field by field (R28, R43). -/
structure Vmcs where
  vmregs : Word
  vmmmap : Word
  vmpas : BitVec 3
  vmvas : BitVec 3
  vmcsver : BitVec 4
  trapio : Bool
  reserved35 : BitVec 21
  reserved56 : BitVec 32
  vmtrxtab : Word
deriving DecidableEq, Repr

/-- `status` of a VM (R25). -/
inductive VmStatus where
  | active
  | reset
deriving DecidableEq, Repr

/-- An entry of the VM table (R25), with the model's bookkeeping: the vmcs as it was at creation (R43, D9), and what R55
needs to say whether a re-entry is a branch inside the VM. -/
structure Vm where
  num : VmNum
  vmcsPa : Word
  status : VmStatus
  pending : Pending
  /-- The 32 meaningful bytes of the vmcs when vmcreate read them (D9). -/
  vmcs : Vmcs
  /-- `ip_out`: slot 16 as stored at the VM's last exit (R55). -/
  ipOut : Word
  /-- The last exit was an hcall (R55). -/
  viaHcall : Bool
  /-- The changes of memory its instruction fetch was sure to see when the VM was left (R55): `FetchView.seen`. -/
  seen : Nat
deriving DecidableEq, Repr

/-- A virtual machine of another CPU, as far as this CPU can notice it: it counts against `VMLIMIT_ALL` (R26), the 32
meaningful bytes of its vmcs must not change (R43, D9), and its `vmregs` region must be apart from those of the other CPUs'
VMs (R47) and, while it runs, not be touched (R46). -/
structure OtherVm where
  /-- The CPU in whose VM table it stands. -/
  cpu : Nat
  vmcsPa : Word
  vmregs : Word
  running : Bool
deriving DecidableEq, Repr

/-- What a delivery belongs to, for the `ip` its further exception records (R157, R164). -/
inductive Origin where
  /-- The execution of an instruction, or an interrupt, of the executing context: the `ip` recorded is the base ISA's. -/
  | own
  /-- An entry to the hypervisor from a VM (R83, R152, R157): in the hypervisor the `ip` recorded is a draw (U12). -/
  | entry
deriving DecidableEq, Repr

/-- What reaches the CPU from outside the instruction it would execute next, or is left over from the last step. -/
inductive Event where
  /-- Interrupt `j` is taken now (R162, R195). -/
  | interrupt (j : Nat)
  /-- The base ISA resets the processor (R153, R180). -/
  | reset
  /-- A further exception of what the last step did (R91, R164), or the PF of its store (log 12). -/
  | exception (n : Fin 16) (cause : Cause) (origin : Origin)
  /-- Another CPU, a device or another bus master writes a byte of host memory (R46, R52). -/
  | agentWrite (pa : Word) (b : Byte)
  /-- The virtual machines of the other CPUs become these (R26, R47). -/
  | otherVms (l : List OtherVm)
deriving DecidableEq, Repr

/-- What instruction fetch is sure to see of memory (R55). A store is sure to be seen once the context that fetches has made a
branch; until then the byte fetched is a free value, whatever memory held before (log 15). -/
structure FetchView where
  /-- The host addresses whose bytes were changed, newest first. -/
  changes : List Nat
  /-- How many of the oldest changes the executing context is sure to see: those there were at its last branch. -/
  seen : Nat
  /-- The same of the hypervisor, while a VM runs. -/
  hvSeen : Nat
deriving DecidableEq, Repr

/-- The whole state. -/
structure State where
  /-- x[0] .. x[255]: r0.., ip (16), flags (17), fpcw (19), the control registers (R10 to R17). -/
  regs : Regs
  /-- The Managed Execution Control Word, io 0x7f800000 (R18). -/
  mxcw : Word
  /-- `G`: executing inside a virtual machine (R22). -/
  g : Bool
  /-- `hsave`: the hypervisor's registers while a VM runs (R23). -/
  hsave : Regs
  /-- `curvm`: the number of the current VM; io 0x7f800001 and 0x7f800002 are read off it (R24, R20, R21). -/
  curvm : Option VmNum
  /-- The VM table, numbers strictly rising (R25); its length is `vmcount(c)` (R26). -/
  vms : List Vm
  /-- `retired_destroyed(c)`, strictly rising (R25, R156). -/
  retiredDestroyed : List VmNum
  /-- `retired_disabled(c)`, strictly rising (R25, R156). -/
  retiredDisabled : List VmNum
  /-- The VMs of the other CPUs; with the VM table they make `vmcount_all` (R26). -/
  otherVms : List OtherVm
  /-- Host physical memory (R50). -/
  mem : Memory
  /-- What instruction fetch is sure to see of it (R55). -/
  fetch : FetchView
  /-- The base ISA's mark of an exception in progress (R95, R164); 0 is none. -/
  excMark : Nat
  /-- Arrivals the next steps take, oldest first (R195). -/
  events : List Event
  /-- The MODEL's own: the counter the free values are drawn with. -/
  drawCtr : Nat
deriving DecidableEq, Repr

/-- A stop on a state no run reaches. -/
inductive Fault where
  /-- Raised by an operation that needs the current VM, where `G = 1` and `curvm` names no entry of the VM table. R36 (a)
  excludes it: `Safety.Inv` holds of no such state. Safe: the model stops. -/
  | noCurrentVm
deriving DecidableEq, Repr

/-- A stop where the spec has the model refuse the run. All are safe: the model stops where hardware may go on. -/
inductive Refusal where
  /-- exec, for an instruction with no meaning yet. Safe. -/
  | notModelled (mnemonic : String)
  /-- `out` to mxcw with a bit of 63:17 set, Unmanaged Supervisor or Hypervisor mode (U1). Safe. -/
  | reservedMxcwBits
  /-- hret, hresume with the number of a VM disposed of by disabling management (U2). Safe. -/
  | staleDisabled
  /-- vmcreate of a vmcs whose sizes break R29's constraints (U3). Safe. -/
  | vmcsSizes
  /-- vmcreate of a vmcs with a bit of reserved35 or reserved56 set (U4). Safe. -/
  | vmcsReservedBits
  /-- vmcreate of a vmcs with vmcsver not 0 (U5, D31). Safe. -/
  | vmcsVersion
  /-- hret, hresume with the number of a VM destroyed by vmdestroy (U7). Safe. -/
  | staleDestroyed
  /-- A write by any agent to the live register region of a running VM (U8). Safe. -/
  | liveRegionWrite
  /-- A state in which VMs of different CPUs have overlapping vmregs regions (U9, R47). Safe. -/
  | vmregsOverlap
  /-- An implicit access through a pointer that is not 8-byte aligned (U21, D8, R57). Safe. -/
  | misalignedStructure
  /-- An implicit access to host physical memory that is not implemented (U21, D25, R57). Safe. -/
  | unbackedStructure
  /-- A change of the 32 meaningful bytes of a vmcs while its VM exists, or a use of a vmcs that reads otherwise than at
  vmcreate (D9, R43). Safe. -/
  | vmcsChanged
  /-- `out` to io 0x7f800001 or 0x7f800002 (D15). Safe. -/
  | portWrite
  /-- hret, hresume with an identifier signalling an exception the VM's last exit did not set (D29). Safe. -/
  | forgedPending
  /-- A base-ISA step that would leave Hypervisor mode's mxcw.ME = 1, G = 0 with flags.XM = 1, other than by iret or
  scret (U22, N15). Safe. -/
  | hypervisorProgramMode
deriving DecidableEq, Repr

/-- What a step, or an instruction's meaning, answers. -/
abbrev Result := Host.Outcome State Fault Refusal

/-- A register file of zeros. -/
def zeroRegs : Regs := Vector.replicate 256 0

/-- The state right after reset (R33, R180): mxcw, G, curvm, the VM table and its counts, the retired sets as R33 gives
them; the registers, which no source gives, zero (DESIGN CHOICE, log 1); no VMs on other CPUs, no memory listed, nothing
arriving (DESIGN CHOICE, log 1, 2). -/
def State.reset : State where
  regs := zeroRegs
  mxcw := 0
  g := false
  hsave := zeroRegs
  curvm := none
  vms := []
  retiredDestroyed := []
  retiredDisabled := []
  otherVms := []
  mem := []
  fetch := ⟨[], 0, 0⟩
  excMark := 0
  events := []
  drawCtr := 0

end Sys2Proof.Machine
end

