-- ==== Sys2Proof/Machine/Memory.lean ====
section
/-! DEFINITION. Memory, the register file and the two sorted bookkeeping structures (VM table, retired sets), as data. -/

namespace Sys2Proof.Machine

/-! ## Memory: sorted (address, byte) pairs, no pair holding what an unlisted address reads as. -/

/-- What an address nothing has written reads as. DESIGN CHOICE (log 2): the source gives no power-on contents. -/
def unlistedByte : Byte := 0

/-- One byte of memory. -/
def memRead : Memory → Nat → Byte
  | [], _ => unlistedByte
  | (b, v) :: m, a => if b = a then v else memRead m a

/-- Put a byte in front, unless it is what an unlisted address reads as. -/
def memCons (a : Nat) (v : Byte) (m : Memory) : Memory := if v = unlistedByte then m else (a, v) :: m

/-- Write one byte, keeping the canonical form. -/
def memWrite : Memory → Nat → Byte → Memory
  | [], a, v => memCons a v []
  | (b, w) :: m, a, v =>
    if a < b then memCons a v ((b, w) :: m)
    else if a = b then memCons a v m
    else (b, w) :: memWrite m a v

/-- The canonical form: addresses strictly rising, no byte equal to `unlistedByte`. -/
def memWf : Memory → Bool
  | [] => true
  | [(_, v)] => v != unlistedByte
  | (a, v) :: (b, w) :: m => decide (a < b) && v != unlistedByte && memWf ((b, w) :: m)

/-- Write a list of bytes, each at its own address, in order. -/
def memWriteAll (m : Memory) (ws : List (Nat × Byte)) : Memory :=
  ws.foldl (fun m w => memWrite m w.1 w.2) m

/-- Byte `k` of a 64-bit value: little-endian (R40, D1). -/
def byteOf (v : Word) (k : Nat) : Byte := v.extractLsb' (8 * k) 8

/-- The 64-bit value of eight bytes, the first holding bits 7:0 (R40, D1). -/
def wordOf (b : Nat → Byte) : Word := b 7 ++ b 6 ++ b 5 ++ b 4 ++ b 3 ++ b 2 ++ b 1 ++ b 0

/-- The host physical addresses of the eight bytes at `pa`, with wrap-around (R135). -/
def wordAddr (pa : Word) (k : Nat) : Word := pa + BitVec.ofNat 64 k

/-- The bytes of a 64-bit value at an address, as memory writes. -/
def wordWrites (pa v : Word) : List (Nat × Byte) :=
  (List.range 8).map fun k => ((wordAddr pa k).toNat, byteOf v k)

/-- The addresses whose bytes writes change. -/
def changedBy (m : Memory) (ws : List (Nat × Byte)) : List Nat :=
  (ws.filter fun w => memRead m w.1 != w.2).map Prod.fst

/-! ## What instruction fetch is sure to see (R55). -/

/-- Bytes were changed. -/
def FetchView.record (f : FetchView) (l : List Nat) : FetchView := { f with changes := l ++ f.changes }

/-- The executing context made a branch: it is sure to see every change so far. -/
def FetchView.branch (f : FetchView) : FetchView := { f with seen := f.changes.length }

/-- The byte at an address was changed since the executing context's last branch. -/
def FetchView.stale (f : FetchView) (a : Nat) : Bool := (f.changes.take (f.changes.length - f.seen)).contains a

/-- No context is sure to see more changes than there were. -/
def FetchView.wf (f : FetchView) : Bool := decide (f.seen ≤ f.changes.length) && decide (f.hvSeen ≤ f.changes.length)

/-! ## The register file. -/

/-- `x[i]` of a register file. -/
def regGet (r : Regs) (i : RegNo) : Word := r[i.val]

/-- `x[i] <- v`. -/
def regSet (r : Regs) (i : RegNo) (v : Word) : Regs := r.set i.val v

/-- The register file with the given value in each slot. -/
def regsOf (f : RegNo → Word) : Regs := Vector.ofFn f

/-- Every slot is 0. -/
def allZero (r : Regs) : Bool := (List.finRange 256).all fun i => regGet r i == 0

/-- r0 (R11). -/
def r0 : RegNo := 0
/-- r1 (R11). -/
def r1 : RegNo := 1
/-- r7 (R11). -/
def r7 : RegNo := 7
/-- ip, register 16 (R13). -/
def ipReg : RegNo := 16
/-- flags, register 17 (R14). -/
def flagsReg : RegNo := 17
/-- fpcw, register 19 (R15). -/
def fpcwReg : RegNo := 19

/-- The program counter (R13). -/
def State.ip (s : State) : Word := regGet s.regs ipReg

/-- `flags` (R14). -/
def State.flags (s : State) : Word := regGet s.regs flagsReg

/-- `x[i] <- v` in a state. -/
def State.setReg (s : State) (i : RegNo) (v : Word) : State := { s with regs := regSet s.regs i v }

/-- `ip <- v`. -/
def State.setIp (s : State) (v : Word) : State := s.setReg ipReg v

/-! ## The VM table and the retired sets. -/

/-- The entry with a given number. -/
def vmFind : List Vm → VmNum → Option Vm
  | [], _ => none
  | v :: l, n => if v.num = n then some v else vmFind l n

/-- Insert an entry, keeping the numbers rising; an entry of the same number is replaced. -/
def vmInsert : List Vm → Vm → List Vm
  | [], v => [v]
  | w :: l, v =>
    if v.num < w.num then v :: w :: l
    else if v.num = w.num then v :: l
    else w :: vmInsert l v

/-- Replace the entry that has this entry's number. -/
def vmUpdate (l : List Vm) (v : Vm) : List Vm := l.map fun w => if w.num = v.num then v else w

/-- Remove the entry with a given number. -/
def vmErase (l : List Vm) (n : VmNum) : List Vm := l.filter fun w => w.num != n

/-- Insert a number into a rising list without repeats. -/
def numInsert : List VmNum → VmNum → List VmNum
  | [], n => [n]
  | m :: l, n => if n < m then n :: m :: l else if n = m then m :: l else m :: numInsert l n

/-- Remove a number. -/
def numErase (l : List VmNum) (n : VmNum) : List VmNum := l.filter fun m => m != n

/-- The entry `curvm` names. -/
def State.curVm? (s : State) : Option Vm := s.curvm.bind (vmFind s.vms)

/-- `vmcount(c)` (R26). -/
def State.vmcount (s : State) : Nat := s.vms.length

/-- `vmcount_all` (R26). -/
def State.vmcountAll (s : State) : Nat := s.vms.length + s.otherVms.length

end Sys2Proof.Machine
end

