-- ==== Sys2Proof/Machine/Base.lean ====
section
/-! DEFINITION. The base interface as the rules use it: each parameter of `Config` with the constraint the spec puts on it
built in, so that the constraint is a lemma about every configuration and never a premise. -/

namespace Sys2Proof.Machine

/-! ## Numbers of the named registers (R11, N5): pairwise distinct, and distinct from 0, 1, 7, 16, 17, 19. -/

/-- The register numbers the source fixes (R11). -/
def fixedRegs : List RegNo := [r0, r1, r7, ipReg, flagsReg, fpcwReg]

/-- The wanted number, or the first free one where it is taken. -/
def pickReg (used : List RegNo) (want : RegNo) : RegNo :=
  if want ∈ used then ((List.finRange 256).find? fun i => i ∉ used).getD want else want

/-- `N_scdp`. -/
def scdpReg (c : Config) : RegNo := pickReg fixedRegs c.scdpRaw
/-- `N_scsp`. -/
def scspReg (c : Config) : RegNo := pickReg (scdpReg c :: fixedRegs) c.scspRaw
/-- `N_sccr`. -/
def sccrReg (c : Config) : RegNo := pickReg (scspReg c :: scdpReg c :: fixedRegs) c.sccrRaw
/-- `N_cpuex2`. -/
def cpuex2Reg (c : Config) : RegNo := pickReg (sccrReg c :: scspReg c :: scdpReg c :: fixedRegs) c.cpuex2Raw
/-- `N_cpuidlo`. -/
def cpuidloReg (c : Config) : RegNo :=
  pickReg (cpuex2Reg c :: sccrReg c :: scspReg c :: scdpReg c :: fixedRegs) c.cpuidloRaw
/-- `N_cpuidhi`. -/
def cpuidhiReg (c : Config) : RegNo :=
  pickReg (cpuidloReg c :: cpuex2Reg c :: sccrReg c :: scspReg c :: scdpReg c :: fixedRegs) c.cpuidhiRaw

/-! ## Hardware values of the read-only registers (R1, R17, R27). -/

/-- Bit 12 of cpuex2, VIRT (R1). -/
def virtBit : Word := 0x1000

/-- The value cpuex2 reads outside a VM (R1, R17). -/
def hwCpuex2 (c : Config) : Word := c.cpuex2Value ||| virtBit

/-- The value "set by the cpu at startup" of register `i`, where it is a cpuinfo or cpu extended feature register. The six
registers of R11 and the system-call registers are none (R16); cpuex2 has VIRT set (R1, D38). -/
def hwReg (c : Config) (i : RegNo) : Option Word :=
  if i ∈ fixedRegs then none
  else if i = scdpReg c || i = scspReg c || i = sccrReg c then none
  else if i = cpuex2Reg c then some (hwCpuex2 c)
  else if i = cpuidloReg c then some c.cpuidloValue
  else if i = cpuidhiReg c then some c.cpuidhiValue
  else c.infoReg i

/-- `x[i]`: inside a VM every register reads the value held, a cpuinfo register too (R130); outside, a cpuinfo register
reads what the CPU set at startup and is read-only (R17). -/
def State.x (c : Config) (s : State) (i : RegNo) : Word :=
  if s.g then regGet s.regs i else (hwReg c i).getD (regGet s.regs i)

/-- Every `x[i]` at once. -/
def State.xs (c : Config) (s : State) : Regs := regsOf (s.x c)

/-! ## Availability of registers and features (R44, R132, R160, R161). -/

/-- `HwFeat[r][b]` (R27). -/
def hwFeature (c : Config) (r : RegNo) (b : Fin 64) : Bool := ((hwReg c r).getD 0).getLsbD b.val

/-- `FeatureAvailable` on a VM's register values: both the loaded and the hardware's bit are set (R161). -/
def featureAvailable (c : Config) (x : Regs) (r : RegNo) (b : Fin 64) : Bool :=
  (regGet x r).getLsbD b.val && hwFeature c r b

/-- Registers 0, 1, 7, 16 and 17 are available in every state (D40). -/
def alwaysAvail : List RegNo := [r0, r1, r7, ipReg, flagsReg]

/-- `RegDefined`: the registers the source names are defined (R11, R16, R17). -/
def regDefined (c : Config) (i : RegNo) : Bool :=
  decide (i ∈ alwaysAvail) || i == scdpReg c || i == scspReg c || i == sccrReg c
    || i == cpuex2Reg c || i == cpuidloReg c || i == cpuidhiReg c || c.regDefinedRaw i

/-- The feature bit a register's optional extension is shown by (R161). A register that shows features belongs to none
(DEDUCED, log 6). -/
def regFeature (c : Config) (i : RegNo) : Option (RegNo × Fin 64) :=
  if (hwReg c i).isSome then none else c.regFeatureRaw i

/-- The optional extension a register belongs to, if to one, is there (R161). -/
def regFeaturePresent (c : Config) (x : Regs) (i : RegNo) : Bool :=
  match regFeature c i with
  | none => true
  | some (r, b) => featureAvailable c x r b

/-- The tier of a register: its availability depends on registers of lower tiers alone, so that it does not depend on itself
(DEDUCED, log 6). The always available ones come first, then the cpuinfo and feature registers. -/
def availTier (c : Config) (i : RegNo) : Nat :=
  if i ∈ alwaysAvail then 0 else if (hwReg c i).isSome then 1 else (c.availTierRaw i).val + 2

/-- The register values the availability of `i` depends on. -/
def lowerTiers (c : Config) (x : Regs) (i : RegNo) : Regs :=
  regsOf fun j => if availTier c j < availTier c i then regGet x j else 0

/-- `RegAvail` on the VM's side of a transfer: an undefined register is never available (R132), nor one whose extension is
absent (R161); 0, 1, 7, 16 and 17 always are (D40). -/
def regAvail (c : Config) (x : Regs) (i : RegNo) : Bool :=
  decide (i ∈ alwaysAvail) ||
    (regDefined c i && c.regAvailRaw (lowerTiers c x i) i && regFeaturePresent c x i)

/-- What a base-ISA operation may leave in the register file: read-only registers keep the value held (R17, R131). -/
def keepReadOnly (c : Config) (s : State) (r : Regs) : Regs :=
  regsOf fun i => if (hwReg c i).isSome then regGet s.regs i else regGet r i

/-! ## Sizes and limits (R29, R50, R106, R108). -/

/-- `HostPAS`, the field `cpuex2.PAS` of the hardware's value. -/
def hostPas (c : Config) : BitVec 3 := (hwCpuex2 c).extractLsb' c.pasPos.val 3

/-- `HostVAS`, the field `cpuex2.VAS`. -/
def hostVas (c : Config) : BitVec 3 := (hwCpuex2 c).extractLsb' c.vasPos.val 3

/-- An address fits in a number of bits. Address 0 always does. -/
def fits (a : Word) (bits : Nat) : Bool := a == 0 || decide (a.toNat < 2 ^ bits)

/-- `SizesOk` (R108): both sizes at most cpuex2.VAS, vmpas at most vmvas, in bits (D26). -/
def sizesOk (c : Config) (p v : BitVec 3) : Bool :=
  decide (c.pasBits p ≤ c.vasBits (hostVas c)) && decide (c.vasBits v ≤ c.vasBits (hostVas c))
    && decide (c.pasBits p ≤ c.vasBits v)

/-- `VMLIMIT_CPU(c)`: at least 1 (R106); at most the number of nonzero 32-bit VM numbers (DEDUCED, log 8). -/
def vmLimitCpu (c : Config) : Nat := min (c.vmLimitCpuRaw + 1) (2 ^ 32 - 1)

/-- `VMLIMIT_ALL`: at least 1. -/
def vmLimitAll (c : Config) : Nat := c.vmLimitAllRaw + 1

/-- `NCPU`: at least 1. -/
def ncpu (c : Config) : Nat := c.ncpuRaw + 1

/-- The limit check of vmcreate: either limit is reached (R105, R106). -/
def limitReached (c : Config) (s : State) : Bool :=
  decide (vmLimitCpu c ≤ s.vmcount) || decide (vmLimitAll c ≤ s.vmcountAll)

/-! ## The vm context identifier (R32, D11). -/

/-- The default coding of a pending signal in bits 63:32: bit 0 when one is pending, bits 5:1 its index (D11). -/
def pendingCode : Pending → BitVec 32
  | none => 0
  | some k => BitVec.ofNat 32 (2 * k.val + 1)

/-- The pending signal a default code stands for, where it is one. -/
def pendingOfCode (h : BitVec 32) : Option Pending :=
  if h = 0 then some none
  else if h.toNat % 2 = 1 then
    if hk : h.toNat / 2 < 17 then some (some ⟨h.toNat / 2, hk⟩) else none
  else none

/-- `CtxEncode`: low half the VM's number, high half the implementation's coding of the signal (R32). -/
def ctxEncode (c : Config) (n : VmNum) (p : Pending) : Word := c.ctxPerm n (pendingCode p) ++ n

/-- The low half of an identifier. -/
def ctxNum (id : Word) : VmNum := id.extractLsb' 0 32

/-- The high half of an identifier. -/
def ctxHigh (id : Word) : BitVec 32 := id.extractLsb' 32 32

/-- `CtxDecode`: `none` is malformed. Number 0 is never an identifier's (D12). A value `CtxEncode` gives is decoded to
what it encodes (R32); of any other the implementation decides. -/
def ctxDecode (c : Config) (id : Word) : Option (VmNum × Pending) :=
  if ctxNum id = 0 then none
  else match pendingOfCode ((c.ctxPerm (ctxNum id)).symm (ctxHigh id)) with
    | some p => some (ctxNum id, p)
    | none => (c.ctxForeign id).map fun p => (ctxNum id, p)

/-- The smallest positive number not in use (D12's default). -/
def smallestFree (l : List Vm) : VmNum :=
  (((List.range (l.length + 1)).map fun k => BitVec.ofNat 32 (k + 1)).find? fun n => (vmFind l n).isNone).getD 1

/-- `FreshVmNum` (R107): the drawn number where it is nonzero and free, so that every legal choice can be drawn. -/
def freshVmNum (c : Config) (s : State) : VmNum :=
  if c.drawNum s.drawCtr ≠ 0 ∧ (vmFind s.vms (c.drawNum s.drawCtr)).isNone then c.drawNum s.drawCtr
  else smallestFree s.vms

end Sys2Proof.Machine
end

