-- ==== Sys2Proof/Machine/Flags.lean ====
section
/-! DEFINITION. Flags and modes. The extension reads one flag, `flags.XM` (R14), and sets none: no instruction of it writes
a condition code (R14, R135). -/

namespace Sys2Proof.Machine

/-- `XM(flags)`: one bit of `flags`, its position a parameter (R14, N3). The test for 0 only lets a `flags` of 0 be
evaluated whatever the position (`xm_eq`). -/
def xm (c : Config) (flags : Word) : Bool := !(flags == 0) && flags.getLsbD c.xmBit.val

/-- `flags` with XM cleared. -/
def clearXm (c : Config) (flags : Word) : Word := flags &&& ~~~(1#64 <<< c.xmBit.val)

/-- `flags.XM` of a state. -/
def State.xm (c : Config) (s : State) : Bool := Machine.xm c s.flags

/-- `mxcw.ME` (R18). -/
def State.me (s : State) : Bool := s.mxcw.getLsbD 0

/-- `TRX(n) = mxcw[n+1]` (R18). -/
def State.trx (s : State) (n : Fin 16) : Bool := s.mxcw.getLsbD (n.val + 1)

/-- The reserved bits 63:17 of a value for mxcw are all 0 (R18). -/
def mxcwLegal (v : Word) : Bool := v.extractLsb' 17 47 == 0

/-- The four execution modes (R140). -/
inductive Mode where
  | program
  | unmanagedSupervisor
  | managedSupervisor
  | hypervisor
deriving DecidableEq, Repr

/-- `Mode(s)` (R141). -/
def State.mode (c : Config) (s : State) : Mode :=
  if s.xm c then .program
  else if !s.me then .unmanagedSupervisor
  else if s.g then .managedSupervisor
  else .hypervisor

end Sys2Proof.Machine
end

