-- ==== Sys2Proof/Machine/Ops.lean ====
section
/-! DEFINITION. The shared operations: host physical accesses and the vmcs (20_memory.md), address translation and the
destination check (R49, R51), the base delivery of an exception and its routing (60_exceptions.md R149, R150), the two
transfer procedures and the entries to the hypervisor (R151 to R159), the classification of identifiers (R156). -/

namespace Sys2Proof.Machine

/-- Continue with a value, or refuse. -/
def orRefuse {α : Type} (x : Except Refusal α) (k : α → Result) : Result :=
  match x with
  | .ok a => k a
  | .error r => .refused r

/-! ## Host physical memory (R35, R41 to R46, R57). -/

/-- The bytes of a `vmregs` array (R30). -/
def vmregsBytes : Nat := 2048
/-- The bytes of a `vmtrxtab` array (R31). -/
def vmtrxtabBytes : Nat := 136
/-- The meaningful bytes of a vmcs (R28, R43). DESIGN CHOICE (log 39): of the 128 bytes R28 gives a vmcs these 32 alone are
checked for implemented memory (R57), since bytes 32 to 127 are never accessed (D7). -/
def vmcsBytes : Nat := 32

/-- `pa` lies in the `vmregs` region that starts at `r`. -/
def inRegion (r pa : Word) : Bool := decide ((pa - r).toNat < vmregsBytes)

/-- Two `vmregs` regions share a byte. -/
def regionsOverlap (a b : Word) : Bool := inRegion a b || inRegion b a

/-- The starts of the live register regions: of the VM this CPU executes (R35), and of those other CPUs execute (R46). -/
def liveRegions (s : State) : List Word :=
  (if s.g then (s.curVm?.map fun v => v.vmcs.vmregs).toList else [])
    ++ (s.otherVms.filter fun o => o.running).map fun o => o.vmregs

/-- `pa` lies in a live register region. -/
def isLive (s : State) (pa : Word) : Bool := (liveRegions s).any fun r => inRegion r pa

/-- The `k`-th byte of host memory that is read at a place of the step: a draw in a live register region, what memory holds
elsewhere (R46). -/
def hostByte (c : Config) (s : State) (p : Place) (k : Nat) (pa : Word) : Byte :=
  if isLive s pa then c.drawByte s.drawCtr p k pa else memRead s.mem pa.toNat

/-- `PhysRead(pa, 8)` (R42). -/
def physRead8 (c : Config) (s : State) (p : Place) (pa : Word) : Word :=
  wordOf fun k => hostByte c s p k (wordAddr pa k)

/-- The CPU implements the host physical address (R50). -/
def implemented (c : Config) (pa : Word) : Bool := fits pa (c.pasBits (hostPas c))

/-! ## The VMs of all CPUs (R43, R47). -/

/-- Two of these VMs are on different CPUs and have overlapping regions; two that run are on different CPUs. -/
def othersClash : List OtherVm → Bool
  | [] => false
  | o :: l =>
    (l.any fun q => regionsOverlap o.vmregs q.vmregs && (o.cpu != q.cpu || (o.running && q.running))) || othersClash l

/-- VMs of different CPUs have overlapping regions (R47, U9). -/
def regionsClash (s : State) : Bool :=
  (s.vms.any fun vm => s.otherVms.any fun o => regionsOverlap o.vmregs vm.vmcs.vmregs) || othersClash s.otherVms

/-- Where the vmcs of the existing VMs are, of this CPU's and of the others'. -/
def vmcsAddrs (s : State) : List Word := (s.vms.map fun vm => vm.vmcsPa) ++ s.otherVms.map fun o => o.vmcsPa

/-- With memory `m` in place of the state's, the 32 meaningful bytes of every existing VM's vmcs are what they were (R43, D9). -/
def keepsVmcs (s : State) (m : Memory) : Bool :=
  (vmcsAddrs s).all fun pa => (List.range vmcsBytes).all fun k =>
    memRead m (wordAddr pa k).toNat == memRead s.mem (wordAddr pa k).toNat

/-- A structure of `len` bytes can be accessed at `pa`: it is 8-byte aligned and all of it is implemented (R57). One that wraps
past 2^64 is unbacked, however many address bits the CPU implements (R135, D25). Implemented memory is one range from 0 up, so
the first and the last byte tell of any other (`structureAt_implemented`). -/
def structureAt (c : Config) (pa : Word) (len : Nat) : Except Refusal Unit :=
  if pa.extractLsb' 0 3 ≠ 0 then .error .misalignedStructure
  else if decide (pa.toNat + len ≤ 2 ^ 64) && implemented c pa && implemented c (wordAddr pa (len - 1)) then .ok ()
  else .error .unbackedStructure

/-- The vmcs of four 8-byte words (R28, R43). -/
def vmcsOfWords (w0 w1 w w3 : Word) : Vmcs where
  vmregs := w0
  vmmmap := w1
  vmpas := w.extractLsb' 0 3
  vmvas := w.extractLsb' 3 3
  vmcsver := w.extractLsb' 6 4
  trapio := w.getLsbD 10
  reserved35 := w.extractLsb' 11 21
  reserved56 := w.extractLsb' 32 32
  vmtrxtab := w3

/-- `ReadVmcs(pa)` (R43). The bytes it reads must be implemented memory; the rest of the 128 need not be (DESIGN CHOICE,
log 39). -/
def readVmcs (c : Config) (s : State) (p : Place) (pa : Word) : Except Refusal Vmcs :=
  match structureAt c pa vmcsBytes with
  | .error r => .error r
  | .ok () =>
    .ok (vmcsOfWords (physRead8 c s p pa) (physRead8 c s p (wordAddr pa 8))
      (physRead8 c s p (wordAddr pa 16)) (physRead8 c s p (wordAddr pa 24)))

/-- The vmcs of a VM, read again at a use; it must be as vmcreate found it (R43, D9). -/
def vmcsOf (c : Config) (s : State) (p : Place) (vm : Vm) : Except Refusal Vmcs :=
  match readVmcs c s p vm.vmcsPa with
  | .error r => .error r
  | .ok v => if v = vm.vmcs then .ok v else .error .vmcsChanged

/-- The address of slot `i` of a `vmregs` array (R30), modulo 2^64 (R135). -/
def slotAddr (v : Vmcs) (i : RegNo) : Word := v.vmregs + BitVec.ofNat 64 (8 * i.val)

/-- The address of entry `k` of a `vmtrxtab` array (R31). -/
def trapEntryAddr (v : Vmcs) (k : Fin 17) : Word := v.vmtrxtab + BitVec.ofNat 64 (8 * k.val)

/-- Every slot of a `vmregs` array. -/
def slotImage (c : Config) (s : State) (v : Vmcs) : Regs := regsOf fun i => physRead8 c s .vmregs (slotAddr v i)

/-- The registers after those available by `y` took the values of an array, unchecked (R160), and the others were not
modified (R44). -/
def loadRound (c : Config) (s : State) (image y : Regs) : Regs :=
  regsOf fun i => if regAvail c y i then regGet image i else s.x c i

/-- The registers once the first `n` tiers are loaded. -/
def loadTiers (c : Config) (s : State) (image : Regs) : Nat → Regs
  | 0 => s.xs c
  | n + 1 => loadRound c s image (loadTiers c s image n)

/-- `LoadRegs` (R44) from an array's values. Availability is judged on the state being entered (D40), in which an unavailable
register keeps the value held: its slot is not read (R30), not even to decide of others. Tier by tier, that state is the only
one of which this is true (`loadFrom_entered`, `loadFrom_unique`). -/
def loadFrom (c : Config) (s : State) (image : Regs) : Regs := loadTiers c s image 256

/-- `LoadRegs` (R44). -/
def loadRegs (c : Config) (s : State) (v : Vmcs) : Regs := loadFrom c s (slotImage c s v)

/-- The bytes `StoreRegs` writes (R45): the slots of the available registers, ascending (D24). -/
def slotWrites (c : Config) (s : State) (v : Vmcs) : List (Nat × Byte) :=
  (List.finRange 256).flatMap fun i =>
    if regAvail c s.regs i then wordWrites (slotAddr v i) (regGet s.regs i) else []

/-- `StoreRegs` (R45). -/
def storeRegs (c : Config) (s : State) (v : Vmcs) : Memory := memWriteAll s.mem (slotWrites c s v)

/-! ## Translation and the destination check (R49 to R51). -/

/-- The `k`-th byte of the table at `vmmmap` that a walk reads. DESIGN CHOICE (log 18): where host memory is not implemented it
is a free value, as the spec names no exception of such a walk. -/
def walkByte (c : Config) (s : State) (p : Place) (k : Nat) (pa : Word) : Byte :=
  if implemented c pa then hostByte c s p k pa else c.drawByte s.drawCtr p k pa

/-- `GuestPhys` (R49): a guest physical address must fit in vmpas and be mapped to implemented memory. Every walk has a place
of its own, so that two walks of a step may read a byte of a live region differently (R46). -/
def guestPhys (c : Config) (s : State) (p : Place) (v : Vmcs) (gpa : Word) (acc : Access) : Option Word :=
  if fits gpa (c.pasBits v.vmpas) then
    (c.guestPhysRaw (walkByte c s p) v.vmmmap (c.mapDepth v.vmpas) gpa acc).filter (implemented c)
  else none

/-- Host physical address of a physical address of the executing context: inside a VM through the VM's table (R136). -/
def ctxPhys (c : Config) (s : State) (p : Place) (a : Word) (acc : Access) : Option Word :=
  if s.g then s.curVm?.bind fun vm => guestPhys c s p vm.vmcs a acc
  else if implemented c a then some a else none

/-- The `k`-th byte the context's own page walk reads, at a context-physical address. DESIGN CHOICE (log 18): inside a VM
`GuestPhys` gets the access `load` for it, whatever the access is that the walk is for. -/
def pageByte (c : Config) (s : State) (p : Place) (k : Nat) (a : Word) : Option Byte :=
  (ctxPhys c s (.guest p k) a .load).map (hostByte c s p k)

/-- `PagingEnabled`. A register file of zeros has paging off: PRESUMED of the reset state (log 1). -/
def pagingEnabled (c : Config) (s : State) : Bool := !allZero s.regs && c.pagingRaw (s.xs c)

/-- The virtual address bits of the executing context (R49, R50). -/
def ctxVasBits (c : Config) (s : State) : Nat :=
  if s.g then (s.curVm?.map fun vm => c.vasBits vm.vmcs.vmvas).getD 0 else c.vasBits (hostVas c)

/-- Host physical address of the `k`-th access of a place of the step: a virtual address must fit in the context's virtual
address bits and be translated by its own paging (R49, R50), then the physical address of the context is found. -/
def locate (c : Config) (s : State) (p : Place) (k : Nat) : Ref → Access → Option Word
  | .phys a, acc => ctxPhys c s (.guest p k) a acc
  | .virt a, acc =>
    if pagingEnabled c s then
      if fits a (ctxVasBits c s) then
        (c.translate (s.xs c) (pageByte c s (.paging p k)) a acc).bind fun q => ctxPhys c s (.guest p k) q acc
      else none
    else ctxPhys c s (.guest p k) a acc

/-! ## Instruction fetch (R49, R51, R55, R60). -/

/-- A byte as instruction fetch reads it: a draw in a live register region (R46), and where memory was changed since the last
branch (R55), even if it holds again what it held then; else what memory holds. -/
def fetchByte (c : Config) (s : State) (k : Nat) (pa : Word) : Byte :=
  if isLive s pa || s.fetch.stale pa.toNat then c.drawByte s.drawCtr .fetch k pa
  else memRead s.mem pa.toNat

/-- The address of the `k`-th 16-bit unit from `ip`, modulo 2^64. DESIGN CHOICE (log 38): R13 and N6 leave what instruction fetch
does at the top of the address space to the base ISA; the model goes on at address 0. -/
def unitAddr (s : State) (k : Nat) : Word := s.ip + BitVec.ofNat 64 (2 * k)

/-- The `k`-th 16-bit unit from `ip`, where it can be fetched (log 38). -/
def fetchUnit (c : Config) (s : State) (k : Nat) : Option (Byte × Byte) :=
  (locate c s .fetch k (.virt (unitAddr s k)) .fetch).map fun pa =>
    (fetchByte c s (2 * k) pa, fetchByte c s (2 * k + 1) (pa + 1))

/-- The `k`-th byte from `ip`. -/
def codeByte (c : Config) (s : State) (k : Nat) : Option Byte :=
  (fetchUnit c s (k / 2)).map fun u => if k % 2 = 0 then u.1 else u.2

/-- Outcome of `FetchCheck`. -/
inductive FetchOutcome where
  | ok
  | xa
  | pf
deriving DecidableEq, Repr

/-- "well-aligned": a multiple of 2 (R51, D27). -/
def wellAligned (a : Word) : Bool := !a.getLsbD 0

/-- `FetchCheck` at a place of the step: XA before PF (D44, R165). -/
def fetchCheck (c : Config) (s : State) (p : Place) (a : Word) : FetchOutcome :=
  if !wellAligned a then .xa
  else if (locate c s p 0 (.virt a) .fetch).isSome then .ok
  else .pf

/-! ## Base operations and their effects. -/

/-- What a base operation sees at a given place of the step. -/
def view (c : Config) (s : State) (p : Place) : View where
  regs := s.xs c
  excMark := s.excMark
  code := codeByte c s
  read := fun k r => (locate c s p k r .load).map (hostByte c s p k)
  writable := fun k r => (locate c s (.probe p) k r .store).isSome

/-- Where the bytes an effect writes, from its `k`-th on, stand in host memory; `none` if one of them has no place (R136). -/
def placeWrites (c : Config) (s : State) : Nat → List (Ref × Byte) → Option (List (Nat × Byte))
  | _, [] => some []
  | k, (r, b) :: l =>
    match locate c s .store k r .store, placeWrites c s (k + 1) l with
    | some pa, some ws => some ((pa.toNat, b) :: ws)
    | _, _ => none

/-- Some byte an effect writes falls in a live register region. -/
def hitsLive (c : Config) (s : State) (e : Effect) : Bool :=
  !(liveRegions s).isEmpty &&
    ((placeWrites c s 0 e.writes).getD []).any fun w => isLive s (BitVec.ofNat 64 w.1)

/-- What is left to do after an effect, as an arrival of the next step. -/
def furtherEvents (o : Origin) : Option Further → List Event
  | none => []
  | some (.exception n i) => [.exception n (.base i) o]
  | some .reset => [.reset]

/-- The state after an effect. An effect that writes to an address with no place becomes a PF of the context, and nothing of
it is done (R49, DEDUCED, log 12). -/
def commit (c : Config) (s : State) (e : Effect) (o : Origin := .own) : State :=
  match placeWrites c s 0 e.writes with
  | none => { s with events := .exception c.pfNo .virt o :: s.events }
  | some ws =>
    { s with
      regs := keepReadOnly c s e.regs
      mem := memWriteAll s.mem ws
      fetch := if e.branch then (s.fetch.record (changedBy s.mem ws)).branch else s.fetch.record (changedBy s.mem ws)
      excMark := e.excMark
      events := furtherEvents o e.further ++ s.events }

/-- Perform an effect: refused where it writes a live register region (U8), changes the vmcs of an existing VM (R43, D9), or
leaves Hypervisor mode with XM set (U22). -/
def applyEffect (c : Config) (s : State) (e : Effect) (o : Origin := .own) : Result :=
  if hitsLive c s e then .refused .liveRegionWrite
  else if !keepsVmcs s (commit c s e o).mem then .refused .vmcsChanged
  else if s.me && !s.g && (commit c s e o).xm c then .refused .hypervisorProgramMode
  else .next (commit c s e o)

/-! ## Taking an exception (R149, R150). -/

/-- The effect of a delivery: the handler of the context's interrupt table is a supervisor's (R149; log 11). Where the delivery
ends in a further exception or a reset no handler is entered, and the effect is the base ISA's as it stands (log 13). -/
def handlerEffect (c : Config) (e : Effect) : Effect :=
  if e.further.isSome then e
  else { e with regs := regSet e.regs flagsReg (clearXm c (regGet e.regs flagsReg)) }

/-- `BaseDeliver` with a given return address: exception or interrupt `n` goes through the interrupt table of the context the
state is in. -/
def deliverTo (c : Config) (s : State) (n : Nat) (retIp : Word) (cause : Cause) (o : Origin := .own) : Result :=
  applyEffect c s (handlerEffect c (c.deliver (view c s .deliver) n retIp cause)) o

/-- The return address the base ISA records for `n` (`ExcReturnIp`, D34). -/
def returnIp (c : Config) (s : State) (n : Nat) : Word := c.excReturnIp (view c s .returnIp) n

/-- `BaseDeliver` in the context the state is in. -/
def deliver (c : Config) (s : State) (n : Nat) (cause : Cause) : Result := deliverTo c s n (returnIp c s n) cause

/-- A drawn 64-bit value. -/
def drawn (c : Config) (s : State) : Word := c.drawWord s.drawCtr

/-- The state after a draw. -/
def State.tick (s : State) : State := { s with drawCtr := s.drawCtr + 1 }

/-- `BaseDeliver` in the hypervisor within the context of a VM: the recorded `ip` is a draw (R157, U12). -/
def deliverDrawn (c : Config) (s : State) (n : Nat) (cause : Cause) (o : Origin := .entry) : Result :=
  deliverTo c s.tick n (drawn c s) cause o

/-- The check of the hypervisor's new `ip` after a transfer (R83, R152): XA and PF at hypervisor level. -/
def checkHypervisorIp (c : Config) (s : State) : Result :=
  match fetchCheck c s .dest s.ip with
  | .ok => .next s
  | .xa => deliverDrawn c s c.xaNo.val (.address s.ip)
  | .pf => deliverDrawn c s c.pfNo.val (.address s.ip)

/-! ## From a virtual machine to the hypervisor (R151 to R159). -/

/-- The registers the hypervisor gets back, with the given r0 and r1 (R159). -/
def restoredRegs (s : State) (v0 v1 : Word) : Regs :=
  regsOf fun i => if i = r0 then v0 else if i = r1 then v1 else regGet s.hsave i

/-- The VM's entry after an exit (R159), with what R55 needs. -/
def exitedVm (s : State) (vm : Vm) (p : Pending) (status : VmStatus) (hcall : Bool) : Vm :=
  { vm with pending := p, status := status, ipOut := s.ip, viaHcall := hcall, seen := s.fetch.seen }

/-- What fetch sees after an exit that stored at the given addresses (R55, log 15): an hcall is a branch, any other exit leaves
the hypervisor where its own last branch left it. -/
def exitFetch (f : FetchView) (hcall : Bool) (stored : List Nat) : FetchView :=
  if hcall then (f.record stored).branch else { f.record stored with seen := f.hvSeen }

/-- `StoreRegs`, the hypervisor's registers with the given r0 and r1, `G <- 0`, `vm.pending <- p`: what ExitVM and
HvInterruptEntry share. `curvm` stays. No exception is in progress across the transfer (R95). Refused in a state that R47
excludes, and where the registers would be stored over a vmcs (R43, D9). -/
def leaveVm (c : Config) (s : State) (vm : Vm) (p : Pending) (status : VmStatus) (hcall : Bool) (v0 v1 : Word) :
    Except Refusal State :=
  match vmcsOf c s .vmcsExit vm with
  | .error r => .error r
  | .ok v =>
    match structureAt c v.vmregs vmregsBytes with
    | .error r => .error r
    | .ok () =>
      if regionsClash s then .error .vmregsOverlap
      else if !keepsVmcs s (storeRegs c s v) then .error .vmcsChanged
      else .ok { s with
        regs := restoredRegs s v0 v1
        mem := storeRegs c s v
        fetch := exitFetch s.fetch hcall ((slotWrites c s v).map Prod.fst)
        g := false
        vms := vmUpdate s.vms (exitedVm s vm p status hcall)
        excMark := 0 }

/-- `ExitVM(vm, p)` (R159). -/
def exitVm (c : Config) (s : State) (vm : Vm) (p : Pending) (status : VmStatus) (hcall : Bool) : Except Refusal State :=
  leaveVm c s vm p status hcall (ctxEncode c vm.num p) vm.vmcsPa

/-- The status a VM has after a trap: RESET marks it (R153). -/
def statusAfter (vm : Vm) (k : Fin 17) : VmStatus := if k = 16 then .reset else vm.status

/-- `TrapToHypervisor(vm, k)` (R151, R153). -/
def trapToHypervisor (c : Config) (s : State) (vm : Vm) (k : Fin 17) : Result :=
  orRefuse (exitVm c (s.setIp (returnIp c s k.val)) vm (some k) (statusAfter vm k) false) fun s1 =>
  orRefuse (vmcsOf c s1 .vmcsTrap vm) fun v =>
  orRefuse (structureAt c v.vmtrxtab vmtrxtabBytes) fun _ =>
  checkHypervisorIp c (s1.setIp (physRead8 c s1 .vmtrxtab (trapEntryAddr v k)))

/-- `Raise(n, info)` (R150): trapped inside a VM where TRX says so, else delivered in the context. -/
def raise (c : Config) (s : State) (n : Fin 16) (cause : Cause) : Result :=
  if s.g && s.trx n then
    match s.curVm? with
    | none => .fault .noCurrentVm
    | some vm => trapToHypervisor c s vm ⟨n.val, by omega⟩
  else deliver c s n.val cause

/-- The check of the VM's `ip` after an entry: XA and PF in the supervisor, routed by `Raise` (R92, R105). -/
def checkVmIp (c : Config) (s : State) : Result :=
  match fetchCheck c s .vmDest s.ip with
  | .ok => .next s
  | .xa => raise c s c.xaNo (.address s.ip)
  | .pf => raise c s c.pfNo (.address s.ip)

/-- `HvInterruptEntry(j, info)` (R157): r0 and r1 are draws (U18), and so is the recorded `ip` (U12). -/
def hvInterruptEntry (c : Config) (s : State) (vm : Vm) (j : Nat) : Result :=
  orRefuse (leaveVm c s.tick.tick vm none vm.status false (drawn c s) (drawn c s.tick)) fun s1 =>
  deliverDrawn c s1 j .interrupt

/-! ## From the hypervisor to a virtual machine (R158). -/

/-- The changes of memory the VM's fetch is sure to see after an entry: those when the VM was left, unless the re-entry is a
branch inside the VM (R55). The first entry, by vmcreate, leaves it what the hypervisor's was (log 15). -/
def entrySeen (s : State) (vm : Vm) (reentry delivers : Bool) (newIp : Word) : Nat :=
  if !reentry then s.fetch.seen
  else if delivers || vm.viaHcall || newIp != vm.ipOut then s.fetch.changes.length
  else vm.seen

/-- What fetch sees after an entry; the hypervisor's own is kept for its return. -/
def FetchView.enter (f : FetchView) (seen : Nat) : FetchView := { f with seen := seen, hvSeen := f.seen }

/-- `EnterVM(vm)` (R158); a state that R47 excludes is refused. -/
def enterVm (c : Config) (s : State) (vm : Vm) (reentry delivers : Bool) : Except Refusal State :=
  match vmcsOf c s .vmcsEnter vm with
  | .error r => .error r
  | .ok v =>
    match structureAt c v.vmregs vmregsBytes with
    | .error r => .error r
    | .ok () =>
      if regionsClash s then .error .vmregsOverlap
      else .ok { s with
        hsave := s.xs c
        regs := loadRegs c s v
        g := true
        curvm := some vm.num
        fetch := s.fetch.enter (entrySeen s vm reentry delivers (regGet (loadRegs c s v) ipReg))
        excMark := 0 }

/-! ## Identifiers (R156) and reset (R153, R180). -/

/-- The classes of `CtxClass`. -/
inductive CtxClass where
  | invalid
  | reset (vm : Vm)
  | live (vm : Vm) (p : Pending)
  | staleDestroyed
  | staleDisabled
deriving DecidableEq, Repr

/-- `CtxClass(id)` (R156). -/
def ctxClass (c : Config) (s : State) (id : Word) : CtxClass :=
  match ctxDecode c id with
  | none => .invalid
  | some (n, p) =>
    match vmFind s.vms n with
    | some vm => if vm.status = .reset then .reset vm else .live vm p
    | none =>
      if n ∈ s.retiredDestroyed then .staleDestroyed
      else if n ∈ s.retiredDisabled then .staleDisabled
      else .invalid

/-- Reset of the CPU (R180): memory, the other CPUs and what is still to arrive are not the CPU's. -/
def cpuReset (s : State) : State :=
  { State.reset with
    mem := s.mem, fetch := s.fetch, otherVms := s.otherVms, events := s.events, drawCtr := s.drawCtr }

/-- A RESET: of the VM inside one, always trapped (R153, R181); of the CPU outside (R180). -/
def resetEvent (c : Config) (s : State) : Result :=
  if s.g then
    match s.curVm? with
    | none => .fault .noCurrentVm
    | some vm => trapToHypervisor c s vm 16
  else .next (cpuReset s)

/-- `ip <- ip + n`, the next instruction (R64, R135). -/
def State.advance (s : State) (n : Nat) : State := s.setIp (s.ip + BitVec.ofNat 64 n)

/-- An exception at hypervisor level that the hypervisor's own instruction raises (R149). -/
def raiseInHypervisor (c : Config) (s : State) (n : Fin 16) : Result := deliver c s n.val .virt

end Sys2Proof.Machine
end

