-- ==== Sys2Proof/Machine/Hcall.lean ====
section
/-! DEFINITION. hcall (40_hcall.md). -/

namespace Sys2Proof.Machine

/-- The UND of an hcall (R80, R85): executed by the hypervisor in a VM's context, the `ip` its delivery records is a draw
(R85, C10); otherwise it is routed by `Raise`. -/
def hcallUnd (c : Config) (s : State) : Result :=
  if s.mode c = .hypervisor ∧ s.curvm.isSome then deliverDrawn c s c.undNo.val .virt .own
  else raise c s c.undNo .virt

/-- The hypervisor's registers at its procedure: r7 from scsp, ip from scdp (R80, R82). -/
def atHypervisorProcedure (c : Config) (s : State) : State :=
  (s.setReg r7 (s.x c (scspReg c))).setIp (s.x c (scdpReg c))

/-- hcall (R80). During an instruction `ip` is its own address (log 5). -/
def hcallWith (c : Config) (h : BitVec 4) (s : State) : Result :=
  if h ≠ 0 then hcallUnd c s
  else if s.xm c then raise c s c.protNo .virt
  else if s.mode c ≠ .managedSupervisor then hcallUnd c s
  else match s.curVm? with
    | none => .fault .noCurrentVm
    | some vm =>
      orRefuse (exitVm c (s.advance 2) vm none vm.status true) fun s1 =>
      checkHypervisorIp c (atHypervisorProcedure c s1)

/-- hcall on the hardware. -/
def execHcall (h : BitVec 4) (s : State) : Result := hcallWith Config.hw h s

end Sys2Proof.Machine
end

