-- ==== Sys2Proof/Machine/Hret.lean ====
section
/-! DEFINITION. hret and hresume (41_hret_hresume.md): one procedure, `HvReturn` (R92). -/

namespace Sys2Proof.Machine

/-- The exception hresume delivers, where the identifier signals one (R91). -/
def deliveredBy (resume : Bool) : Pending → Option (Fin 17)
  | some k => if resume then some k else none
  | none => none

/-- The state of the table after the exception is taken off the VM (R92). -/
def clearPending (s : State) (vm : Vm) : State := { s with vms := vmUpdate s.vms { vm with pending := none } }

/-- The forwarded exception runs in the VM, past TRX (D21). The `ip` it records is the one loaded from slot 16, which the trap
left there (R91): the base ISA's return address was stored then and is not computed again. -/
def forward (c : Config) (s : State) (vm : Vm) (n : Fin 17) : Result :=
  deliverTo c (clearPending s vm) n.val s.ip .forwarded

/-- The body of `HvReturn` for a live VM (R92). -/
def returnToVm (c : Config) (resume : Bool) (s : State) (vm : Vm) (p : Pending) : Result :=
  if p.isSome ∧ vm.pending ≠ p then .refused .forgedPending
  else orRefuse (enterVm c (s.advance 2) vm true (deliveredBy resume p).isSome) fun s1 =>
    match deliveredBy resume p with
    | some n => forward c s1 vm n
    | none => checkVmIp c s1

/-- `HvReturn(resume)` (R92). -/
def hvReturn (c : Config) (resume : Bool) (h : BitVec 4) (s : State) : Result :=
  if h ≠ 0 then raise c s c.undNo .virt
  else if s.xm c then raise c s c.protNo .virt
  else if s.mode c ≠ .hypervisor then raise c s c.undNo .virt
  else match ctxClass c s (s.x c r0) with
    | .invalid => raiseInHypervisor c s c.protNo
    | .reset _ => raiseInHypervisor c s c.protNo
    | .staleDisabled => .refused .staleDisabled
    | .staleDestroyed => .refused .staleDestroyed
    | .live vm p => returnToVm c resume s vm p

/-- hret (R90). -/
def hretWith (c : Config) (h : BitVec 4) (s : State) : Result := hvReturn c false h s

/-- hresume (R91). -/
def hresumeWith (c : Config) (h : BitVec 4) (s : State) : Result := hvReturn c true h s

/-- hret on the hardware. -/
def execHret (h : BitVec 4) (s : State) : Result := hretWith Config.hw h s

/-- hresume on the hardware. -/
def execHresume (h : BitVec 4) (s : State) : Result := hresumeWith Config.hw h s

end Sys2Proof.Machine
end

