-- ==== Sys2Proof/Syntax.lean ====
section
/-! DEFINITION. The instructions of spec/opcode_table.json, one constructor a row. Every row leaves the field `h` open
(mask 0xfff0), so every constructor carries it: an `h` other than 0 is a reserved encoding that raises UND (R62). -/

namespace Sys2Proof

/-- The five instructions of the extension (R61). -/
inductive Instr where
  /-- hcall, opcode 0xfcb (R80). -/
  | hcall (h : BitVec 4)
  /-- hret, opcode 0xfd6 (R90). -/
  | hret (h : BitVec 4)
  /-- hresume, opcode 0xfd7 (R91). -/
  | hresume (h : BitVec 4)
  /-- vmcreate, opcode 0xe00, with the bytes of its one base-ISA operand (R63, R105). -/
  | vmcreate (h : BitVec 4) (src : List Byte)
  /-- vmdestroy, opcode 0xe01 (R110). -/
  | vmdestroy (h : BitVec 4)
deriving DecidableEq, Repr

end Sys2Proof
end

