-- ==== Sys2Proof/WellFormed.lean ====
section
/-! DEFINITION. Well-formed instructions: vmcreate's operand has the length its own first two bytes give (R63, R64). -/

namespace Sys2Proof

/-- The length in bytes of the operand that begins a list of bytes: two bytes and what those two ask for (R64). -/
def operandLength (c : Config) : List Byte → Nat
  | x :: y :: _ => 2 + c.operandTail x y
  | _ => 2

/-- The operand bytes are exactly one operand. -/
def operandWf (c : Config) (src : List Byte) : Bool := src.length == operandLength c src

/-- The instruction can stand in memory as it is. `h` may have any value: R62 gives a nonzero `h` a behaviour. -/
def Instr.wf (c : Config) : Instr → Bool
  | .hcall _ => true
  | .hret _ => true
  | .hresume _ => true
  | .vmcreate _ src => operandWf c src
  | .vmdestroy _ => true

end Sys2Proof
end

