-- ==== Sys2Proof/Machine/Operands.lean ====
section
/-! DEFINITION. Operands: the extension has one, vmcreate's source operand, in the base ISA's operand encoding (R63). -/

namespace Sys2Proof.Machine

/-- The value of vmcreate's operand. Where the operand's bytes could not all be fetched the executing context gets PF
(DESIGN CHOICE, log 7); what that PF hands its delivery is not in the spec (R148, N13) and is a free value. -/
def readOperand (c : Config) (s : State) (src : List Byte) : OperandResult :=
  if operandWf c src then c.operandValue (view c s .operand) src
  else .raises c.pfNo (c.operandPfInfo (view c s .operand))

end Sys2Proof.Machine
end

