-- ==== Sys2Proof/Machine/Vm.lean ====
section
/-! DEFINITION. vmcreate and vmdestroy (42_vmcreate_vmdestroy.md). -/

namespace Sys2Proof.Machine

/-- Validation of a vmcs at creation (R108): version, reserved bits, sizes. -/
def vmcsLegal (c : Config) (v : Vmcs) : Except Refusal Unit :=
  if v.vmcsver ≠ 0 then .error .vmcsVersion
  else if v.reserved35 ≠ 0 ∨ v.reserved56 ≠ 0 then .error .vmcsReservedBits
  else if !sizesOk c v.vmpas v.vmvas then .error .vmcsSizes
  else .ok ()

/-- The entry of a new VM (R105). -/
def newVm (n : VmNum) (pa : Word) (v : Vmcs) : Vm where
  num := n
  vmcsPa := pa
  status := .active
  pending := none
  vmcs := v
  ipOut := 0
  viaHcall := false
  seen := 0

/-- The table with a new VM; its number leaves the retired sets (R25, R107). -/
def addVm (s : State) (vm : Vm) : State :=
  { s with
    vms := vmInsert s.vms vm
    retiredDestroyed := numErase s.retiredDestroyed vm.num
    retiredDisabled := numErase s.retiredDisabled vm.num }

/-- Creation from the vmcs at `pa`, the instruction being `len` bytes long (R105). -/
def createVm (c : Config) (pa : Word) (len : Nat) (s : State) : Result :=
  orRefuse (readVmcs c s .vmcsCreate pa) fun v =>
  orRefuse (vmcsLegal c v) fun _ =>
  orRefuse (enterVm c ((addVm s (newVm (freshVmNum c s) pa v)).advance len)
      (newVm (freshVmNum c s) pa v) false false) fun s1 =>
  checkVmIp c s1

/-- vmcreate (R105): `h`, mode and limit before the operand (D42). -/
def vmcreateWith (c : Config) (h : BitVec 4) (src : List Byte) (s : State) : Result :=
  if h ≠ 0 then raise c s c.undNo .virt
  else if s.mode c ≠ .hypervisor then raise c s c.undNo .virt
  else if limitReached c s then raiseInHypervisor c s c.protNo
  else match readOperand c s src with
    | .raises n i => raise c s n (.base i)
    | .value pa => createVm c pa (2 + src.length) s

/-- Disposal of a VM (R110). -/
def removeVm (s : State) (vm : Vm) : State :=
  { s with
    vms := vmErase s.vms vm.num
    retiredDestroyed := numInsert s.retiredDestroyed vm.num
    curvm := if s.curvm = some vm.num then none else s.curvm }

/-- vmdestroy (R110). -/
def vmdestroyWith (c : Config) (h : BitVec 4) (s : State) : Result :=
  if h ≠ 0 then raise c s c.undNo .virt
  else if s.mode c ≠ .hypervisor then raise c s c.undNo .virt
  else match ctxClass c s (s.x c r0) with
    | .invalid => raiseInHypervisor c s c.protNo
    | .staleDisabled => raiseInHypervisor c s c.protNo
    | .staleDestroyed => raiseInHypervisor c s c.protNo
    | .reset vm => .next ((removeVm s vm).advance 2)
    | .live vm _ => .next ((removeVm s vm).advance 2)

/-- vmcreate on the hardware. -/
def execVmcreate (h : BitVec 4) (src : List Byte) (s : State) : Result := vmcreateWith Config.hw h src s

/-- vmdestroy on the hardware. -/
def execVmdestroy (h : BitVec 4) (s : State) : Result := vmdestroyWith Config.hw h s

end Sys2Proof.Machine
end

