-- ==== Sys2Proof/Machine/Dispatch.lean ====
section
/-! DEFINITION. One arm per instruction. -/

namespace Sys2Proof.Machine

def exec (i : Instr) (s : State) : Host.Outcome State Fault Refusal :=
  match i with
  | .hcall h => Sys2Proof.Machine.execHcall h s
  | .hret h => Sys2Proof.Machine.execHret h s
  | .hresume h => Sys2Proof.Machine.execHresume h s
  | .vmcreate h src => Sys2Proof.Machine.execVmcreate h src s
  | .vmdestroy h => Sys2Proof.Machine.execVmdestroy h s

end Sys2Proof.Machine
end

