-- ==== Sys2Proof/Machine/BaseIsa.lean ====
section
/-! DEFINITION. What the extension changes in base-ISA instructions (43_base_instruction_changes.md): `in` and `out` and the
three io ports, `iret` and `scret`, machine-specific instructions, features, and register accesses. The base behaviour
itself is the parameter `baseAct`. -/

namespace Sys2Proof.Machine

/-! ## io (R20, R21, R125, R126, R134, R143 to R145). -/

/-- The three io addresses of the extension (R168). -/
def ioMxcw : Word := 0x7f800000
def ioContext : Word := 0x7f800001
def ioVmcs : Word := 0x7f800002

/-- The value io 0x7f800001 holds: the identifier of the current VM, signalling nothing (D30), or 0 (R20). -/
def contextPort (c : Config) (s : State) : Word :=
  match s.curVm? with
  | some vm => ctxEncode c vm.num none
  | none => 0

/-- The value io 0x7f800002 holds: the address of the current VM's vmcs, or 0 (R21). -/
def vmcsPort (s : State) : Word :=
  match s.curVm? with
  | some vm => vm.vmcsPa
  | none => 0

/-- The io addresses R134 names: 0xfe80 and the CPU initialization registers starting at 0xff00 and 0xff80. How many these
are is not in the spec: parameters (log 24). -/
def reportsCpus (c : Config) (a : Word) : Bool :=
  a == 0xfe80 || decide ((a - 0xff00).toNat ≤ c.cpuInitTail0) || decide ((a - 0xff80).toNat ≤ c.cpuInitTail1)

/-- How many CPUs a base io address shows: one inside a VM, at the addresses R134 names (R171). -/
def visibleCpus (c : Config) (s : State) (a : Word) : Nat := if s.g && reportsCpus c a then 1 else ncpu c

/-- The value an `in` reads (R126); every other address, and a narrower access, is the base ISA's (D16). -/
def ioReadValue (c : Config) (s : State) (a : Word) (wide : Bool) : Word :=
  if wide && a == ioMxcw then s.mxcw
  else if wide && a == ioContext then contextPort c s
  else if wide && a == ioVmcs then vmcsPort s
  else c.ioRead s.drawCtr (visibleCpus c s a) (view c s .ioPort) a wide

/-- Whether an io instruction is made (R125): PROT in program-execution mode, and inside a VM whose vmcs has trapio set. -/
def ioAllowed (c : Config) (s : State) : Except Refusal Bool :=
  if s.g then
    match s.curVm? with
    | none => .ok true
    | some vm =>
      match vmcsOf c s .vmcsIo vm with
      | .error r => .error r
      | .ok v => .ok (!s.xm c && !v.trapio)
  else .ok (!s.xm c)

/-- Disabling management (R144): the VMs are disposed of, the ports read 0. -/
def disableManagement (s : State) : State :=
  { s with
    retiredDisabled := s.vms.foldl (fun l vm => numInsert l vm.num) s.retiredDisabled
    vms := []
    curvm := none }

/-- A write to mxcw by an unmanaged supervisor or the hypervisor (R143, R144). -/
def writeMxcw (s : State) (v : Word) : State :=
  if s.me && !v.getLsbD 0 then { disableManagement s with mxcw := v } else { s with mxcw := v }

/-- `out`, once it is allowed (R126, R143 to R145). DESIGN CHOICE (log 24): a narrower `out` to 0x7f800000 is the base ISA's
(D16) and, as its Effect cannot, never changes mxcw, `G` or the VM table. DESIGN CHOICE (log 12): mxcw is written, and with ME
cleared the VMs are disposed of, even where the effect `e` of the `out` stores to an address with no place and a PF follows. -/
def ioWrite (c : Config) (s : State) (a : Word) (wide : Bool) (v : Word) (e : Effect) : Result :=
  if wide && a == ioMxcw then
    if s.g then applyEffect c s e
    else if !mxcwLegal v then .refused .reservedMxcwBits
    else applyEffect c (writeMxcw s v) e
  else if wide && (a == ioContext || a == ioVmcs) then .refused .portWrite
  else applyEffect c s (c.ioWrite (visibleCpus c s a) (view c s .ioPort) a wide v e)

/-- The io gate in front of an io instruction. -/
def ioGate (c : Config) (s : State) (k : Result) : Result :=
  if s.g && s.curVm?.isNone then .fault .noCurrentVm
  else orRefuse (ioAllowed c s) fun ok => if ok then k else raise c s c.protNo .virt

/-! ## iret and scret (R127). -/

/-- A return that would put Hypervisor mode into program-execution mode raises ABORT instead, before any effect (D43). -/
def returnGate (c : Config) (s : State) (e : Effect) : Result :=
  if s.mode c = .hypervisor ∧ xm c (regGet e.regs flagsReg) then raiseInHypervisor c s c.abortNo
  else applyEffect c s e

/-! ## Machine-specific instructions (R129), features (R133, R161), registers (R130 to R132). -/

/-- A managed supervisor's use of what is not passed through raises UND. DESIGN CHOICE (log 42): what is passed through
depends on the current VM by its number alone. -/
def machineSpecificGate (c : Config) (s : State) (id : Word) (e : Effect) : Result :=
  if s.g && !s.xm c && !(s.curvm.any fun n => c.msPassthrough n id) then raise c s c.undNo .virt
  else applyEffect c s e

/-- Inside a VM a feature is there if the loaded and the hardware's feature register both show it. -/
def featureGate (c : Config) (s : State) (r : RegNo) (b : Fin 64) (e : Effect) : Result :=
  if s.g && !featureAvailable c s.regs r b then raise c s c.absentFeature .virt
  else applyEffect c s e

/-- A register can be used: inside a VM the optional extension it belongs to, if to one, is there (R161). -/
def regUsable (c : Config) (s : State) (i : RegNo) : Bool :=
  !s.g || decide (i ∈ alwaysAvail) || regFeaturePresent c s.regs i

/-- A use of a register: UND for an undefined one, whatever was stored in its slot (R132), then the exception of an absent
feature (R161). -/
def registerGate (c : Config) (s : State) (i : RegNo) (k : Result) : Result :=
  if !regDefined c i then raise c s c.undNo .virt
  else if !regUsable c s i then raise c s c.absentFeature .virt
  else k

/-- A read of a register gives the value held (R130). -/
def readGate (c : Config) (s : State) (i : RegNo) (k : Word → Effect) : Result :=
  registerGate c s i (applyEffect c s (k (s.x c i)))

/-- A write of a register is checked by its value alone, as any write is; UND for an illegal value. A read-only register
stays as it is (R131, `keepReadOnly`). DESIGN CHOICE (log 32): where the register's extension is absent and the value illegal
too, the exception of the absent feature comes first (`registerGate`); the spec gives both and no order. -/
def writeGate (c : Config) (s : State) (i : RegNo) (v : Word) (e : Effect) : Result :=
  registerGate c s i (if c.writeUnd i v then raise c s c.undNo .virt else applyEffect c s e)

/-- One step of an instruction this spec does not define: `BaseStep` with the changes of 43_base_instruction_changes.md. The
base ISA sees the bytes that were fetched and decoded as `View.code`. -/
def baseStep (c : Config) (s : State) : Result :=
  match c.baseAct (view c s .base) with
  | .run e => applyEffect c s e
  | .ioIn a wide k => ioGate c s (applyEffect c s (k (ioReadValue c s a wide)))
  | .ioOut a wide v e => ioGate c s (ioWrite c s a wide v e)
  | .iret e => returnGate c s e
  | .scret e => returnGate c s e
  | .machineSpecific id e => machineSpecificGate c s id e
  | .needsFeature r b e => featureGate c s r b e
  | .readRegister i k => readGate c s i k
  | .writeRegister i v e => writeGate c s i v e
  | .raises n info => raise c s n (.base info)
  | .resets => resetEvent c s

end Sys2Proof.Machine
end

