-- ==== Sys2Proof/Machine/Events.lean ====
section
/-! DEFINITION. What arrives from outside the instruction stream: interrupts (R157, R162), RESET (R153, R180), writes by
other agents (R46, R52), the virtual machines of the other CPUs (R26, R47), and the further exception of a delivery (R91). -/

namespace Sys2Proof.Machine

/-- An interrupt arriving inside a VM (R162): the hypervisor's, or the VM's, routed by R150 where it is one of 0 to 15. -/
def interruptInVm (c : Config) (s : State) (vm : Vm) (j : Nat) : Result :=
  if c.hvInterrupt j then hvInterruptEntry c s vm j
  else if hj : j < 16 then raise c s ⟨j, hj⟩ .interrupt
  else deliver c s j .interrupt

/-- An interrupt (R162). -/
def takeInterrupt (c : Config) (s : State) (j : Nat) : Result :=
  if s.g then
    match s.curVm? with
    | none => .fault .noCurrentVm
    | some vm => interruptInVm c s vm j
  else deliver c s j .interrupt

/-- A byte written by another agent: undefined in a live register region (U8); refused where it changes the vmcs of an existing
VM (R43, D9); visible to fetch after the next branch. DESIGN CHOICE (log 40): a write to memory that is not implemented is
dropped. DESIGN CHOICE (log 43): a write to a vmtrxtab array or a vmmmap table of an existing VM, which R196 (D35) assumes away,
is a write as any other. -/
def takeAgentWrite (c : Config) (s : State) (pa : Word) (b : Byte) : Result :=
  if isLive s pa then .refused .liveRegionWrite
  else if !implemented c pa then .next s
  else if !keepsVmcs s (memWrite s.mem pa.toNat b) then .refused .vmcsChanged
  else .next { s with mem := memWrite s.mem pa.toNat b, fetch := s.fetch.record (changedBy s.mem [(pa.toNat, b)]) }

/-- The VMs of the other CPUs change; regions of different CPUs must not overlap (R47, U9). -/
def takeOtherVms (s : State) (l : List OtherVm) : Result :=
  if regionsClash { s with otherVms := l } then .refused .vmregsOverlap
  else .next { s with otherVms := l }

/-- A further exception (R91, R164). Where it comes from the delivery at an entry to the hypervisor and the hypervisor receives
it in the context of a VM, the `ip` it records is a draw, as for the exception it comes from (R157, U12); any other is the base
ISA's, routed by `Raise`. -/
def takeFurther (c : Config) (s : State) (n : Fin 16) (cause : Cause) (o : Origin) : Result :=
  if o = .entry ∧ s.g = false ∧ s.curvm.isSome then deliverDrawn c s n.val cause else raise c s n cause

/-- Take one arrival. -/
def takeEvent (c : Config) (s : State) : Event → Result
  | .interrupt j => takeInterrupt c s j
  | .reset => resetEvent c s
  | .exception n cause o => takeFurther c s n cause o
  | .agentWrite pa b => takeAgentWrite c s pa b
  | .otherVms l => takeOtherVms s l

/-- The state an arrival is taken in: it is off the list, and draws are fresh. -/
def State.dropEvent (s : State) (es : List Event) : State := { s with events := es, drawCtr := s.drawCtr + 1 }

end Sys2Proof.Machine
end

