-- ==== Sys2Proof/Decode.lean ====
section
/-! DEFINITION. Decoding and encoding (30_encoding.md R60 to R66). Decoding looks at bytes and nothing else (R66). -/

namespace Sys2Proof

/-- Why bytes are no instruction of the extension. -/
inductive DecodeError where
  /-- Fewer bytes than one instruction word. -/
  | truncated
  /-- The opcode belongs to the base ISA or to nobody: `BaseStep` (R65). -/
  | baseOpcode (op : BitVec 12)
deriving DecidableEq, Repr

/-- The instruction word of two bytes, most significant byte first (R60, D2). -/
def instrWord (b0 b1 : Byte) : BitVec 16 := b0 ++ b1

/-- Bits 15:4 (R60). -/
def opcodeOf (w : BitVec 16) : BitVec 12 := w.extractLsb' 4 12

/-- Bits 3:0 (R60). -/
def hOf (w : BitVec 16) : BitVec 4 := w.extractLsb' 0 4

/-- The opcodes of R61. -/
def opHcall : BitVec 12 := 0xfcb
def opHret : BitVec 12 := 0xfd6
def opHresume : BitVec 12 := 0xfd7
def opVmcreate : BitVec 12 := 0xe00
def opVmdestroy : BitVec 12 := 0xe01

/-- The instruction an opcode and `h` stand for, given the bytes after the word (R61, R64, R65). -/
def decodeWord (c : Config) (op : BitVec 12) (h : BitVec 4) (rest : List Byte) :
    Except DecodeError (Instr × List Byte) :=
  if op = opHcall then .ok (.hcall h, rest)
  else if op = opHret then .ok (.hret h, rest)
  else if op = opHresume then .ok (.hresume h, rest)
  else if op = opVmcreate then
    .ok (.vmcreate h (rest.take (operandLength c rest)), rest.drop (operandLength c rest))
  else if op = opVmdestroy then .ok (.vmdestroy h, rest)
  else .error (.baseOpcode op)

/-- Total on any bytes: the instruction and the bytes after it, or the reason there is none. -/
def decode (c : Config) : List Byte → Except DecodeError (Instr × List Byte)
  | b0 :: b1 :: rest => decodeWord c (opcodeOf (instrWord b0 b1)) (hOf (instrWord b0 b1)) rest
  | _ => .error .truncated

/-- The two bytes of an instruction word, most significant byte first (R60). -/
def wordBytes (w : BitVec 16) : List Byte := [w.extractLsb' 8 8, w.extractLsb' 0 8]

/-- The bytes of an instruction word with the given opcode and `h` (R60, R61). -/
def encodeWord (op : BitVec 12) (h : BitVec 4) : List Byte := wordBytes (op ++ h)

/-- The bytes of an instruction in memory order. -/
def encode : Instr → List Byte
  | .hcall h => encodeWord opHcall h
  | .hret h => encodeWord opHret h
  | .hresume h => encodeWord opHresume h
  | .vmcreate h src => encodeWord opVmcreate h ++ src
  | .vmdestroy h => encodeWord opVmdestroy h

/-- The length of an instruction in bytes (R64). -/
def instrLength (i : Instr) : Nat := (encode i).length

/-- The bytes, in memory order, of the words that hold the `nbits` bits of `w`, numbered as spec/opcode_table.json numbers
them: the first 16-bit word is bits 15:0, a later word's bits count on. -/
def tableHead (nbits w : Nat) : List Byte :=
  (List.range ((nbits + 15) / 16)).flatMap fun k =>
    wordBytes (BitVec.ofNat 16 ((w % 2 ^ nbits) >>> (16 * k)))

/-- How many zero bytes the instruction that begins with these bytes has after them: those of vmcreate's operand (R64). -/
def tableTail (c : Config) : List Byte → Nat
  | b0 :: b1 :: rest =>
    if opcodeOf (instrWord b0 b1) = opVmcreate then
      operandLength c [rest.getD 0 0, rest.getD 1 0] - rest.length
    else 0
  | _ => 0

/-- The instruction the decoder reads from those bytes and the zeros after them. -/
def decodeTableWord (nbits w : Nat) : Option Instr :=
  match decode Config.hw (tableHead nbits w ++ List.replicate (tableTail Config.hw (tableHead nbits w)) 0) with
  | .ok (i, _) => some i
  | .error _ => none

end Sys2Proof
end

