-- ==== Sys2Proof/Machine/Fetch.lean ====
section
/-! DEFINITION. The bytes of the instruction at `ip` (R60, R64), and where bytes are placed so that they are fetched. -/

namespace Sys2Proof.Machine

/-- Up to `n` units from the `k`-th on, to the first that cannot be fetched. -/
def fetchUnits (c : Config) (s : State) : Nat → Nat → List Byte
  | 0, _ => []
  | n + 1, k =>
    match fetchUnit c s k with
    | some (a, b) => a :: b :: fetchUnits c s n (k + 1)
    | none => []

/-- The units an operand has whose first one is given: as many as its length takes (R64). -/
def operandUnits (c : Config) : Option (Byte × Byte) → Nat
  | some (x, y) => (operandLength c [x, y] + 1) / 2
  | none => 0

/-- The bytes at `ip` that the instruction has: its word, and vmcreate's operand after it (R63, R64). -/
def fetchWindow (c : Config) (s : State) : List Byte :=
  match fetchUnit c s 0 with
  | none => []
  | some (a, b) =>
    a :: b ::
      (if opcodeOf (instrWord a b) = opVmcreate then fetchUnits c s (operandUnits c (fetchUnit c s 1)) 1 else [])

/-- Host physical address of the `k`-th byte from `ip`, whether or not it is implemented. -/
def fetchSlot (c : Config) (s : State) (k : Nat) : Word :=
  if pagingEnabled c s || s.g then
    (locate c s .fetch (k / 2) (.virt (unitAddr s (k / 2))) .fetch).getD 0 + BitVec.ofNat 64 (k % 2)
  else s.ip + BitVec.ofNat 64 k

/-- Bytes placed from the `k`-th byte after `ip` on. -/
def placeCode (c : Config) (s : State) (m : Memory) : Nat → List Byte → Memory
  | _, [] => m
  | k, b :: bs => placeCode c s (memWrite m (fetchSlot c s k).toNat b) (k + 1) bs

/-- Zero bytes, which is what an unlisted byte reads as, in `n` places from the `k`-th byte after `ip` on. -/
def placeZeros (c : Config) (s : State) (m : Memory) (k n : Nat) : Memory :=
  m.filter fun cell => !((List.range n).any fun j => cell.1 == (fetchSlot c s (k + j)).toNat)

/-- The words of an instruction and the zeros after them, placed at `ip`. -/
def placeInstr (c : Config) (s : State) (m : Memory) (head : List Byte) : Memory :=
  placeCode c s (placeZeros c s m head.length (tableTail c head)) 0 head

end Sys2Proof.Machine
end

