-- ==== Sys2Proof/Machine/Execute.lean ====
section
/-! DEFINITION. The instructions and the step under any configuration. The spec is a functor over the base interface (00_scope.md
section 5), so statements are made for every `Config`; `exec` and `step` are the instances at `Config.hw`. -/

namespace Sys2Proof.Machine

/-- An instruction's meaning under a configuration. -/
def execWith (c : Config) : Instr → State → Result
  | .hcall h, s => hcallWith c h s
  | .hret h, s => hretWith c h s
  | .hresume h, s => hresumeWith c h s
  | .vmcreate h src, s => vmcreateWith c h src s
  | .vmdestroy h, s => vmdestroyWith c h s

/-- The instruction at `ip`: the fetch is checked (R51); the five opcodes run by `run`, every other by `BaseStep` (R65). What
the decoder reads, and what the base ISA sees as `View.code`, are the same bytes. -/
def instructionStepBy (c : Config) (run : Instr → State → Result) (s : State) : Result :=
  match fetchCheck c s .fetch s.ip with
  | .xa => raise c s c.xaNo (.address s.ip)
  | .pf => raise c s c.pfNo (.address s.ip)
  | .ok =>
    match decode c (fetchWindow c s) with
    | .ok (i, _) => run i s
    | .error _ => baseStep c s

/-- One step: the oldest arrival, or else the instruction at `ip`. The draw counter moves on first, so that what the step draws
is fresh. A state in which VMs of different CPUs have overlapping regions is refused (R47, U9). -/
def stepBy (c : Config) (run : Instr → State → Result) (s : State) : Result :=
  if regionsClash s then .refused .vmregsOverlap
  else match s.events with
    | [] => instructionStepBy c run s.tick
    | e :: es => takeEvent c (s.dropEvent es) e

/-- One step under a configuration. -/
def stepWith (c : Config) (s : State) : Result := stepBy c (execWith c) s

end Sys2Proof.Machine
end

