-- ==== Sys2Proof/Machine/Step.lean ====
section
/-! DEFINITION. One step of the machine: the oldest arrival, or the instruction at `ip`. -/

namespace Sys2Proof.Machine

/-- One step of the machine: `exec` runs the decoded instruction. -/
def step (s : State) : Host.Outcome State Fault Refusal := stepBy Config.hw exec s

/-- `s` with the instruction whose bits are `w` placed where the next step fetches, and nothing arriving first: the bytes in
memory, which fetch is sure to see. -/
def State.withFetchWord (s : State) (nbits w : Nat) : State :=
  { s with
    mem := placeInstr Config.hw s s.mem (tableHead nbits w)
    fetch := s.fetch.branch
    events := [] }

end Sys2Proof.Machine
end

