-- ==== Sys2Proof/Safety.lean ====
section
/-! DEFINITION. What a sound state is, and what a safe step is. -/

namespace Sys2Proof.Safety

open Sys2Proof.Machine

/-- The invariant of R36 (10_state.md), with what it rests on. Every clause is kept by every step; none is assumed of a state
an instruction is given, so the instructions' statements name the clauses they need. -/
structure Inv (c : Config) (s : State) : Prop where
  /-- R36 (a): inside a VM management is on and the current VM is an active entry of the table. -/
  guestManaged : s.g = true → s.me = true ∧ ∃ vm, s.curVm? = some vm ∧ vm.status = .active
  /-- R36 (b): Hypervisor mode is incompatible with program-execution mode (R146). -/
  hypervisorSupervises : s.g = false → s.me = true → s.xm c = false
  /-- The hypervisor's saved flags too (R159: "so flags.XM = 0 again"). -/
  savedSupervises : s.g = true → xm c (regGet s.hsave flagsReg) = false
  /-- R36 (c): with management off there are no VMs. -/
  unmanagedEmpty : s.me = false → s.vms = [] ∧ s.curvm = none
  /-- `curvm` is none or one entry of the VM table (R24). -/
  currentListed : ∀ n, s.curvm = some n → (vmFind s.vms n).isSome = true
  /-- R36 (d), and the canonical order of the table. -/
  numbersRise : s.vms.Pairwise fun v w => v.num < w.num
  numbersNonzero : ∀ vm ∈ s.vms, vm.num ≠ 0
  /-- The table keeps the limit (R106). -/
  limitKept : s.vmcount ≤ vmLimitCpu c
  /-- A VM has received RESET exactly if its last exit signalled it (R25, R153). -/
  resetSignalled : ∀ vm ∈ s.vms, vm.status = .reset ↔ vm.pending = some 16
  /-- Every VM was created from a legal vmcs (R108). -/
  vmcsLegal : ∀ vm ∈ s.vms, Machine.vmcsLegal c vm.vmcs = .ok ()
  /-- A number in use is not retired (R25, R107). -/
  retiredFree : ∀ vm ∈ s.vms, vm.num ∉ s.retiredDestroyed ∧ vm.num ∉ s.retiredDisabled
  /-- The retired sets are in canonical order. -/
  retiredRise : s.retiredDestroyed.Pairwise (· < ·) ∧ s.retiredDisabled.Pairwise (· < ·)
  /-- The regions of VMs on different CPUs are disjoint (R47). -/
  regionsDisjoint : regionsClash s = false
  /-- The reserved bits of mxcw are never 1 (R18, R33). -/
  mxcwReserved : mxcwLegal s.mxcw = true
  /-- Memory is canonical. -/
  memCanonical : memWf s.mem = true
  /-- Nobody has seen more changes of memory than there were. -/
  seenChanges : s.fetch.wf = true ∧ ∀ vm ∈ s.vms, vm.seen ≤ s.fetch.changes.length

/-- A step that the model follows: it neither faults nor refuses. -/
def SafeStep (s : State) : Prop := ∃ t, step s = .next t

end Sys2Proof.Safety
end

