-- ==== Sys2Proof/Certificates/Slice0/Obligations.lean ====
section
/-! DEFINITION. The statements. They are made for EVERY configuration `c`, since the spec is a functor over the base
interface (00_scope.md section 5); `exec` and `step` are the instances at the uninterpreted `Config.hw`, and every statement of
an instruction's own effect says so of `exec` too. What is said of `stepWith` holds of `step` (`HardwareIsAnInstance`). -/

namespace Sys2Proof.Claims

open Sys2Proof.Machine

/-- An instruction answers a state: its meaning under `c`, and `exec` where `c` is the hardware. -/
def Answers (c : Config) (i : Instr) (s t : State) : Prop :=
  execWith c i s = .next t ∧ (c = Config.hw → exec i s = .next t)

/-- The 64-bit word in memory at an address, little-endian (R40). -/
def memWord (m : Memory) (pa : Word) : Word := wordOf fun k => memRead m (wordAddr pa k).toNat

/-- The values of a VM's `vmregs` slots in memory (R30). -/
def slots (s : State) (v : Vmcs) : Regs := regsOf fun i => memWord s.mem (slotAddr v i)

/-- The VM can be left with `ip` in its slot: its vmcs can be read, is as vmcreate found it and points to a usable `vmregs`
array (R43, R57); regions of different CPUs are apart (R47); the register store falls on no vmcs (R43). -/
structure Leavable (c : Config) (s : State) (vm : Vm) (ip : Word) : Prop where
  vmcs : vmcsOf c s .vmcsExit vm = .ok vm.vmcs
  vmregs : structureAt c vm.vmcs.vmregs vmregsBytes = .ok ()
  apart : regionsClash s = false
  keeps : keepsVmcs s (storeRegs c (s.setIp ip) vm.vmcs) = true

/-- The VM can be entered: the same of the vmcs, the array and the regions (R43, R47, R57). -/
structure Enterable (c : Config) (s : State) (vm : Vm) : Prop where
  vmcs : vmcsOf c s .vmcsEnter vm = .ok vm.vmcs
  vmregs : structureAt c vm.vmcs.vmregs vmregsBytes = .ok ()
  apart : regionsClash s = false

/-- Why the VM cannot be left, in the order of the checks: its vmcs, its `vmregs` array, overlapping regions (U9), a register
store over a vmcs. -/
def CannotLeave (c : Config) (s : State) (vm : Vm) (ip : Word) (r : Refusal) : Prop :=
  vmcsOf c s .vmcsExit vm = .error r ∨
  (vmcsOf c s .vmcsExit vm = .ok vm.vmcs ∧ structureAt c vm.vmcs.vmregs vmregsBytes = .error r) ∨
  (vmcsOf c s .vmcsExit vm = .ok vm.vmcs ∧ structureAt c vm.vmcs.vmregs vmregsBytes = .ok () ∧
    ((regionsClash s = true ∧ r = .vmregsOverlap) ∨
     (regionsClash s = false ∧ keepsVmcs s (storeRegs c (s.setIp ip) vm.vmcs) = false ∧ r = .vmcsChanged)))

/-- Why the VM cannot be entered, in the order of the checks. -/
def CannotEnter (c : Config) (s : State) (vm : Vm) (r : Refusal) : Prop :=
  vmcsOf c s .vmcsEnter vm = .error r ∨
  (vmcsOf c s .vmcsEnter vm = .ok vm.vmcs ∧ structureAt c vm.vmcs.vmregs vmregsBytes = .error r) ∨
  (vmcsOf c s .vmcsEnter vm = .ok vm.vmcs ∧ structureAt c vm.vmcs.vmregs vmregsBytes = .ok () ∧
    regionsClash s = true ∧ r = .vmregsOverlap)

/-! ## Targets of the transfers, field by field. -/

/-- The state after the VM is left (R159), its `ip` slot holding `ip`: memory is the register store of R45, r0 and r1 are as
given, every other register is the hypervisor's saved one, and the VM's entry signals `p`. -/
def leftTarget (c : Config) (s : State) (vm : Vm) (ip : Word) (p : Pending) (status : VmStatus) (hcall : Bool)
    (v0 v1 : Word) : State :=
  { s with
    regs := regsOf fun i => if i = r0 then v0 else if i = r1 then v1 else regGet s.hsave i
    mem := storeRegs c (s.setIp ip) vm.vmcs
    fetch := exitFetch s.fetch hcall ((slotWrites c (s.setIp ip) vm.vmcs).map Prod.fst)
    g := false
    vms := vmUpdate s.vms
      { vm with pending := p, status := status, ipOut := ip, viaHcall := hcall, seen := s.fetch.seen }
    excMark := 0 }

/-- The hypervisor at its procedure after an hcall (R80): r7 its scsp, ip its scdp. -/
def hcallTarget (c : Config) (s : State) (vm : Vm) : State :=
  { leftTarget c s vm (s.ip + 2) none vm.status true (ctxEncode c vm.num none) vm.vmcsPa with
    regs := regsOf fun i =>
      if i = r0 then ctxEncode c vm.num none
      else if i = r1 then vm.vmcsPa
      else if i = r7 then regGet s.hsave (scspReg c)
      else if i = ipReg then regGet s.hsave (scdpReg c)
      else regGet s.hsave i }

/-- The state the hypervisor's trap handler starts in before its `ip` is set (R151). -/
def trapLeft (c : Config) (s : State) (vm : Vm) (k : Fin 17) : State :=
  leftTarget c s vm (returnIp c s k.val) (some k) (statusAfter vm k) false (ctxEncode c vm.num (some k)) vm.vmcsPa

/-- The hypervisor at entry `k` of the VM's `vmtrxtab` (R151, R153). -/
def trapTarget (c : Config) (s : State) (vm : Vm) (k : Fin 17) : State :=
  (trapLeft c s vm k).setIp (physRead8 c (trapLeft c s vm k) .vmtrxtab (trapEntryAddr vm.vmcs k))

/-- A trap can be taken: the VM can be left, and its vmcs read and its table accessed after the register store (R57). -/
structure TrapReady (c : Config) (s : State) (vm : Vm) (k : Fin 17) : Prop where
  inside : s.g = true
  current : s.curVm? = some vm
  leavable : Leavable c s vm (returnIp c s k.val)
  again : vmcsOf c (trapLeft c s vm k) .vmcsTrap vm = .ok vm.vmcs
  table : structureAt c vm.vmcs.vmtrxtab vmtrxtabBytes = .ok ()

/-- The state after a VM is entered (R158) by an instruction of `len` bytes: the registers available in it are loaded from the
slots (`EnteringWritesNoMemory` says it of `loadFrom`), the hypervisor's registers are saved, and of the changes of memory
fetch is sure to see the oldest `seen`. -/
def enterTarget (c : Config) (s : State) (vm : Vm) (len : Nat) (seen : Nat) : State :=
  { s with
    hsave := regsOf fun i => if i = ipReg then s.ip + BitVec.ofNat 64 len else s.x c i
    regs := loadFrom c s (slots s vm.vmcs)
    g := true
    curvm := some vm.num
    fetch := s.fetch.enter seen
    excMark := 0 }

/-- The changes of memory fetch is sure to see after a re-entry (R55): all where it is a branch, else those when the VM was
left. -/
def reentrySeen (s : State) (vm : Vm) (delivers : Bool) : Nat :=
  if delivers = true ∨ vm.viaHcall = true ∨ regGet (slots s vm.vmcs) ipReg ≠ vm.ipOut then s.fetch.changes.length
  else vm.seen

/-- hcall can transfer (R80). -/
structure HcallReady (c : Config) (s : State) (vm : Vm) : Prop where
  mode : s.mode c = .managedSupervisor
  current : s.curVm? = some vm
  leavable : Leavable c s vm (s.ip + 2)

/-- hret or hresume can enter the VM that r0 names (R92). -/
structure ReturnReady (c : Config) (s : State) (vm : Vm) (p : Pending) : Prop where
  mode : s.mode c = .hypervisor
  live : ctxClass c s (regGet s.regs r0) = .live vm p
  genuine : p = none ∨ vm.pending = p
  enterable : Enterable c s vm

/-- The state in which vmcreate has added its VM (R105). -/
def withNewVm (c : Config) (s : State) (pa : Word) (v : Vmcs) : State :=
  { s with
    vms := vmInsert s.vms (newVm (freshVmNum c s) pa v)
    retiredDestroyed := s.retiredDestroyed.filter fun n => n != freshVmNum c s
    retiredDisabled := s.retiredDisabled.filter fun n => n != freshVmNum c s }

/-- vmcreate can create and enter a VM (R105). -/
structure CreateReady (c : Config) (s : State) (src : List Byte) (pa : Word) (v : Vmcs) : Prop where
  mode : s.mode c = .hypervisor
  room : s.vmcount < vmLimitCpu c ∧ s.vmcountAll < vmLimitAll c
  operand : readOperand c s src = .value pa
  vmcs : readVmcs c s .vmcsCreate pa = .ok v
  legal : vmcsLegal c v = .ok ()
  enterable : Enterable c (withNewVm c s pa v) (newVm (freshVmNum c s) pa v)

/-- The state after vmcreate (R105). -/
def createTarget (c : Config) (s : State) (pa : Word) (v : Vmcs) (len : Nat) : State :=
  enterTarget c (withNewVm c s pa v) (newVm (freshVmNum c s) pa v) len s.fetch.seen

/-- The state after vmdestroy (R110). -/
def destroyTarget (s : State) (vm : Vm) : State :=
  { s with
    regs := regSet s.regs ipReg (s.ip + 2)
    vms := s.vms.filter fun w => w.num != vm.num
    retiredDestroyed := numInsert s.retiredDestroyed vm.num
    curvm := if s.curvm = some vm.num then none else s.curvm }

/-- `x[i]` of the stored bytes: the addresses R45's store writes, from the state whose registers are stored. -/
def StoredAt (c : Config) (s : State) (v : Vmcs) (a : Nat) : Prop :=
  ∃ i k, regAvail c s.regs i = true ∧ k < 8 ∧ a = (wordAddr (slotAddr v i) k).toNat

/-- What a base instruction that is an `in` or an `out` does once it is made (R126): the `in` goes on with what the port reads,
the `out` is the write. -/
def IoMade (c : Config) (s : State) (r : Result) : Prop :=
  (∃ a wide k, c.baseAct (view c s .base) = .ioIn a wide k ∧ r = applyEffect c s (k (ioReadValue c s a wide))) ∨
  (∃ a wide v e, c.baseAct (view c s .base) = .ioOut a wide v e ∧ r = ioWrite c s a wide v e)

/-- Two results are the same up to `hsave`. -/
def SameUpToHsave (x : Regs) (r q : Result) : Prop :=
  match r, q with
  | .next t, .next u => u = { t with hsave := x }
  | _, _ => False

end Sys2Proof.Claims

open Sys2Proof Sys2Proof.Machine Sys2Proof.Claims Sys2Proof.Safety

/-! ## Reset -/

/-- R33: what reset leaves of the extension's state. That `flags`, and so XM, is 0 at reset is the model's choice, log 1. -/
def Obligations.ResetLeavesUnmanagedSupervisor : Prop :=
  ∀ c, State.reset.mxcw = 0 ∧ State.reset.g = false ∧ State.reset.curvm = none ∧ State.reset.vms = [] ∧
    State.reset.vmcount = 0 ∧ State.reset.retiredDestroyed = [] ∧ State.reset.retiredDisabled = [] ∧
    contextPort c State.reset = 0 ∧ vmcsPort State.reset = 0 ∧ State.reset.mode c = .unmanagedSupervisor

/-- R180: a RESET with `G = 0` resets the CPU. That the base registers become those of `State.reset` (all zero) is the
model's choice, log 1; that memory keeps its contents is the model's reading, log 25. -/
def Obligations.CpuResetRestoresResetValues : Prop :=
  ∀ c s, s.g = false → ∃ t, resetEvent c s = .next t ∧
    t.mxcw = 0 ∧ t.g = false ∧ t.curvm = none ∧ t.vms = [] ∧ t.vmcount = 0 ∧
    t.vmcountAll = s.vmcountAll - s.vmcount ∧ contextPort c t = 0 ∧ vmcsPort t = 0 ∧
    t.retiredDestroyed = [] ∧ t.retiredDisabled = [] ∧ t.mem = s.mem ∧ t.otherVms = s.otherVms ∧
    t.regs = State.reset.regs ∧ t.mode c = .unmanagedSupervisor

/-- The invariant holds at reset; its clauses on memory and flags rest on the model's reset values, log 1 and 2. -/
def Obligations.InvariantHoldsAtReset : Prop := ∀ c, Inv c State.reset

/-! ## Encoding -/

/-- R61: the opcode decides, `h` is kept, every other opcode is not the extension's. -/
def Obligations.OpcodeSelectsInstruction : Prop :=
  ∀ c (b0 b1 : Byte) rest,
    (instrWord b0 b1 &&& 0xfff0 = 0xfcb0 → decode c (b0 :: b1 :: rest) = .ok (.hcall (hOf (instrWord b0 b1)), rest)) ∧
    (instrWord b0 b1 &&& 0xfff0 = 0xfd60 → decode c (b0 :: b1 :: rest) = .ok (.hret (hOf (instrWord b0 b1)), rest)) ∧
    (instrWord b0 b1 &&& 0xfff0 = 0xfd70 → decode c (b0 :: b1 :: rest) = .ok (.hresume (hOf (instrWord b0 b1)), rest)) ∧
    (instrWord b0 b1 &&& 0xfff0 = 0xe000 → decode c (b0 :: b1 :: rest) =
      .ok (.vmcreate (hOf (instrWord b0 b1)) (rest.take (operandLength c rest)), rest.drop (operandLength c rest))) ∧
    (instrWord b0 b1 &&& 0xfff0 = 0xe010 → decode c (b0 :: b1 :: rest) = .ok (.vmdestroy (hOf (instrWord b0 b1)), rest)) ∧
    (instrWord b0 b1 &&& 0xfff0 ∉ [0xfcb0, 0xfd60, 0xfd70, 0xe000, 0xe010] →
      decode c (b0 :: b1 :: rest) = .error (.baseOpcode (opcodeOf (instrWord b0 b1))))

/-- Words written out from R61 and vector E1. -/
def Obligations.WrittenOutWordsDecode : Prop :=
  ∀ c, decode c [0xFC, 0xB0] = .ok (.hcall 0, []) ∧ decode c [0xFD, 0x60] = .ok (.hret 0, []) ∧
    decode c [0xFD, 0x70] = .ok (.hresume 0, []) ∧ decode c [0xE0, 0x10] = .ok (.vmdestroy 0, []) ∧
    decode c [0xFD, 0x6F] = .ok (.hret 15, []) ∧ decode c [0xE0, 0x20] = .error (.baseOpcode 0xe02) ∧
    decode c [0xB0, 0xFC] = .error (.baseOpcode 0xb0f) ∧
    ∃ src, decode c [0xE0, 0x00, 0x12, 0x34] = .ok (.vmcreate 0 src, []) ∧ [0x12, 0x34] = src

/-- Decoding what was encoded gives it back, whatever follows it. -/
def Obligations.DecodeOfEncode : Prop :=
  ∀ c i rest, i.wf c = true → decode c (encode i ++ rest) = .ok (i, rest)

/-- Encoding what was decoded gives the bytes it was decoded from: no bit is dropped. -/
def Obligations.EncodeOfDecode : Prop :=
  ∀ c bs i rest, decode c bs = .ok (i, rest) → encode i ++ rest = bs

/-! ## The step -/

/-- exec and step are the instances at the hardware's configuration, so what is stated of every configuration holds of them. -/
def Obligations.HardwareIsAnInstance : Prop :=
  (∀ i s, exec i s = execWith Config.hw i s) ∧ ∀ s, step s = stepWith Config.hw s

/-- When nothing arrives and the bytes at `ip` decode, the step runs the instruction, in a state that differs in the draw
counter alone (`regionsClash`: in a state R47 excludes no step is made, `UnusableStructuresRefuseTransfer`). Which bytes are at an
`ip` near the top of the address space is the model's choice, log 38. -/
def Obligations.StepRunsDecodedInstruction : Prop :=
  (∀ s i rest, s.events = [] → regionsClash s = false → fetchCheck Config.hw s.tick .fetch s.ip = .ok →
    decode Config.hw (fetchWindow Config.hw s.tick) = .ok (i, rest) → step s = exec i s.tick) ∧
  (∀ c s i rest, s.events = [] → regionsClash s = false → fetchCheck c s.tick .fetch s.ip = .ok →
    decode c (fetchWindow c s.tick) = .ok (i, rest) → stepWith c s = execWith c i s.tick) ∧
  ∀ s : State, s.tick = { s with drawCtr := s.drawCtr + 1 }

/-- R65: every other opcode is the base ISA's, which sees as its code the bytes the decoder read. A destination that cannot be
fetched from raises XA or PF (R51, R49). Which bytes are at an `ip` near the top of the address space is log 38. -/
def Obligations.StepRunsBaseOrRaises : Prop :=
  ∀ c s, s.events = [] → regionsClash s = false →
    (fetchCheck c s.tick .fetch s.ip = .ok → ∀ e, decode c (fetchWindow c s.tick) = .error e →
      stepWith c s = baseStep c s.tick ∧
      ∀ a b rest, fetchWindow c s.tick = a :: b :: rest →
        (view c s.tick .base).code 0 = some a ∧ (view c s.tick .base).code 1 = some b) ∧
    (fetchCheck c s.tick .fetch s.ip = .xa → stepWith c s = raise c s.tick c.xaNo (.address s.ip)) ∧
    (fetchCheck c s.tick .fetch s.ip = .pf → stepWith c s = raise c s.tick c.pfNo (.address s.ip))

/-- What arrived is taken before an instruction runs, one arrival a step, oldest first; how arrivals are ordered is the model's
choice, log 9. A delivery's further exception is the first arrival of the next step (log 13). It goes through `Raise` (R91),
so at hypervisor level it is the base ISA's (R164 (b)), but for that of the delivery at an entry to the hypervisor in a VM's
context, whose recorded `ip` is a free value (R157; that it is so for the further exception too is the model's reading,
log 13). -/
def Obligations.ArrivalIsTakenFirst : Prop :=
  (∀ c s e es, s.events = e :: es → regionsClash s = false →
    stepWith c s = takeEvent c { s with events := es, drawCtr := s.drawCtr + 1 } e) ∧
  (∀ c s e o ws m info t, applyEffect c s e o = .next t → placeWrites c s 0 e.writes = some ws →
    e.further = some (.exception m info) → t.events = .exception m (.base info) o :: s.events) ∧
  ∀ c s n cause,
    takeEvent c s (.exception n cause .own) = raise c s n cause ∧
    (s.g = true ∨ s.curvm = none → takeEvent c s (.exception n cause .entry) = raise c s n cause) ∧
    (s.g = false → s.curvm ≠ none → takeEvent c s (.exception n cause .entry) =
      deliverTo c { s with drawCtr := s.drawCtr + 1 } n.val (c.drawWord s.drawCtr) cause .entry)

/-- Every step keeps the invariant of R36 and what it rests on. -/
def Obligations.StepKeepsInvariant : Prop :=
  (∀ c s t, Inv c s → stepWith c s = .next t → Inv c t) ∧
  ∀ s t, Inv Config.hw s → step s = .next t → Inv Config.hw t

/-! ## hcall -/

/-- R80: hcall's own effect. Every register, all of memory and every other field is as `hcallTarget` says. Of these, that fetch
sees all of memory afterwards (hcall a branch for the hypervisor too) is the model's choice, log 15, and that no exception is
in progress is its reading of R95, log 14. -/
def Obligations.HcallTransfers : Prop :=
  ∀ c s vm, HcallReady c s vm →
    fetchCheck c (hcallTarget c s vm) .dest (regGet s.hsave (scdpReg c)) = .ok →
    Answers c (.hcall 0) s (hcallTarget c s vm)

/-- R83: a bad scdp raises XA or PF at hypervisor level after the transfer, with a drawn return address. What fetch sees in the
state it is raised in, and the mark of an exception in it, are the model's, log 15 and 14. -/
def Obligations.HcallBadDestinationRaisesInHypervisor : Prop :=
  ∀ c s vm, HcallReady c s vm →
    (fetchCheck c (hcallTarget c s vm) .dest (regGet s.hsave (scdpReg c)) = .xa →
      execWith c (.hcall 0) s =
        deliverDrawn c (hcallTarget c s vm) c.xaNo.val (.address (regGet s.hsave (scdpReg c)))) ∧
    (fetchCheck c (hcallTarget c s vm) .dest (regGet s.hsave (scdpReg c)) = .pf →
      execWith c (.hcall 0) s =
        deliverDrawn c (hcallTarget c s vm) c.pfNo.val (.address (regGet s.hsave (scdpReg c))))

/-- R80, R84, R85, R165: outside Managed Supervisor Mode hcall does nothing but raise: PROT in program-execution mode (the spec's
own order, D17, log 28), else UND, received directly by an unmanaged supervisor or a hypervisor. -/
def Obligations.HcallWrongModeOnlyRaises : Prop :=
  ∀ c s,
    (s.mode c = .program → execWith c (.hcall 0) s = raise c s c.protNo .virt) ∧
    (s.mode c = .unmanagedSupervisor → s.g = false →
      execWith c (.hcall 0) s = deliver c s c.undNo.val .virt) ∧
    (s.mode c = .hypervisor → s.curvm = none → execWith c (.hcall 0) s = deliver c s c.undNo.val .virt) ∧
    (s.mode c = .hypervisor → s.curvm ≠ none →
      execWith c (.hcall 0) s =
        deliverTo c { s with drawCtr := s.drawCtr + 1 } c.undNo.val (c.drawWord s.drawCtr) .virt)

/-! ## hret and hresume -/

/-- R90: hret's own effect. That no exception is in progress in the VM is the model's reading of R95, log 14; what fetch sees
follows R55 by the reading of log 15. -/
def Obligations.HretEntersVm : Prop :=
  ∀ c s vm p, ReturnReady c s vm p →
    fetchCheck c (enterTarget c s vm 2 (reentrySeen s vm false)) .vmDest (regGet (slots s vm.vmcs) ipReg) = .ok →
    Answers c (.hret 0) s (enterTarget c s vm 2 (reentrySeen s vm false))

/-- R91: hresume with an identifier that signals nothing is hret, a bad `ip` included. That no exception is in progress in the VM is
the model's reading of R95, log 14; what fetch sees follows R55 by the reading of log 15. -/
def Obligations.HresumeWithoutSignalEntersVm : Prop :=
  ∀ c s vm, ReturnReady c s vm none →
    execWith c (.hresume 0) s = execWith c (.hret 0) s ∧
    (fetchCheck c (enterTarget c s vm 2 (reentrySeen s vm false)) .vmDest (regGet (slots s vm.vmcs) ipReg) = .ok →
      Answers c (.hresume 0) s (enterTarget c s vm 2 (reentrySeen s vm false)))

/-- R91: hresume forwards the signalled exception inside the VM: no longer pending, not offered to TRX, the VM's `ip` not
checked, and recorded as it was left in slot 16. That the delivery starts with no exception in progress is the model's reading
of R95, log 14; that fetch is sure to see all of memory follows R55 by the reading of log 15. -/
def Obligations.HresumeForwardsPendingException : Prop :=
  ∀ c s vm n, ReturnReady c s vm (some n) →
    execWith c (.hresume 0) s =
      deliverTo c { enterTarget c s vm 2 s.fetch.changes.length with vms := vmUpdate s.vms { vm with pending := none } } n.val
        (regGet (slots s vm.vmcs) ipReg) .forwarded

/-- R92: after the entry a bad `ip` raises XA or PF in the VM, through `Raise`. In the state it is raised in, that no exception is in
progress is the model's reading of R95, log 14, and what fetch sees follows R55 by the reading of log 15. -/
def Obligations.EnteredVmBadIpRaisesInVm : Prop :=
  ∀ c s vm p, ReturnReady c s vm p →
    (fetchCheck c (enterTarget c s vm 2 (reentrySeen s vm false)) .vmDest (regGet (slots s vm.vmcs) ipReg) = .xa →
      execWith c (.hret 0) s = raise c (enterTarget c s vm 2 (reentrySeen s vm false)) c.xaNo
        (.address (regGet (slots s vm.vmcs) ipReg))) ∧
    (fetchCheck c (enterTarget c s vm 2 (reentrySeen s vm false)) .vmDest (regGet (slots s vm.vmcs) ipReg) = .pf →
      execWith c (.hret 0) s = raise c (enterTarget c s vm 2 (reentrySeen s vm false)) c.pfNo
        (.address (regGet (slots s vm.vmcs) ipReg)))

/-- R92, R93, R156: a value that is no identifier, and the identifier of a VM that received RESET, give PROT in the hypervisor
and nothing else. -/
def Obligations.ReturnWithoutLiveVmRaisesProt : Prop :=
  ∀ c s i, i = Instr.hret 0 ∨ i = Instr.hresume 0 → s.mode c = .hypervisor →
    (ctxClass c s (regGet s.regs r0) = .invalid ∨ ∃ vm, ctxClass c s (regGet s.regs r0) = .reset vm) →
    execWith c i s = deliver c s c.protNo.val .virt

/-- R165: hret and hresume outside Hypervisor mode do nothing but raise: PROT in program-execution mode, else UND. -/
def Obligations.ReturnWrongModeOnlyRaises : Prop :=
  ∀ c s i, i = Instr.hret 0 ∨ i = Instr.hresume 0 →
    (s.mode c = .program → execWith c i s = raise c s c.protNo .virt) ∧
    (s.mode c = .unmanagedSupervisor ∨ s.mode c = .managedSupervisor → execWith c i s = raise c s c.undNo .virt)

/-- R96 (U2, U7) and D29: the uses the spec gives no meaning are refused. -/
def Obligations.StaleOrForgedIdentifierRefused : Prop :=
  ∀ c s i, i = Instr.hret 0 ∨ i = Instr.hresume 0 → s.mode c = .hypervisor →
    (ctxClass c s (regGet s.regs r0) = .staleDestroyed → execWith c i s = .refused .staleDestroyed) ∧
    (ctxClass c s (regGet s.regs r0) = .staleDisabled → execWith c i s = .refused .staleDisabled) ∧
    (∀ vm k, ctxClass c s (regGet s.regs r0) = .live vm (some k) → vm.pending ≠ some k →
      execWith c i s = .refused .forgedPending)

/-! ## vmcreate and vmdestroy -/

/-- R105: vmcreate's own effect. That what fetch sees stays (the entry by vmcreate no branch, R55) is the model's choice,
log 15; that no exception is in progress in the VM is its reading of R95, log 14; that evaluating the operand changes no register
and no memory is its choice, log 41. -/
def Obligations.VmcreateEntersNewVm : Prop :=
  ∀ c s src pa v, CreateReady c s src pa v →
    fetchCheck c (createTarget c s pa v (2 + src.length)) .vmDest (regGet (slots s v) ipReg) = .ok →
    Answers c (.vmcreate 0 src) s (createTarget c s pa v (2 + src.length))

/-- R105: a bad `ip` of the new VM raises XA or PF in it, after it exists, through `Raise`. What fetch sees in the state it is
raised in, and the mark of an exception in it, are the model's, log 15 and 14; that evaluating the operand changed no register and
no memory is its choice, log 41. -/
def Obligations.CreatedVmBadIpRaisesInVm : Prop :=
  ∀ c s src pa v, CreateReady c s src pa v →
    (fetchCheck c (createTarget c s pa v (2 + src.length)) .vmDest (regGet (slots s v) ipReg) = .xa →
      execWith c (.vmcreate 0 src) s =
        raise c (createTarget c s pa v (2 + src.length)) c.xaNo (.address (regGet (slots s v) ipReg))) ∧
    (fetchCheck c (createTarget c s pa v (2 + src.length)) .vmDest (regGet (slots s v) ipReg) = .pf →
      execWith c (.vmcreate 0 src) s =
        raise c (createTarget c s pa v (2 + src.length)) c.pfNo (.address (regGet (slots s v) ipReg)))

/-- R63: an exception of the operand's evaluation is the executing context's, and vmcreate has no other effect. That the evaluation
itself changes nothing is the model's choice, log 41. -/
def Obligations.VmcreateOperandExceptionOnlyRaises : Prop :=
  ∀ c s src n info, s.mode c = .hypervisor → s.vmcount < vmLimitCpu c → s.vmcountAll < vmLimitAll c →
    readOperand c s src = .raises n info → execWith c (.vmcreate 0 src) s = raise c s n (.base info)

/-- R107: the new VM's number is nonzero and not in use, any such number can be chosen, and it leaves the retired sets. -/
def Obligations.FreshNumberIsUnused : Prop :=
  ∀ c s, Inv c s → s.vmcount < vmLimitCpu c →
    freshVmNum c s ≠ 0 ∧ (∀ vm ∈ s.vms, vm.num ≠ freshVmNum c s) ∧
    (∀ n, n ≠ 0 → vmFind s.vms n = none → c.drawNum s.drawCtr = n → freshVmNum c s = n) ∧
    ∀ pa v, freshVmNum c s ∉ (withNewVm c s pa v).retiredDestroyed ∧ freshVmNum c s ∉ (withNewVm c s pa v).retiredDisabled

/-- R106: at either limit vmcreate raises PROT in the hypervisor, before the operand or the vmcs is read. -/
def Obligations.VmcreateAtLimitRaisesProt : Prop :=
  ∀ c s src, s.mode c = .hypervisor → vmLimitCpu c ≤ s.vmcount ∨ vmLimitAll c ≤ s.vmcountAll →
    execWith c (.vmcreate 0 src) s = deliver c s c.protNo.val .virt

/-- R108: a vmcs of another version, with a reserved bit set, or with illegal sizes is refused. -/
def Obligations.IllegalVmcsRefused : Prop :=
  ∀ c s src pa v, s.mode c = .hypervisor → s.vmcount < vmLimitCpu c → s.vmcountAll < vmLimitAll c →
    readOperand c s src = .value pa → readVmcs c s .vmcsCreate pa = .ok v →
    (v.vmcsver ≠ 0 → execWith c (.vmcreate 0 src) s = .refused .vmcsVersion) ∧
    (v.vmcsver = 0 → v.reserved35 ≠ 0 ∨ v.reserved56 ≠ 0 →
      execWith c (.vmcreate 0 src) s = .refused .vmcsReservedBits) ∧
    (v.vmcsver = 0 → v.reserved35 = 0 → v.reserved56 = 0 →
      (c.vasBits (hostVas c) < c.pasBits v.vmpas ∨ c.vasBits (hostVas c) < c.vasBits v.vmvas ∨
        c.vasBits v.vmvas < c.pasBits v.vmpas) →
      execWith c (.vmcreate 0 src) s = .refused .vmcsSizes)

/-- R105, R110 (D18): outside Hypervisor mode vmcreate and vmdestroy raise UND and do nothing else, in program-execution mode
too. -/
def Obligations.CreateDestroyWrongModeRaisesUnd : Prop :=
  ∀ c s src, s.mode c ≠ .hypervisor →
    execWith c (.vmcreate 0 src) s = raise c s c.undNo .virt ∧
    execWith c (.vmdestroy 0) s = raise c s c.undNo .virt

/-- R110: vmdestroy's own effect, for a live VM and for one that received RESET. -/
def Obligations.VmdestroyDisposes : Prop :=
  ∀ c s vm, s.mode c = .hypervisor →
    (ctxClass c s (regGet s.regs r0) = .reset vm ∨ ∃ p, ctxClass c s (regGet s.regs r0) = .live vm p) →
    Answers c (.vmdestroy 0) s (destroyTarget s vm)

/-- R110: any other value, a stale identifier too, gives PROT in the hypervisor. -/
def Obligations.VmdestroyInvalidRaisesProt : Prop :=
  ∀ c s, s.mode c = .hypervisor →
    ctxClass c s (regGet s.regs r0) = .invalid ∨ ctxClass c s (regGet s.regs r0) = .staleDestroyed ∨
      ctxClass c s (regGet s.regs r0) = .staleDisabled →
    execWith c (.vmdestroy 0) s = deliver c s c.protNo.val .virt

/-- After vmdestroy (R110): one VM fewer counts against both limits, its number is found no more and is retired, every other
entry stays, and the ports read 0 if it was the current VM. -/
def Obligations.DestroyedVmNoLongerCounts : Prop :=
  ∀ c s vm, Inv c s → vm ∈ s.vms →
    (destroyTarget s vm).vmcount + 1 = s.vmcount ∧ (destroyTarget s vm).vmcountAll + 1 = s.vmcountAll ∧
    vmFind (destroyTarget s vm).vms vm.num = none ∧ vm.num ∈ (destroyTarget s vm).retiredDestroyed ∧
    (∀ n, n ≠ vm.num → vmFind (destroyTarget s vm).vms n = vmFind s.vms n) ∧
    (s.curvm = some vm.num → contextPort c (destroyTarget s vm) = 0 ∧ vmcsPort (destroyTarget s vm) = 0)

/-- R62 (D3): a nonzero `h` raises UND before every other check; only the return address differs, where the hypervisor
executes hcall in a VM's context (R85). -/
def Obligations.ReservedHRaisesUnd : Prop :=
  ∀ c s h src, h ≠ 0 →
    execWith c (.hret h) s = raise c s c.undNo .virt ∧
    execWith c (.hresume h) s = raise c s c.undNo .virt ∧
    execWith c (.vmcreate h src) s = raise c s c.undNo .virt ∧
    execWith c (.vmdestroy h) s = raise c s c.undNo .virt ∧
    execWith c (.hcall h) s =
      (if s.mode c = .hypervisor ∧ s.curvm ≠ none then deliverDrawn c s c.undNo.val .virt .own
       else raise c s c.undNo .virt)

/-! ## mxcw and the ports -/

/-- R143: an unmanaged supervisor's write of mxcw takes ME and TRX from the value; where it sets ME the writer is the
hypervisor, with no VMs, and nothing else of the state changes. That a reserved bit is refused is the treatment of U1
(log 35), and the value with bit 0 clear is the spec's own choice, D37 (log 28). That mxcw is written even where the base effect of
the out then ends in a PF is the model's choice, log 12. -/
def Obligations.SettingMeEntersHypervisorMode : Prop :=
  ∀ c s v e, s.mode c = .unmanagedSupervisor → s.g = false →
    (mxcwLegal v = false → ioWrite c s ioMxcw true v e = .refused .reservedMxcwBits) ∧
    (mxcwLegal v = true → ioWrite c s ioMxcw true v e = applyEffect c { s with mxcw := v } e ∧
      { s with mxcw := v }.mode c = if v.getLsbD 0 then .hypervisor else .unmanagedSupervisor) ∧
    (Inv c s → { s with mxcw := v }.vms = [] ∧ { s with mxcw := v }.curvm = none ∧ { s with mxcw := v }.vmcount = 0)

/-- R144: the hypervisor's write of mxcw; with bit 0 clear management is disabled. That a reserved bit is refused is the
treatment of U1 (log 35); that with bit 0 set only mxcw changes is the spec's own choice, D37 (log 28). That mxcw is written, and
the VMs are disposed of, even where the base effect of the out then ends in a PF is the model's choice, log 12. -/
def Obligations.ClearingMeDisposesOfVms : Prop :=
  ∀ c s v e, s.mode c = .hypervisor →
    (mxcwLegal v = false → ioWrite c s ioMxcw true v e = .refused .reservedMxcwBits) ∧
    (mxcwLegal v = true → v.getLsbD 0 = true → ioWrite c s ioMxcw true v e = applyEffect c { s with mxcw := v } e) ∧
    (mxcwLegal v = true → v.getLsbD 0 = false → ∃ t, ioWrite c s ioMxcw true v e = applyEffect c t e ∧
      t.vms = [] ∧ t.curvm = none ∧ t.vmcount = 0 ∧ t.vmcountAll = s.vmcountAll - s.vmcount ∧
      (∀ n, n ∈ t.retiredDisabled ↔ n ∈ s.retiredDisabled ∨ ∃ vm ∈ s.vms, vm.num = n) ∧
      contextPort c t = 0 ∧ vmcsPort t = 0 ∧ t.mode c = .unmanagedSupervisor ∧
      t = { s with mxcw := v, vms := t.vms, curvm := t.curvm, retiredDisabled := t.retiredDisabled })

/-- R145: a managed supervisor's `out` to mxcw, where trapio is clear, completes as the base instruction does (`e` is its effect
without the io write), whatever the value; mxcw and everything else of the extension's state stay. -/
def Obligations.GuestWriteOfMxcwHasNoEffect : Prop :=
  ∀ c s v e vm, s.mode c = .managedSupervisor → s.curVm? = some vm → vmcsOf c s .vmcsIo vm = .ok vm.vmcs →
    vm.vmcs.trapio = false → c.baseAct (view c s .base) = .ioOut ioMxcw true v e →
    baseStep c s = applyEffect c s e ∧
    ∀ t, applyEffect c s e = .next t →
      t.mxcw = s.mxcw ∧ t.g = true ∧ t.hsave = s.hsave ∧ t.vms = s.vms ∧ t.curvm = s.curvm ∧
      t.retiredDestroyed = s.retiredDestroyed ∧ t.retiredDisabled = s.retiredDisabled ∧ t.otherVms = s.otherVms

/-- R20, R21, R126: what the ports read: the current VM's identifier, signalling nothing, and its vmcs, inside the VM and
after an exit; 0 where there is no current VM. -/
def Obligations.PortsNameCurrentVm : Prop :=
  ∀ c s, ioReadValue c s ioMxcw true = s.mxcw ∧
    (∀ vm, s.curVm? = some vm → ioReadValue c s ioContext true = ctxEncode c vm.num none ∧
      ioReadValue c s ioVmcs true = vm.vmcsPa) ∧
    (s.curvm = none → ioReadValue c s ioContext true = 0 ∧ ioReadValue c s ioVmcs true = 0) ∧
    (∀ v e, ioWrite c s ioContext true v e = .refused .portWrite ∧ ioWrite c s ioVmcs true v e = .refused .portWrite)

/-- R125, R126: in program-execution mode, and in a VM whose vmcs has trapio set, `in` and `out` raise PROT and nothing else
happens; a managed supervisor with trapio clear, and an unmanaged supervisor or hypervisor, reach the io address: the base
instruction is made. -/
def Obligations.IoGateRaisesProt : Prop :=
  ∀ c s r, IoMade c s r →
    (s.g = false → s.xm c = true → baseStep c s = raise c s c.protNo .virt) ∧
    (s.g = false → s.xm c = false → baseStep c s = r) ∧
    (∀ vm, s.g = true → s.curVm? = some vm → vmcsOf c s .vmcsIo vm = .ok vm.vmcs →
      (s.xm c = true ∨ vm.vmcs.trapio = true → baseStep c s = raise c s c.protNo .virt) ∧
      (s.xm c = false → vm.vmcs.trapio = false → baseStep c s = r))

/-- R134: inside a VM, at io address 0xfe80 and the CPU initialization registers starting at 0xff00 and 0xff80, what an io read
answers, and what an io write does, is as on a machine with `NCPU = 1` (`ncpuRaw` is one less than `NCPU`); at every other
address of the base ISA it is as outside a VM. How far those registers extend is a parameter, log 24. -/
def Obligations.GuestSeesOneCpu : Prop :=
  ∀ c s a wide, s.g = true → ncpu { c with ncpuRaw := 0 } = 1 ∧
    (a = 0xfe80 ∨ a = 0xff00 ∨ a = 0xff80 → reportsCpus c a = true) ∧
    (reportsCpus c a = true →
      ioReadValue c s a wide = ioReadValue { c with ncpuRaw := 0 } s a wide ∧
      ∀ v e, ioWrite c s a wide v e = ioWrite { c with ncpuRaw := 0 } s a wide v e) ∧
    (reportsCpus c a = false → wide = false ∨ (a ≠ ioMxcw ∧ a ≠ ioContext ∧ a ≠ ioVmcs) →
      ioReadValue c s a wide = c.ioRead s.drawCtr (ncpu c) (view c s .ioPort) a wide ∧
      ∀ v e, ioWrite c s a wide v e = applyEffect c s (c.ioWrite (ncpu c) (view c s .ioPort) a wide v e))

/-! ## Changes to base instructions -/

/-- R127: iret or scret to program-execution mode in Hypervisor mode raises ABORT before any effect; anywhere else, and to
supervisor mode, the return is the base ISA's. -/
def Obligations.ReturnToProgramInHypervisorAborts : Prop :=
  ∀ c s e, c.baseAct (view c s .base) = .iret e ∨ c.baseAct (view c s .base) = .scret e →
    (s.mode c = .hypervisor → xm c (regGet e.regs flagsReg) = true →
      baseStep c s = deliver c s c.abortNo.val .virt) ∧
    (s.mode c ≠ .hypervisor ∨ xm c (regGet e.regs flagsReg) = false → baseStep c s = applyEffect c s e)

/-- R129, R131, R132, R161: the guarded base operations. In a managed supervisor a machine-specific operation that is not
passed through raises UND; inside a VM a feature that the loaded or the hardware's register lacks raises the base ISA's
exception, and so does a use of a register that belongs to it (log 32), whatever the value written (that it comes before the
UND of an illegal value is the model's choice, log 32); a use of an undefined register raises UND (of a write: log 30), and so
does a write of a value the register does not allow. Each executes otherwise, a machine-specific operation of a program too.
That a passthrough depends on the current VM by its number alone is the model's choice, log 42. -/
def Obligations.GuardedBaseOperationsRaise : Prop :=
  ∀ c s,
    (∀ id e, c.baseAct (view c s .base) = .machineSpecific id e →
      (∀ vm, s.mode c = .managedSupervisor → s.curVm? = some vm →
        (c.msPassthrough vm.num id = false → baseStep c s = raise c s c.undNo .virt) ∧
        (c.msPassthrough vm.num id = true → baseStep c s = applyEffect c s e)) ∧
      (s.mode c = .unmanagedSupervisor → s.g = false → baseStep c s = applyEffect c s e) ∧
      (s.mode c = .hypervisor → baseStep c s = applyEffect c s e) ∧
      (s.mode c = .program → baseStep c s = applyEffect c s e)) ∧
    (∀ r b e, c.baseAct (view c s .base) = .needsFeature r b e →
      (s.g = true → (regGet s.regs r).getLsbD b.val = false ∨ hwFeature c r b = false →
        baseStep c s = raise c s c.absentFeature .virt) ∧
      (s.g = false ∨ ((regGet s.regs r).getLsbD b.val = true ∧ hwFeature c r b = true) →
        baseStep c s = applyEffect c s e)) ∧
    (∀ i, (∃ k, c.baseAct (view c s .base) = .readRegister i k) ∨ (∃ v e, c.baseAct (view c s .base) = .writeRegister i v e) →
      (regDefined c i = false → baseStep c s = raise c s c.undNo .virt) ∧
      (∀ r b, s.g = true → regDefined c i = true → i ∉ alwaysAvail → regFeature c i = some (r, b) →
        (regGet s.regs r).getLsbD b.val = false ∨ hwFeature c r b = false →
        baseStep c s = raise c s c.absentFeature .virt)) ∧
    (∀ i v e, c.baseAct (view c s .base) = .writeRegister i v e → regDefined c i = true → regUsable c s i = true →
      (c.writeUnd i v = true → baseStep c s = raise c s c.undNo .virt) ∧
      (c.writeUnd i v = false → baseStep c s = applyEffect c s e))

/-- R130: inside a VM a defined register whose extension is there reads the value held, a read-only one too; outside, a
read-only register reads the hardware's value and any other the value held (R17), so cpuex2 shows VIRT (R1); no base operation
changes a read-only register (R131). -/
def Obligations.RegisterReadsInsideAndOutside : Prop :=
  ∀ c s,
    (∀ i k, s.g = true → c.baseAct (view c s .base) = .readRegister i k → regDefined c i = true →
      regUsable c s i = true → baseStep c s = applyEffect c s (k (regGet s.regs i))) ∧
    (∀ i k, s.g = false → c.baseAct (view c s .base) = .readRegister i k → regDefined c i = true →
      baseStep c s = applyEffect c s (k ((hwReg c i).getD (regGet s.regs i)))) ∧
    (∀ e i t, (hwReg c i).isSome = true → applyEffect c s e = .next t → regGet t.regs i = regGet s.regs i) ∧
    (s.g = false → (s.x c (cpuex2Reg c)).getLsbD 12 = true ∧
      hostVas c = (s.x c (cpuex2Reg c)).extractLsb' c.vasPos.val 3 ∧
      hostPas c = (s.x c (cpuex2Reg c)).extractLsb' c.pasPos.val 3)

/-! ## Exceptions and transfers -/

/-- R150: routing. -/
def Obligations.RaiseRoutesByTrx : Prop :=
  ∀ c s n cause,
    (∀ vm, s.g = true → s.mxcw.getLsbD (n.val + 1) = true → s.curVm? = some vm →
      raise c s n cause = trapToHypervisor c s vm (n.castLE (by decide))) ∧
    (s.g = false ∨ s.mxcw.getLsbD (n.val + 1) = false → raise c s n cause = deliver c s n.val cause)

/-- R151: what a trapped exception leaves. That fetch is sure to see what it was when the hypervisor entered the VM (a trap no
branch for the hypervisor) is the model's choice, log 15, and that no exception is in progress is its reading of R95, log 14. -/
def Obligations.TrapEntersHypervisorAtVector : Prop :=
  ∀ c s vm k, TrapReady c s vm k →
    fetchCheck c (trapTarget c s vm k) .dest (trapTarget c s vm k).ip = .ok →
    trapToHypervisor c s vm k = .next (trapTarget c s vm k)

/-- R152: a bad trap vector raises XA or PF in the hypervisor after the transfer. What fetch sees in the state it is raised in,
and the mark of an exception in it, are the model's, log 15 and 14. -/
def Obligations.BadTrapVectorRaisesInHypervisor : Prop :=
  ∀ c s vm k, TrapReady c s vm k →
    (fetchCheck c (trapTarget c s vm k) .dest (trapTarget c s vm k).ip = .xa →
      trapToHypervisor c s vm k =
        deliverDrawn c (trapTarget c s vm k) c.xaNo.val (.address (trapTarget c s vm k).ip)) ∧
    (fetchCheck c (trapTarget c s vm k) .dest (trapTarget c s vm k).ip = .pf →
      trapToHypervisor c s vm k =
        deliverDrawn c (trapTarget c s vm k) c.pfNo.val (.address (trapTarget c s vm k).ip))

/-- R153, R181: RESET inside a VM is always trapped, whatever TRX says: the VM is marked, mxcw stays. In the state it answers,
what fetch sees and the mark of an exception are the model's, log 15 and 14. -/
def Obligations.ResetInsideVmIsTrapped : Prop :=
  ∀ c s vm, TrapReady c s vm 16 → fetchCheck c (trapTarget c s vm 16) .dest (trapTarget c s vm 16).ip = .ok →
    ∃ t, resetEvent c s = .next t ∧ t = trapTarget c s vm 16 ∧ t.mxcw = s.mxcw ∧ t.g = false ∧
      regGet t.regs r0 = ctxEncode c vm.num (some 16) ∧ regGet t.regs r1 = vm.vmcsPa ∧
      ∃ w, vmFind t.vms vm.num = some w ∧ w.status = .reset ∧ w.pending = some 16

/-- R157: an interrupt the hypervisor receives while a VM runs: the registers are stored, r0, r1 and the recorded `ip` are
draws, the ports go on naming the VM. In the state it is delivered in, what fetch sees (such an interrupt no branch for the
hypervisor) and the mark of an exception are the model's, log 15 and 14. -/
def Obligations.HypervisorInterruptLeavesVm : Prop :=
  ∀ c s vm j, s.g = true → s.curVm? = some vm → Leavable c { s with drawCtr := s.drawCtr + 2 } vm s.ip →
    c.hvInterrupt j = true →
    takeEvent c s (.interrupt j) =
      deliverTo c
        { leftTarget c s vm s.ip none vm.status false (c.drawWord s.drawCtr) (c.drawWord (s.drawCtr + 1)) with
          drawCtr := s.drawCtr + 3 }
        j (c.drawWord (s.drawCtr + 2)) .interrupt .entry

/-- R162: every other interrupt inside a VM, and every interrupt outside, is the executing context's. -/
def Obligations.OtherInterruptsStayInContext : Prop :=
  ∀ c s j,
    (s.g = false → takeEvent c s (.interrupt j) = deliver c s j .interrupt) ∧
    (∀ vm, s.g = true → s.curVm? = some vm → c.hvInterrupt j = false →
      (∀ hj : j < 16, takeEvent c s (.interrupt j) = raise c s ⟨j, hj⟩ .interrupt) ∧
      (16 ≤ j → takeEvent c s (.interrupt j) = deliver c s j .interrupt))

/-- A delivery changes nothing of the extension's state: R22 to R25 name what sets each piece of it, and the base delivery of R149,
of which the spec assumes nothing, has an Effect that cannot (the model's choice, log 3). That it enters a handler in supervisor
mode, with XM clear, is the model's reading, log 11. Where XM is still set no handler was entered: either the delivery stores
where the context has no memory and does nothing but leave a PF to be taken (the model's reading and choice, log 12), or it ended
in a further exception or a reset, which is the next arrival (log 13). -/
def Obligations.DeliveryKeepsExtensionState : Prop :=
  ∀ c s n ret cause o t, deliverTo c s n ret cause o = .next t →
    t.mxcw = s.mxcw ∧ t.g = s.g ∧ t.hsave = s.hsave ∧ t.curvm = s.curvm ∧ t.vms = s.vms ∧
    t.retiredDestroyed = s.retiredDestroyed ∧ t.retiredDisabled = s.retiredDisabled ∧ t.otherVms = s.otherVms ∧
    (t.xm c = true →
      (t.regs = s.regs ∧ t.mem = s.mem ∧ t.events = .exception c.pfNo .virt o :: s.events) ∨
      ∃ f, (c.deliver (view c s .deliver) n ret cause).further = some f ∧
        t.events = furtherEvents o (some f) ++ s.events)

/-! ## Identifiers -/

/-- R32: the low half of an identifier is the VM's number, decoding gives back what was encoded, and a value whose low half is 0
is no identifier. -/
def Obligations.IdentifierLaws : Prop :=
  ∀ c n p, (ctxEncode c n p).extractLsb' 0 32 = n ∧ (n ≠ 0 → ctxDecode c (ctxEncode c n p) = some (n, p)) ∧
    ∀ id : Word, id.extractLsb' 0 32 = 0 → ctxDecode c id = none

/-! ## Memory -/

/-- R40: a 64-bit value is stored little-endian and read back; every other byte stays, and the canonical form too. -/
def Obligations.WordStoreIsLittleEndian : Prop :=
  ∀ m pa v, memWf m = true →
    memWf (memWriteAll m (wordWrites pa v)) = true ∧ memWord (memWriteAll m (wordWrites pa v)) pa = v ∧
    (∀ k, k < 8 → memRead (memWriteAll m (wordWrites pa v)) (wordAddr pa k).toNat = v.extractLsb' (8 * k) 8) ∧
    ∀ a, (∀ k, k < 8 → a ≠ (wordAddr pa k).toNat) → memRead (memWriteAll m (wordWrites pa v)) a = memRead m a

/-- R45: StoreRegs writes every available register to its slot and no other byte. -/
def Obligations.StoreRegsWritesAvailableSlots : Prop :=
  ∀ c s v, memWf s.mem = true →
    (∀ i, regAvail c s.regs i = true → memWord (storeRegs c s v) (slotAddr v i) = regGet s.regs i) ∧
    (∀ a, ¬ StoredAt c s v a → memRead (storeRegs c s v) a = memRead s.mem a)

/-- R57, R43, R47 (D8, D9, D25, U9): no transfer is made whose structures cannot be used. hcall, a trap, a RESET and a
hypervisor's interrupt are refused where the VM cannot be left (`CannotLeave`), a trap and a RESET also where its vmcs or its
`vmtrxtab` cannot be used after the register store; hret, hresume and vmcreate where the VM cannot be entered (`CannotEnter`),
vmcreate also where the vmcs it names cannot be read; no step is made in a state with overlapping regions. Each has the name of
its reason. Of a vmcs, that 32 bytes are checked is the model's choice, log 39, and that an array is checked whole its reading,
log 17. -/
def Obligations.UnusableStructuresRefuseTransfer : Prop :=
  ∀ c s,
    (∀ vm r, CannotLeave c s vm (s.ip + 2) r → s.mode c = .managedSupervisor → s.curVm? = some vm →
      execWith c (.hcall 0) s = .refused r) ∧
    (∀ vm r, CannotEnter c s vm r → ∀ p, s.mode c = .hypervisor → ctxClass c s (regGet s.regs r0) = .live vm p →
      p = none ∨ vm.pending = p →
      execWith c (.hret 0) s = .refused r ∧ execWith c (.hresume 0) s = .refused r) ∧
    (∀ src pa, s.mode c = .hypervisor → s.vmcount < vmLimitCpu c → s.vmcountAll < vmLimitAll c →
      readOperand c s src = .value pa →
      (∀ r, readVmcs c s .vmcsCreate pa = .error r → execWith c (.vmcreate 0 src) s = .refused r) ∧
      (∀ v r, readVmcs c s .vmcsCreate pa = .ok v → vmcsLegal c v = .ok () →
        CannotEnter c (withNewVm c s pa v) (newVm (freshVmNum c s) pa v) r →
        execWith c (.vmcreate 0 src) s = .refused r)) ∧
    (∀ vm k r, s.g = true → s.curVm? = some vm →
      CannotLeave c s vm (returnIp c s k.val) r ∨
        (Leavable c s vm (returnIp c s k.val) ∧
          (vmcsOf c (trapLeft c s vm k) .vmcsTrap vm = .error r ∨
            (vmcsOf c (trapLeft c s vm k) .vmcsTrap vm = .ok vm.vmcs ∧
              structureAt c vm.vmcs.vmtrxtab vmtrxtabBytes = .error r))) →
      trapToHypervisor c s vm k = .refused r ∧ (k = 16 → resetEvent c s = .refused r)) ∧
    (∀ vm j r, s.g = true → s.curVm? = some vm → c.hvInterrupt j = true →
      CannotLeave c { s with drawCtr := s.drawCtr + 2 } vm s.ip r → takeEvent c s (.interrupt j) = .refused r) ∧
    (regionsClash s = true → stepWith c s = .refused .vmregsOverlap)

/-- R46, R43: a byte of a live register region is written by nobody, and the 32 meaningful bytes of an existing VM's vmcs by
nobody either: another agent's write that would is refused, and so are a base effect and a register store; any other agent's
write changes that byte alone, which instruction fetch is not sure to see at once (R55, log 15); where no memory is implemented
it changes nothing (the model's choice, log 40). That a write to a vmtrxtab array or a vmmmap table of an existing VM, which R196
assumes away, is made as any other is the model's choice, log 43. -/
def Obligations.LiveRegionIsNotWritten : Prop :=
  ∀ c s,
    (∀ pa b, isLive s pa = true → takeEvent c s (.agentWrite pa b) = .refused .liveRegionWrite) ∧
    (∀ pa b, isLive s pa = false → implemented c pa = false → takeEvent c s (.agentWrite pa b) = .next s) ∧
    (∀ pa b, isLive s pa = false → implemented c pa = true →
      (keepsVmcs s (memWrite s.mem pa.toNat b) = true →
        takeEvent c s (.agentWrite pa b) =
          .next { s with mem := memWrite s.mem pa.toNat b, fetch := s.fetch.record (changedBy s.mem [(pa.toNat, b)]) }) ∧
      (keepsVmcs s (memWrite s.mem pa.toNat b) = false → takeEvent c s (.agentWrite pa b) = .refused .vmcsChanged)) ∧
    (∀ e o t, applyEffect c s e o = .next t → memWf s.mem = true → ∀ pa, isLive s pa = true →
      memRead t.mem pa.toNat = memRead s.mem pa.toNat) ∧
    (∀ t, (∃ e o, applyEffect c s e o = .next t) ∨
        (∃ vm p status hcall v0 v1, leaveVm c s vm p status hcall v0 v1 = .ok t) ∨
        (∃ pa b, takeEvent c s (.agentWrite pa b) = .next t) →
      ∀ pa ∈ vmcsAddrs s, ∀ k, k < 32 → memRead t.mem (wordAddr pa k).toNat = memRead s.mem (wordAddr pa k).toNat)

/-- R48, R90 (e), R158, R44, R30: a transfer into a VM (the vmcreate, hret and hresume forms that enter) writes no memory, saves
every register of the hypervisor, and loads the registers that are available in the state entered (D40) from their slots and no
other; the slot of an unavailable register is not read. That availability depends on registers of lower tiers is the model's
reading, log 6. -/
def Obligations.EnteringWritesNoMemory : Prop :=
  ∀ c s vm reentry delivers t, enterVm c s vm reentry delivers = .ok t →
    t.mem = s.mem ∧ t.mxcw = s.mxcw ∧ t.vms = s.vms ∧ t.g = true ∧ t.curvm = some vm.num ∧
    (∀ i, regGet t.hsave i = s.x c i) ∧
    (∀ i, regGet t.regs i = if regAvail c t.regs i then regGet (slotImage c s vm.vmcs) i else s.x c i) ∧
    ∀ image, (∀ i, regAvail c t.regs i = true → regGet image i = regGet (slotImage c s vm.vmcs) i) →
      loadFrom c s image = t.regs

/-! ## Whole-machine rules -/

/-- R23, R145, R155: nothing that happens inside a VM changes mxcw, the hypervisor's saved registers, the current VM, the set
of VMs or the retired numbers; while the VM goes on running no entry of the table changes. -/
def Obligations.GuestStepKeepsHypervisorState : Prop :=
  ∀ c s t, s.g = true → stepWith c s = .next t →
    t.mxcw = s.mxcw ∧ t.hsave = s.hsave ∧ t.curvm = s.curvm ∧ t.retiredDestroyed = s.retiredDestroyed ∧
    t.retiredDisabled = s.retiredDisabled ∧ t.vms.map Vm.num = s.vms.map Vm.num ∧ (t.g = true → t.vms = s.vms)

/-- R155: the complete list of transfers from a VM to the hypervisor. -/
def Obligations.OnlyListedExitsLeaveVm : Prop :=
  ∀ c s t, s.g = true → stepWith c s = .next t → t.g = false →
    ∃ vm w, s.curVm? = some vm ∧ w.num = vm.num ∧ t.vms = vmUpdate s.vms w ∧
      ((w.pending = none ∧ w.viaHcall = true ∧ s.mode c = .managedSupervisor ∧ s.events = [] ∧
          ∃ rest, decode c (fetchWindow c s.tick) = .ok (.hcall 0, rest)) ∨
       (∃ n : Fin 16, w.pending = some (n.castLE (by decide)) ∧ s.mxcw.getLsbD (n.val + 1) = true) ∨
       (w.pending = some 16 ∧ w.status = .reset) ∨
       (w.pending = none ∧ ∃ j es, s.events = .interrupt j :: es ∧ c.hvInterrupt j = true))

/-- R93: a VM that received RESET is never entered again: a step keeps it marked or disposes of it, and no step that enters a
VM enters it. -/
def Obligations.ResetVmIsNeverReentered : Prop :=
  ∀ c s t vm, Inv c s → stepWith c s = .next t → vm ∈ s.vms → vm.status = .reset →
    (vmFind t.vms vm.num = some vm ∨ vmFind t.vms vm.num = none) ∧ (t.g = true → t.curvm ≠ some vm.num)

/-- R23: a virtual machine cannot observe the hypervisor's saved registers: while it runs, changing them changes nothing
else. -/
def Obligations.GuestCannotObserveSavedRegisters : Prop :=
  ∀ c s x t, s.g = true → stepWith c s = .next t → t.g = true →
    SameUpToHsave x (stepWith c s) (stepWith c { s with hsave := x })

/-- A hypervisor call that the hypervisor answers with hret is transparent (vector P2): the VM can be entered again, and every
register that is available on both sides is what it was, `ip` being that after the hcall. -/
def Obligations.HypervisorCallIsTransparent : Prop :=
  ∀ c s vm, Inv c s → HcallReady c s vm →
    vmcsOf c (hcallTarget c s vm) .vmcsEnter vm = .ok vm.vmcs →
    ∃ w, ReturnReady c (hcallTarget c s vm) w none ∧ w.num = vm.num ∧ w.vmcs = vm.vmcs ∧
      ∀ i seen, regAvail c (s.setIp (s.ip + 2)).regs i = true →
        regAvail c (enterTarget c (hcallTarget c s vm) w 2 seen).regs i = true →
        regGet (enterTarget c (hcallTarget c s vm) w 2 seen).regs i =
          if i = ipReg then s.ip + 2 else regGet s.regs i
end

