-- ==== Sys2Proof/Laws/Registers.lean ====
section
/-! SUPPORT. The register file: reading what was written, the named registers, the read-only overlay. -/

namespace Sys2Proof.Laws

open Sys2Proof.Machine

@[simp] theorem regGet_regSet_same (r : Regs) (i : RegNo) (v : Word) : regGet (regSet r i v) i = v := by
  simp [regGet, regSet]

theorem regGet_regSet_ne (r : Regs) {i j : RegNo} (v : Word) (h : i ≠ j) : regGet (regSet r i v) j = regGet r j := by
  simp only [regGet, regSet]
  exact Vector.getElem_set_ne _ _ (by simpa [Fin.ext_iff] using h)

@[simp] theorem regGet_regsOf (f : RegNo → Word) (i : RegNo) : regGet (regsOf f) i = f i := by
  simp [regGet, regsOf]

@[simp] theorem regGet_zeroRegs (i : RegNo) : regGet zeroRegs i = 0 := by
  simp [regGet, zeroRegs]

/-- Register files are equal when every slot is. -/
theorem regs_ext {r q : Regs} (h : ∀ i, regGet r i = regGet q i) : r = q := by
  apply Vector.ext
  intro i hi
  exact h ⟨i, hi⟩

theorem regsOf_regGet (r : Regs) : regsOf (regGet r) = r := regs_ext (by simp)

@[simp] theorem setIp_ip (s : State) (v : Word) : (s.setIp v).ip = v := by simp [State.setIp, State.setReg, State.ip]

@[simp] theorem setIp_flags (s : State) (v : Word) : (s.setIp v).flags = s.flags := by
  simp only [State.setIp, State.setReg, State.flags]
  exact regGet_regSet_ne _ _ (by decide)

@[simp] theorem advance_ip (s : State) (n : Nat) : (s.advance n).ip = s.ip + BitVec.ofNat 64 n := by
  simp [State.advance]

@[simp] theorem advance_flags (s : State) (n : Nat) : (s.advance n).flags = s.flags := by
  simp [State.advance]

@[simp] theorem setIp_xm (c : Config) (s : State) (v : Word) : (s.setIp v).xm c = s.xm c := by simp [State.xm]

@[simp] theorem advance_xm (c : Config) (s : State) (n : Nat) : (s.advance n).xm c = s.xm c := by simp [State.xm]

@[simp] theorem tick_xm (c : Config) (s : State) : s.tick.xm c = s.xm c := rfl

@[simp] theorem tick_mode (c : Config) (s : State) : s.tick.mode c = s.mode c := rfl

/-- The registers of R11 are not read-only. -/
theorem hwReg_fixed (c : Config) {i : RegNo} (h : i ∈ fixedRegs) : hwReg c i = none := by simp [hwReg, h]

@[simp] theorem hwReg_scdp (c : Config) : hwReg c (scdpReg c) = none := by
  unfold hwReg; split <;> simp

@[simp] theorem hwReg_scsp (c : Config) : hwReg c (scspReg c) = none := by
  unfold hwReg; split <;> simp

/-- Outside the read-only registers `x[i]` is the slot. -/
theorem x_of_hwReg_none (c : Config) (s : State) {i : RegNo} (h : hwReg c i = none) : s.x c i = regGet s.regs i := by
  simp [State.x, h]

@[simp] theorem x_r0 (c : Config) (s : State) : s.x c r0 = regGet s.regs r0 :=
  x_of_hwReg_none c s (hwReg_fixed c (by decide))

@[simp] theorem x_flags (c : Config) (s : State) : s.x c flagsReg = s.flags :=
  x_of_hwReg_none c s (hwReg_fixed c (by decide))

/-- Inside a VM `x[i]` is the value held (R130). -/
theorem x_guest (c : Config) (s : State) (h : s.g = true) (i : RegNo) : s.x c i = regGet s.regs i := by
  simp [State.x, h]

@[simp] theorem xs_get (c : Config) (s : State) (i : RegNo) : regGet (s.xs c) i = s.x c i := by simp [State.xs]

/-- A register number that avoids a list is picked outside it, where the list leaves one free. -/
theorem pickReg_not_mem (used : List RegNo) (want : RegNo) (h : used.length < 256) : pickReg used want ∉ used := by
  unfold pickReg
  split
  · rename_i hw
    cases hf : (List.finRange 256).find? fun i => decide (i ∉ used) with
    | some i =>
      have := List.find?_some hf
      simpa using this
    | none =>
      exfalso
      have hall : ∀ i : RegNo, i ∈ used := by
        intro i
        have := List.find?_eq_none.mp hf i (List.mem_finRange i)
        simpa using this
      have hsub : (List.finRange 256).toFinset ⊆ used.toFinset := fun i _ => by simpa using hall i
      have hcard := Finset.card_le_card hsub
      have h2 := List.toFinset_card_le used
      have h1 : (List.finRange 256).toFinset.card = 256 := by
        rw [List.toFinset_card_of_nodup (List.nodup_finRange 256), List.length_finRange]
      omega
  · assumption

/-- `N_scdp` is none of the numbers of R11 (N5). -/
theorem scdpReg_not_fixed (c : Config) : scdpReg c ∉ fixedRegs := pickReg_not_mem _ _ (by decide)

/-- `N_scsp` is none of the numbers of R11, nor `N_scdp` (N5). -/
theorem scspReg_not_used (c : Config) : scspReg c ∉ scdpReg c :: fixedRegs :=
  pickReg_not_mem _ _ (by simp [fixedRegs])

/-- `XM(flags)` is the bit at its position. -/
theorem xm_eq (c : Config) (f : Word) : xm c f = f.getLsbD c.xmBit.val := by
  unfold xm
  by_cases h : f = 0
  · simp [h]
  · rw [beq_false_of_ne h, Bool.not_false, Bool.true_and]

/-- Clearing XM clears it, wherever it is. -/
@[simp] theorem xm_clearXm (c : Config) (f : Word) : xm c (clearXm c f) = false := by
  rw [xm_eq]
  simp [clearXm]

/-- A register number differs from every number of a list it is not in. -/
theorem ne_of_not_mem {i j : RegNo} {l : List RegNo} (h : i ∉ l) (hj : j ∈ l) : j ≠ i := fun he => h (he ▸ hj)

end Sys2Proof.Laws
end

