-- ==== Sys2Proof/Laws/Available.lean ====
section
/-! SUPPORT. Availability of registers (R44, R30, D40): it is decided tier by tier, so the state `LoadRegs` enters is the one
state whose own availability says which slots were loaded. -/

namespace Sys2Proof.Laws

open Sys2Proof.Machine

variable {c : Config} {s t : State} {i : RegNo}

theorem availTier_lt (c : Config) (i : RegNo) : availTier c i < 256 := by
  unfold availTier
  split
  · omega
  · split <;> omega

theorem regAvail_always (x : Regs) (h : i ∈ alwaysAvail) : regAvail c x i = true := by simp [regAvail, h]

@[simp] theorem regAvail_ip (c : Config) (x : Regs) : regAvail c x ipReg = true := regAvail_always x (by decide)

/-- Whether a register's extension is there depends on the feature registers alone (R161). -/
theorem regFeaturePresent_congr {x y : Regs} (ha : i ∉ alwaysAvail)
    (h : ∀ j, availTier c j < availTier c i → regGet x j = regGet y j) : regFeaturePresent c x i = regFeaturePresent c y i := by
  unfold regFeaturePresent
  cases hf : regFeature c i with
  | none => rfl
  | some p =>
    obtain ⟨r, b⟩ := p
    cases hr : hwReg c r with
    | none => simp [featureAvailable, hwFeature, hr]
    | some w =>
      have hi : hwReg c i = none := by
        unfold regFeature at hf
        cases hi : hwReg c i
        · rfl
        · simp [hi] at hf
      have : availTier c r < availTier c i := by
        unfold availTier
        rw [if_neg ha, hi, hr]
        split <;> simp
      simp only [featureAvailable, h r this]

/-- The availability of a register depends on registers of lower tiers alone. -/
theorem regAvail_congr {x y : Regs} (h : ∀ j, availTier c j < availTier c i → regGet x j = regGet y j) :
    regAvail c x i = regAvail c y i := by
  by_cases ha : i ∈ alwaysAvail
  · rw [regAvail_always x ha, regAvail_always y ha]
  have hl : lowerTiers c x i = lowerTiers c y i := by
    apply regs_ext
    intro j
    simp only [lowerTiers, regGet_regsOf]
    split
    · exact h j ‹_›
    · rfl
  unfold regAvail
  rw [hl, regFeaturePresent_congr ha h]

/-- A tier that is loaded stays as it is. -/
theorem loadTiers_stable (c : Config) (s : State) (image : Regs) (n : Nat) (h : availTier c i < n) :
    regGet (loadTiers c s image n) i = regGet (loadTiers c s image (n + 1)) i := by
  induction n generalizing i with
  | zero => omega
  | succ n ih =>
    have : regAvail c (loadTiers c s image n) i = regAvail c (loadTiers c s image (n + 1)) i :=
      regAvail_congr fun j hj => ih (by omega)
    change regGet (loadRound c s image (loadTiers c s image n)) i =
      regGet (loadRound c s image (loadTiers c s image (n + 1))) i
    rw [loadRound, loadRound, regGet_regsOf, regGet_regsOf, this]

/-- In the state entered exactly the registers available in it are loaded (R44, D40). -/
theorem loadFrom_entered (c : Config) (s : State) (image : Regs) (i : RegNo) :
    regGet (loadFrom c s image) i = if regAvail c (loadFrom c s image) i then regGet image i else s.x c i := by
  have : regAvail c (loadTiers c s image 255) i = regAvail c (loadTiers c s image 256) i :=
    regAvail_congr fun j hj => loadTiers_stable c s image 255 (by have := availTier_lt c i; omega)
  unfold loadFrom
  conv_lhs => unfold loadTiers
  rw [loadRound, regGet_regsOf, this]

/-- That state is the only one of which this is true. -/
theorem loadFrom_unique {image y : Regs} (h : ∀ i, regGet y i = if regAvail c y i then regGet image i else s.x c i) :
    loadFrom c s image = y := by
  have key : ∀ n i, availTier c i < n → regGet (loadFrom c s image) i = regGet y i := by
    intro n
    induction n with
    | zero => intro i hi; omega
    | succ n ih =>
      intro i hi
      rw [loadFrom_entered, h i, regAvail_congr fun j hj => ih j (by omega)]
  exact regs_ext fun i => key 256 i (availTier_lt c i)

/-- The slot of an unavailable register is not read (R30). -/
theorem loadFrom_unread {image image' : Regs}
    (h : ∀ i, regAvail c (loadFrom c s image) i = true → regGet image' i = regGet image i) :
    loadFrom c s image' = loadFrom c s image := by
  apply loadFrom_unique
  intro i
  rw [loadFrom_entered]
  split
  · rw [h i ‹_›]
  · rfl

/-- `ip` is loaded, so what it held does not matter. -/
theorem loadFrom_congr {image : Regs} (h : ∀ i, i ≠ ipReg → t.x c i = s.x c i) : loadFrom c t image = loadFrom c s image := by
  apply loadFrom_unique
  intro i
  rw [loadFrom_entered]
  split
  · rfl
  · rename_i hi
    exact (h i (by rintro rfl; simp at hi)).symm

@[simp] theorem loadFrom_ip (c : Config) (s : State) (image : Regs) : regGet (loadFrom c s image) ipReg = regGet image ipReg := by
  rw [loadFrom_entered]; simp

end Sys2Proof.Laws
end

