-- ==== Sys2Proof/Laws/Decode.lean ====
section
/-! SUPPORT. The instruction word: its fields, and the bytes it is made of. -/

namespace Sys2Proof.Laws

@[simp] theorem opcodeOf_append (op : BitVec 12) (h : BitVec 4) : opcodeOf (op ++ h) = op := by
  apply BitVec.eq_of_getLsbD_eq
  intro i hi
  simp only [opcodeOf, BitVec.getLsbD_append, BitVec.getLsbD_extractLsb']
  split_ifs <;> first
    | omega
    | (rw [decide_eq_true (by omega), Bool.true_and]; congr 1; omega)

@[simp] theorem hOf_append (op : BitVec 12) (h : BitVec 4) : hOf (op ++ h) = h := by
  apply BitVec.eq_of_getLsbD_eq
  intro i hi
  simp only [hOf, BitVec.getLsbD_append, BitVec.getLsbD_extractLsb']
  split_ifs <;> first
    | omega
    | (rw [decide_eq_true (by omega), Bool.true_and]; congr 1; omega)

/-- The two bytes of a word make the word (R60). -/
@[simp] theorem instrWord_bytes (w : BitVec 16) : instrWord (w.extractLsb' 8 8) (w.extractLsb' 0 8) = w := by
  unfold instrWord
  apply BitVec.eq_of_getLsbD_eq
  intro i hi
  simp only [BitVec.getLsbD_append, BitVec.getLsbD_extractLsb']
  split_ifs <;> (rw [decide_eq_true (by omega), Bool.true_and]; congr 1; omega)

/-- A word is its opcode and its `h` (R60). -/
theorem instrWord_fields (w : BitVec 16) : opcodeOf w ++ hOf w = w := by
  unfold opcodeOf hOf
  apply BitVec.eq_of_getLsbD_eq
  intro i hi
  simp only [BitVec.getLsbD_append, BitVec.getLsbD_extractLsb']
  split_ifs <;> (rw [decide_eq_true (by omega), Bool.true_and]; congr 1; omega)

/-- The bytes of a word made of two bytes are those bytes (R60). -/
theorem wordBytes_instrWord (b0 b1 : Byte) : wordBytes (instrWord b0 b1) = [b0, b1] := by
  unfold wordBytes instrWord
  congr 1
  · apply BitVec.eq_of_getLsbD_eq
    intro i hi
    simp only [BitVec.getLsbD_append, BitVec.getLsbD_extractLsb']
    rw [decide_eq_true (by omega), Bool.true_and, if_neg (by omega)]
    congr 1; omega
  · congr 1
    apply BitVec.eq_of_getLsbD_eq
    intro i hi
    simp only [BitVec.getLsbD_append, BitVec.getLsbD_extractLsb']
    rw [decide_eq_true (by omega), Bool.true_and, if_pos (by omega)]
    congr 1; omega

/-- Decoding the bytes of a word is deciding on its fields. -/
theorem decode_encodeWord (c : Config) (op : BitVec 12) (h : BitVec 4) (rest : List Byte) :
    decode c (encodeWord op h ++ rest) = decodeWord c op h rest := by
  have : encodeWord op h ++ rest = (op ++ h).extractLsb' 8 8 :: (op ++ h).extractLsb' 0 8 :: rest := rfl
  rw [this]
  simp only [decode, instrWord_bytes, opcodeOf_append, hOf_append]

/-- An operand's length does not depend on what follows it. -/
theorem operandLength_append (c : Config) {src : List Byte} (rest : List Byte) (h : operandWf c src = true) :
    operandLength c (src ++ rest) = src.length := by
  unfold operandWf at h
  have h := beq_iff_eq.mp h
  match src, h with
  | [], h => simp [operandLength] at h
  | [_], h => simp [operandLength] at h
  | x :: y :: l, h => simpa [operandLength] using h.symm

end Sys2Proof.Laws
end

