-- ==== Sys2Proof/Laws/Fetch.lean ====
section
/-! SUPPORT. What fetch is sure to see (R55): the changes of memory are only added to, and nobody has seen more than there are. -/

namespace Sys2Proof.Laws

open Sys2Proof.Machine

/-- Changes are added, and what a context has seen stays within them. -/
structure FetchStep (f g : FetchView) : Prop where
  grows : f.changes.length ≤ g.changes.length
  wf : f.wf = true → g.wf = true

theorem fetchView_wf {f : FetchView} : f.wf = true ↔ f.seen ≤ f.changes.length ∧ f.hvSeen ≤ f.changes.length := by
  simp [FetchView.wf]

theorem FetchStep.refl (f : FetchView) : FetchStep f f := ⟨Nat.le_refl _, id⟩

theorem FetchStep.trans {f g h : FetchView} (a : FetchStep f g) (b : FetchStep g h) : FetchStep f h :=
  ⟨a.grows.trans b.grows, b.wf ∘ a.wf⟩

@[simp] theorem record_length (f : FetchView) (l : List Nat) : (f.record l).changes.length = l.length + f.changes.length := by
  simp [FetchView.record]

theorem fetchStep_record (f : FetchView) (l : List Nat) : FetchStep f (f.record l) := by
  refine ⟨by simp, fun h => ?_⟩
  rw [fetchView_wf] at h ⊢
  rw [record_length]
  simp only [FetchView.record]
  omega

theorem fetchStep_branch (f : FetchView) : FetchStep f f.branch := by
  refine ⟨Nat.le_refl _, fun h => ?_⟩
  rw [fetchView_wf] at h ⊢
  exact ⟨Nat.le_refl _, h.2⟩

/-- A transfer to the hypervisor (R55, log 15). -/
theorem fetchStep_exit (f : FetchView) (hcall : Bool) (l : List Nat) : FetchStep f (exitFetch f hcall l) := by
  cases hcall
  · refine ⟨(fetchStep_record f l).grows, fun h => ?_⟩
    have := fetchView_wf.mp ((fetchStep_record f l).wf h)
    exact fetchView_wf.mpr ⟨this.2, this.2⟩
  · exact (fetchStep_record f l).trans (fetchStep_branch _)

/-- A transfer to a VM that has seen no more than there was. -/
theorem fetchStep_enter {f : FetchView} {n : Nat} (h : n ≤ f.changes.length) : FetchStep f (f.enter n) :=
  ⟨Nat.le_refl _, fun hf => fetchView_wf.mpr ⟨h, (fetchView_wf.mp hf).1⟩⟩

/-- Just after a branch no byte is stale (R55). -/
theorem stale_branch (f : FetchView) (a : Nat) : f.branch.stale a = false := by
  simp [FetchView.stale, FetchView.branch]

/-- A byte changed since the context's last branch is stale, whatever it was changed to (R55). -/
theorem stale_record {f : FetchView} {l : List Nat} {a : Nat} (hf : f.seen ≤ f.changes.length) :
    (f.record l).stale a = (decide (a ∈ l) || f.stale a) := by
  unfold FetchView.stale FetchView.record
  simp only [List.length_append]
  rw [show l.length + f.changes.length - f.seen = l.length + (f.changes.length - f.seen) by omega, List.take_append,
    List.take_of_length_le (Nat.le_add_right _ _)]
  simp

end Sys2Proof.Laws
end

