-- ==== Sys2Proof/Laws/Identifier.lean ====
section
/-! SUPPORT. The vm context identifier and the numbers of new VMs. -/

namespace Sys2Proof.Laws

open Sys2Proof.Machine

/-- The default coding of a pending signal is read back (D11). -/
theorem pendingOfCode_pendingCode (p : Pending) : pendingOfCode (pendingCode p) = some p := by
  cases p with
  | none => rfl
  | some k => revert k; decide

@[simp] theorem ctxNum_append (h : BitVec 32) (n : VmNum) : ctxNum (h ++ n) = n := by
  apply BitVec.eq_of_getLsbD_eq
  intro i hi
  simp only [ctxNum, BitVec.getLsbD_append, BitVec.getLsbD_extractLsb']
  split_ifs <;> first
    | omega
    | (rw [decide_eq_true (by omega), Bool.true_and]; congr 1; omega)

@[simp] theorem ctxHigh_append (h : BitVec 32) (n : VmNum) : ctxHigh (h ++ n) = h := by
  apply BitVec.eq_of_getLsbD_eq
  intro i hi
  simp only [ctxHigh, BitVec.getLsbD_append, BitVec.getLsbD_extractLsb']
  split_ifs <;> first
    | omega
    | (rw [decide_eq_true (by omega), Bool.true_and]; congr 1; omega)

/-- A decoded number is the low half of the identifier, and not 0 (R32, D12). -/
theorem ctxDecode_num {c : Config} {id : Word} {n : VmNum} {p : Pending} (h : ctxDecode c id = some (n, p)) :
    n = ctxNum id ∧ n ≠ 0 := by
  unfold ctxDecode at h
  split at h
  · simp at h
  · split at h
    · cases h; simp_all
    · cases hf : c.ctxForeign id <;> simp_all

/-- The number of a new VM is free, while there is room (R107). -/
theorem freshVmNum_free (c : Config) {s : State}
    (hs : smallestFree s.vms ≠ 0 ∧ vmFind s.vms (smallestFree s.vms) = none) :
    freshVmNum c s ≠ 0 ∧ vmFind s.vms (freshVmNum c s) = none := by
  unfold freshVmNum
  split
  · simp_all
  · exact hs

end Sys2Proof.Laws
end

