-- ==== Sys2Proof/Laws/Memory.lean ====
section
/-! SUPPORT. Memory: a write is read back, leaves every other address alone, and keeps the canonical form; equal memories are
equal lists. -/

namespace Sys2Proof.Laws

open Sys2Proof.Machine

@[simp] theorem memRead_nil (a : Nat) : memRead [] a = unlistedByte := rfl

theorem memRead_memCons (a b : Nat) (v : Byte) (m : Memory) (h : memRead m a = unlistedByte) :
    memRead (memCons a v m) b = if b = a then v else memRead m b := by
  unfold memCons
  by_cases hv : v = unlistedByte <;> by_cases hb : b = a <;> simp_all [memRead, eq_comm]

/-- Every listed address is above `a`. -/
def above (a : Nat) (m : Memory) : Prop := ∀ p ∈ m, a < p.1

theorem memRead_above {a : Nat} {m : Memory} (h : above a m) : memRead m a = unlistedByte := by
  induction m with
  | nil => rfl
  | cons p m ih =>
    obtain ⟨b, w⟩ := p
    have hb : a < b := h (b, w) (by simp)
    have : b ≠ a := by omega
    simp only [memRead, this, if_false]
    exact ih fun q hq => h q (by simp [hq])

/-- The canonical form, one entry at a time. -/
theorem memWf_cons {a : Nat} {v : Byte} {m : Memory} :
    memWf ((a, v) :: m) = true ↔ v ≠ unlistedByte ∧ above a m ∧ memWf m = true := by
  induction m generalizing a v with
  | nil => simp [memWf, above]
  | cons p m ih =>
    obtain ⟨b, w⟩ := p
    constructor
    · intro h
      simp only [memWf, Bool.and_eq_true, decide_eq_true_eq, bne_iff_ne] at h
      obtain ⟨⟨hab, hv⟩, hm⟩ := h
      refine ⟨hv, ?_, hm⟩
      intro q hq
      rcases List.mem_cons.mp hq with rfl | hq
      · exact hab
      · exact lt_trans hab ((ih.mp hm).2.1 q hq)
    · rintro ⟨hv, hab, hm⟩
      simp only [memWf, Bool.and_eq_true, decide_eq_true_eq, bne_iff_ne]
      exact ⟨⟨hab (b, w) (by simp), hv⟩, hm⟩

theorem memWf_memCons {a : Nat} {v : Byte} {m : Memory} (ha : above a m) (hm : memWf m = true) :
    memWf (memCons a v m) = true := by
  unfold memCons
  split
  · exact hm
  · exact memWf_cons.mpr ⟨by assumption, ha, hm⟩

theorem mem_memCons {a : Nat} {v : Byte} {m : Memory} {p : Host.Cell} (h : p ∈ memCons a v m) : p = (a, v) ∨ p ∈ m := by
  unfold memCons at h
  split at h <;> simp_all

theorem mem_memWrite {m : Memory} {a : Nat} {v : Byte} {p : Host.Cell} (h : p ∈ memWrite m a v) :
    p.1 = a ∨ p ∈ m := by
  induction m with
  | nil => rcases mem_memCons h with rfl | h <;> simp_all
  | cons q m ih =>
    obtain ⟨b, w⟩ := q
    simp only [memWrite] at h
    split at h
    · rcases mem_memCons h with rfl | h
      · exact .inl rfl
      · exact .inr h
    · split at h
      · rcases mem_memCons h with rfl | h
        · exact .inl rfl
        · exact .inr (List.mem_cons_of_mem _ h)
      · rcases List.mem_cons.mp h with rfl | h
        · exact .inr (by simp)
        · exact (ih h).imp id fun h => List.mem_cons_of_mem _ h

/-- A write keeps the canonical form. -/
theorem memWrite_wf {m : Memory} (a : Nat) (v : Byte) (h : memWf m = true) : memWf (memWrite m a v) = true := by
  induction m with
  | nil => exact memWf_memCons (by intro p hp; simp at hp) h
  | cons q m ih =>
    obtain ⟨b, w⟩ := q
    obtain ⟨hw, hb, hm⟩ := memWf_cons.mp h
    simp only [memWrite]
    split
    · rename_i hab
      refine memWf_memCons (fun p hp => ?_) h
      rcases List.mem_cons.mp hp with rfl | hp
      · exact hab
      · exact lt_trans hab (hb p hp)
    · split
      · rename_i hab
        exact memWf_memCons (hab ▸ hb) hm
      · rename_i h1 h2
        refine memWf_cons.mpr ⟨hw, fun p hp => ?_, ih hm⟩
        rcases mem_memWrite hp with hpa | hp
        · omega
        · exact hb p hp

/-- Reading after a write, in canonical memory: the byte written at its address, what was there elsewhere. -/
theorem memRead_memWrite {m : Memory} (a b : Nat) (v : Byte) (h : memWf m = true) :
    memRead (memWrite m a v) b = if b = a then v else memRead m b := by
  induction m with
  | nil => exact memRead_memCons a b v [] rfl
  | cons q m ih =>
    obtain ⟨c, w⟩ := q
    obtain ⟨hw, hc, hm⟩ := memWf_cons.mp h
    simp only [memWrite]
    split
    · rename_i hac
      refine memRead_memCons a b v _ (memRead_above fun p hp => ?_)
      rcases List.mem_cons.mp hp with rfl | hp
      · exact hac
      · exact lt_trans hac (hc p hp)
    · split
      · rename_i hac
        subst hac
        rw [memRead_memCons a b v m (memRead_above hc)]
        by_cases hb : b = a
        · simp [hb]
        · simp [memRead, hb, Ne.symm hb]
      · rename_i h1 h2
        simp only [memRead, ih hm]
        by_cases hb : c = b
        · have : b ≠ a := by omega
          simp [hb, this]
        · simp [hb]

theorem memRead_memWrite_same {m : Memory} (a : Nat) (v : Byte) (h : memWf m = true) :
    memRead (memWrite m a v) a = v := by simp [memRead_memWrite a a v h]

theorem memRead_memWrite_ne {m : Memory} {a b : Nat} (v : Byte) (h : memWf m = true) (hab : b ≠ a) :
    memRead (memWrite m a v) b = memRead m b := by simp [memRead_memWrite a b v h, hab]

/-- A list of writes keeps the canonical form. -/
theorem memWriteAll_wf {m : Memory} (ws : List (Nat × Byte)) (h : memWf m = true) : memWf (memWriteAll m ws) = true := by
  induction ws generalizing m with
  | nil => exact h
  | cons w ws ih => exact ih (memWrite_wf w.1 w.2 h)

/-- A list of writes leaves an address it does not name alone. -/
theorem memRead_memWriteAll_other {m : Memory} {ws : List (Nat × Byte)} {a : Nat} (h : memWf m = true)
    (ha : ∀ w ∈ ws, w.1 ≠ a) : memRead (memWriteAll m ws) a = memRead m a := by
  induction ws generalizing m with
  | nil => rfl
  | cons w ws ih =>
    have : memWriteAll m (w :: ws) = memWriteAll (memWrite m w.1 w.2) ws := rfl
    rw [this, ih (memWrite_wf _ _ h) fun x hx => ha x (by simp [hx])]
    exact memRead_memWrite_ne _ h (Ne.symm (ha w (by simp)))

/-- The byte a list of writes leaves, where its addresses are distinct. -/
theorem memRead_memWriteAll_mem {m : Memory} {ws : List (Nat × Byte)} {a : Nat} {v : Byte} (h : memWf m = true)
    (hd : (ws.map Prod.fst).Nodup) (hm : (a, v) ∈ ws) : memRead (memWriteAll m ws) a = v := by
  induction ws generalizing m with
  | nil => simp at hm
  | cons w ws ih =>
    have hstep : memWriteAll m (w :: ws) = memWriteAll (memWrite m w.1 w.2) ws := rfl
    simp only [List.map_cons, List.nodup_cons] at hd
    rw [hstep]
    rcases List.mem_cons.mp hm with hw | hm
    · subst hw
      rw [memRead_memWriteAll_other (memWrite_wf _ _ h)]
      · exact memRead_memWrite_same _ _ h
      · intro x hx he
        exact hd.1 (List.mem_map.mpr ⟨x, hx, he⟩)
    · exact ih (memWrite_wf _ _ h) hd.2 hm

/-- Canonical memories that read alike are equal. -/
theorem memory_ext {m n : Memory} (hm : memWf m = true) (hn : memWf n = true) (h : ∀ a, memRead m a = memRead n a) :
    m = n := by
  induction m generalizing n with
  | nil =>
    cases n with
    | nil => rfl
    | cons q n =>
      obtain ⟨b, w⟩ := q
      have hq := memWf_cons.mp hn
      have := h b
      simp only [memRead, if_true] at this
      exact absurd this.symm hq.1
  | cons p m ih =>
    obtain ⟨a, v⟩ := p
    have hp := memWf_cons.mp hm
    cases n with
    | nil =>
      have := h a
      simp only [memRead, if_true] at this
      exact absurd this hp.1
    | cons q n =>
      obtain ⟨b, w⟩ := q
      have hq := memWf_cons.mp hn
      have hab : a = b := by
        by_contra hne
        rcases Nat.lt_or_gt_of_ne hne with hlt | hgt
        · have := h a
          rw [memRead_above (m := (b, w) :: n) (fun x hx => by
            rcases List.mem_cons.mp hx with rfl | hx
            · exact hlt
            · exact lt_trans hlt (hq.2.1 x hx))] at this
          simp only [memRead, if_true] at this
          exact hp.1 this
        · have := h b
          rw [memRead_above (m := (a, v) :: m) (fun x hx => by
            rcases List.mem_cons.mp hx with rfl | hx
            · exact hgt
            · exact lt_trans hgt (hp.2.1 x hx))] at this
          simp only [memRead, if_true] at this
          exact hq.1 this.symm
      subst hab
      have hvw : v = w := by have := h a; simpa [memRead] using this
      subst hvw
      have : m = n := by
        refine ih hp.2.2 hq.2.2 fun x => ?_
        have hx := h x
        by_cases hax : a = x
        · subst hax
          rw [memRead_above hp.2.1, memRead_above hq.2.1]
        · simpa [memRead, hax] using hx
      rw [this]

/-- Bytes placed for withFetchWord keep the canonical form. -/
theorem reset_mem_wf : memWf State.reset.mem = true := rfl

/-- The eight bytes of a value make the value (R40). -/
theorem wordOf_byteOf (v : Word) : wordOf (byteOf v) = v := by
  apply BitVec.eq_of_getLsbD_eq
  intro i hi
  simp only [wordOf, byteOf, BitVec.getLsbD_append, BitVec.getLsbD_extractLsb']
  split_ifs <;> (rw [decide_eq_true (by omega), Bool.true_and]; congr 1; omega)

/-- A byte of the value eight bytes make (R40: the byte at the lowest address holds bits 7:0). -/
theorem byteOf_wordOf (b : Nat → Byte) {k : Nat} (hk : k < 8) : byteOf (wordOf b) k = b k := by
  unfold wordOf byteOf
  ext i hi
  rcases k with _ | _ | _ | _ | _ | _ | _ | _ | k
  all_goals first
    | omega
    | (simp only [BitVec.getElem_extractLsb', BitVec.getLsbD_append]
       split_ifs <;> first | omega | (rw [BitVec.getLsbD_eq_getElem (by omega)]; congr 1; omega))

end Sys2Proof.Laws
end

