-- ==== Sys2Proof/Laws/State.lean ====
section
/-! SUPPORT. One lemma per field per update of a state, so that no proof unfolds a record update. -/

namespace Sys2Proof.Laws

open Sys2Proof.Machine

variable (s : State)

/-! ### setReg -/

@[simp] theorem setReg_regs (i : RegNo) (v : Word) : (s.setReg i v).regs = regSet s.regs i v := rfl
@[simp] theorem setReg_mxcw (i : RegNo) (v : Word) : (s.setReg i v).mxcw = s.mxcw := rfl
@[simp] theorem setReg_g (i : RegNo) (v : Word) : (s.setReg i v).g = s.g := rfl
@[simp] theorem setReg_hsave (i : RegNo) (v : Word) : (s.setReg i v).hsave = s.hsave := rfl
@[simp] theorem setReg_curvm (i : RegNo) (v : Word) : (s.setReg i v).curvm = s.curvm := rfl
@[simp] theorem setReg_vms (i : RegNo) (v : Word) : (s.setReg i v).vms = s.vms := rfl
@[simp] theorem setReg_retiredDestroyed (i : RegNo) (v : Word) : (s.setReg i v).retiredDestroyed = s.retiredDestroyed := rfl
@[simp] theorem setReg_retiredDisabled (i : RegNo) (v : Word) : (s.setReg i v).retiredDisabled = s.retiredDisabled := rfl
@[simp] theorem setReg_otherVms (i : RegNo) (v : Word) : (s.setReg i v).otherVms = s.otherVms := rfl
@[simp] theorem setReg_mem (i : RegNo) (v : Word) : (s.setReg i v).mem = s.mem := rfl
@[simp] theorem setReg_fetch (i : RegNo) (v : Word) : (s.setReg i v).fetch = s.fetch := rfl
@[simp] theorem setReg_excMark (i : RegNo) (v : Word) : (s.setReg i v).excMark = s.excMark := rfl
@[simp] theorem setReg_events (i : RegNo) (v : Word) : (s.setReg i v).events = s.events := rfl
@[simp] theorem setReg_drawCtr (i : RegNo) (v : Word) : (s.setReg i v).drawCtr = s.drawCtr := rfl

/-! ### setIp -/

@[simp] theorem setIp_regs (v : Word) : (s.setIp v).regs = regSet s.regs ipReg v := rfl
@[simp] theorem setIp_mxcw (v : Word) : (s.setIp v).mxcw = s.mxcw := rfl
@[simp] theorem setIp_g (v : Word) : (s.setIp v).g = s.g := rfl
@[simp] theorem setIp_hsave (v : Word) : (s.setIp v).hsave = s.hsave := rfl
@[simp] theorem setIp_curvm (v : Word) : (s.setIp v).curvm = s.curvm := rfl
@[simp] theorem setIp_vms (v : Word) : (s.setIp v).vms = s.vms := rfl
@[simp] theorem setIp_retiredDestroyed (v : Word) : (s.setIp v).retiredDestroyed = s.retiredDestroyed := rfl
@[simp] theorem setIp_retiredDisabled (v : Word) : (s.setIp v).retiredDisabled = s.retiredDisabled := rfl
@[simp] theorem setIp_otherVms (v : Word) : (s.setIp v).otherVms = s.otherVms := rfl
@[simp] theorem setIp_mem (v : Word) : (s.setIp v).mem = s.mem := rfl
@[simp] theorem setIp_fetch (v : Word) : (s.setIp v).fetch = s.fetch := rfl
@[simp] theorem setIp_excMark (v : Word) : (s.setIp v).excMark = s.excMark := rfl
@[simp] theorem setIp_events (v : Word) : (s.setIp v).events = s.events := rfl
@[simp] theorem setIp_drawCtr (v : Word) : (s.setIp v).drawCtr = s.drawCtr := rfl

/-! ### advance -/

@[simp] theorem advance_regs (n : Nat) : (s.advance n).regs = regSet s.regs ipReg (s.ip + BitVec.ofNat 64 n) := rfl
@[simp] theorem advance_mxcw (n : Nat) : (s.advance n).mxcw = s.mxcw := rfl
@[simp] theorem advance_g (n : Nat) : (s.advance n).g = s.g := rfl
@[simp] theorem advance_hsave (n : Nat) : (s.advance n).hsave = s.hsave := rfl
@[simp] theorem advance_curvm (n : Nat) : (s.advance n).curvm = s.curvm := rfl
@[simp] theorem advance_vms (n : Nat) : (s.advance n).vms = s.vms := rfl
@[simp] theorem advance_retiredDestroyed (n : Nat) : (s.advance n).retiredDestroyed = s.retiredDestroyed := rfl
@[simp] theorem advance_retiredDisabled (n : Nat) : (s.advance n).retiredDisabled = s.retiredDisabled := rfl
@[simp] theorem advance_otherVms (n : Nat) : (s.advance n).otherVms = s.otherVms := rfl
@[simp] theorem advance_mem (n : Nat) : (s.advance n).mem = s.mem := rfl
@[simp] theorem advance_fetch (n : Nat) : (s.advance n).fetch = s.fetch := rfl
@[simp] theorem advance_excMark (n : Nat) : (s.advance n).excMark = s.excMark := rfl
@[simp] theorem advance_events (n : Nat) : (s.advance n).events = s.events := rfl
@[simp] theorem advance_drawCtr (n : Nat) : (s.advance n).drawCtr = s.drawCtr := rfl

/-! ### tick -/

@[simp] theorem tick_regs : (s.tick).regs = s.regs := rfl
@[simp] theorem tick_mxcw : (s.tick).mxcw = s.mxcw := rfl
@[simp] theorem tick_g : (s.tick).g = s.g := rfl
@[simp] theorem tick_hsave : (s.tick).hsave = s.hsave := rfl
@[simp] theorem tick_curvm : (s.tick).curvm = s.curvm := rfl
@[simp] theorem tick_vms : (s.tick).vms = s.vms := rfl
@[simp] theorem tick_retiredDestroyed : (s.tick).retiredDestroyed = s.retiredDestroyed := rfl
@[simp] theorem tick_retiredDisabled : (s.tick).retiredDisabled = s.retiredDisabled := rfl
@[simp] theorem tick_otherVms : (s.tick).otherVms = s.otherVms := rfl
@[simp] theorem tick_mem : (s.tick).mem = s.mem := rfl
@[simp] theorem tick_fetch : (s.tick).fetch = s.fetch := rfl
@[simp] theorem tick_excMark : (s.tick).excMark = s.excMark := rfl
@[simp] theorem tick_events : (s.tick).events = s.events := rfl
@[simp] theorem tick_drawCtr : (s.tick).drawCtr = s.drawCtr + 1 := rfl

/-! ### dropEvent -/

@[simp] theorem dropEvent_regs (es : List Event) : (s.dropEvent es).regs = s.regs := rfl
@[simp] theorem dropEvent_mxcw (es : List Event) : (s.dropEvent es).mxcw = s.mxcw := rfl
@[simp] theorem dropEvent_g (es : List Event) : (s.dropEvent es).g = s.g := rfl
@[simp] theorem dropEvent_hsave (es : List Event) : (s.dropEvent es).hsave = s.hsave := rfl
@[simp] theorem dropEvent_curvm (es : List Event) : (s.dropEvent es).curvm = s.curvm := rfl
@[simp] theorem dropEvent_vms (es : List Event) : (s.dropEvent es).vms = s.vms := rfl
@[simp] theorem dropEvent_retiredDestroyed (es : List Event) : (s.dropEvent es).retiredDestroyed = s.retiredDestroyed := rfl
@[simp] theorem dropEvent_retiredDisabled (es : List Event) : (s.dropEvent es).retiredDisabled = s.retiredDisabled := rfl
@[simp] theorem dropEvent_otherVms (es : List Event) : (s.dropEvent es).otherVms = s.otherVms := rfl
@[simp] theorem dropEvent_mem (es : List Event) : (s.dropEvent es).mem = s.mem := rfl
@[simp] theorem dropEvent_fetch (es : List Event) : (s.dropEvent es).fetch = s.fetch := rfl
@[simp] theorem dropEvent_excMark (es : List Event) : (s.dropEvent es).excMark = s.excMark := rfl
@[simp] theorem dropEvent_events (es : List Event) : (s.dropEvent es).events = es := rfl
@[simp] theorem dropEvent_drawCtr (es : List Event) : (s.dropEvent es).drawCtr = s.drawCtr + 1 := rfl

/-! ### atHypervisorProcedure -/

@[simp] theorem atHypervisorProcedure_regs (c : Config) : (atHypervisorProcedure c s).regs = regSet (regSet s.regs r7 (s.x c (scspReg c))) ipReg (s.x c (scdpReg c)) := rfl
@[simp] theorem atHypervisorProcedure_mxcw (c : Config) : (atHypervisorProcedure c s).mxcw = s.mxcw := rfl
@[simp] theorem atHypervisorProcedure_g (c : Config) : (atHypervisorProcedure c s).g = s.g := rfl
@[simp] theorem atHypervisorProcedure_hsave (c : Config) : (atHypervisorProcedure c s).hsave = s.hsave := rfl
@[simp] theorem atHypervisorProcedure_curvm (c : Config) : (atHypervisorProcedure c s).curvm = s.curvm := rfl
@[simp] theorem atHypervisorProcedure_vms (c : Config) : (atHypervisorProcedure c s).vms = s.vms := rfl
@[simp] theorem atHypervisorProcedure_retiredDestroyed (c : Config) : (atHypervisorProcedure c s).retiredDestroyed = s.retiredDestroyed := rfl
@[simp] theorem atHypervisorProcedure_retiredDisabled (c : Config) : (atHypervisorProcedure c s).retiredDisabled = s.retiredDisabled := rfl
@[simp] theorem atHypervisorProcedure_otherVms (c : Config) : (atHypervisorProcedure c s).otherVms = s.otherVms := rfl
@[simp] theorem atHypervisorProcedure_mem (c : Config) : (atHypervisorProcedure c s).mem = s.mem := rfl
@[simp] theorem atHypervisorProcedure_fetch (c : Config) : (atHypervisorProcedure c s).fetch = s.fetch := rfl
@[simp] theorem atHypervisorProcedure_excMark (c : Config) : (atHypervisorProcedure c s).excMark = s.excMark := rfl
@[simp] theorem atHypervisorProcedure_events (c : Config) : (atHypervisorProcedure c s).events = s.events := rfl
@[simp] theorem atHypervisorProcedure_drawCtr (c : Config) : (atHypervisorProcedure c s).drawCtr = s.drawCtr := rfl

/-! ### clearPending -/

@[simp] theorem clearPending_regs (vm : Vm) : (clearPending s vm).regs = s.regs := rfl
@[simp] theorem clearPending_mxcw (vm : Vm) : (clearPending s vm).mxcw = s.mxcw := rfl
@[simp] theorem clearPending_g (vm : Vm) : (clearPending s vm).g = s.g := rfl
@[simp] theorem clearPending_hsave (vm : Vm) : (clearPending s vm).hsave = s.hsave := rfl
@[simp] theorem clearPending_curvm (vm : Vm) : (clearPending s vm).curvm = s.curvm := rfl
@[simp] theorem clearPending_vms (vm : Vm) : (clearPending s vm).vms = vmUpdate s.vms { vm with pending := none } := rfl
@[simp] theorem clearPending_retiredDestroyed (vm : Vm) : (clearPending s vm).retiredDestroyed = s.retiredDestroyed := rfl
@[simp] theorem clearPending_retiredDisabled (vm : Vm) : (clearPending s vm).retiredDisabled = s.retiredDisabled := rfl
@[simp] theorem clearPending_otherVms (vm : Vm) : (clearPending s vm).otherVms = s.otherVms := rfl
@[simp] theorem clearPending_mem (vm : Vm) : (clearPending s vm).mem = s.mem := rfl
@[simp] theorem clearPending_fetch (vm : Vm) : (clearPending s vm).fetch = s.fetch := rfl
@[simp] theorem clearPending_excMark (vm : Vm) : (clearPending s vm).excMark = s.excMark := rfl
@[simp] theorem clearPending_events (vm : Vm) : (clearPending s vm).events = s.events := rfl
@[simp] theorem clearPending_drawCtr (vm : Vm) : (clearPending s vm).drawCtr = s.drawCtr := rfl

/-! ### addVm -/

@[simp] theorem addVm_regs (vm : Vm) : (addVm s vm).regs = s.regs := rfl
@[simp] theorem addVm_mxcw (vm : Vm) : (addVm s vm).mxcw = s.mxcw := rfl
@[simp] theorem addVm_g (vm : Vm) : (addVm s vm).g = s.g := rfl
@[simp] theorem addVm_hsave (vm : Vm) : (addVm s vm).hsave = s.hsave := rfl
@[simp] theorem addVm_curvm (vm : Vm) : (addVm s vm).curvm = s.curvm := rfl
@[simp] theorem addVm_vms (vm : Vm) : (addVm s vm).vms = vmInsert s.vms vm := rfl
@[simp] theorem addVm_retiredDestroyed (vm : Vm) : (addVm s vm).retiredDestroyed = numErase s.retiredDestroyed vm.num := rfl
@[simp] theorem addVm_retiredDisabled (vm : Vm) : (addVm s vm).retiredDisabled = numErase s.retiredDisabled vm.num := rfl
@[simp] theorem addVm_otherVms (vm : Vm) : (addVm s vm).otherVms = s.otherVms := rfl
@[simp] theorem addVm_mem (vm : Vm) : (addVm s vm).mem = s.mem := rfl
@[simp] theorem addVm_fetch (vm : Vm) : (addVm s vm).fetch = s.fetch := rfl
@[simp] theorem addVm_excMark (vm : Vm) : (addVm s vm).excMark = s.excMark := rfl
@[simp] theorem addVm_events (vm : Vm) : (addVm s vm).events = s.events := rfl
@[simp] theorem addVm_drawCtr (vm : Vm) : (addVm s vm).drawCtr = s.drawCtr := rfl

/-! ### removeVm -/

@[simp] theorem removeVm_regs (vm : Vm) : (removeVm s vm).regs = s.regs := rfl
@[simp] theorem removeVm_mxcw (vm : Vm) : (removeVm s vm).mxcw = s.mxcw := rfl
@[simp] theorem removeVm_g (vm : Vm) : (removeVm s vm).g = s.g := rfl
@[simp] theorem removeVm_hsave (vm : Vm) : (removeVm s vm).hsave = s.hsave := rfl
@[simp] theorem removeVm_curvm (vm : Vm) : (removeVm s vm).curvm = if s.curvm = some vm.num then none else s.curvm := rfl
@[simp] theorem removeVm_vms (vm : Vm) : (removeVm s vm).vms = vmErase s.vms vm.num := rfl
@[simp] theorem removeVm_retiredDestroyed (vm : Vm) : (removeVm s vm).retiredDestroyed = numInsert s.retiredDestroyed vm.num := rfl
@[simp] theorem removeVm_retiredDisabled (vm : Vm) : (removeVm s vm).retiredDisabled = s.retiredDisabled := rfl
@[simp] theorem removeVm_otherVms (vm : Vm) : (removeVm s vm).otherVms = s.otherVms := rfl
@[simp] theorem removeVm_mem (vm : Vm) : (removeVm s vm).mem = s.mem := rfl
@[simp] theorem removeVm_fetch (vm : Vm) : (removeVm s vm).fetch = s.fetch := rfl
@[simp] theorem removeVm_excMark (vm : Vm) : (removeVm s vm).excMark = s.excMark := rfl
@[simp] theorem removeVm_events (vm : Vm) : (removeVm s vm).events = s.events := rfl
@[simp] theorem removeVm_drawCtr (vm : Vm) : (removeVm s vm).drawCtr = s.drawCtr := rfl

/-! ### disableManagement -/

@[simp] theorem disableManagement_regs : (disableManagement s).regs = s.regs := rfl
@[simp] theorem disableManagement_mxcw : (disableManagement s).mxcw = s.mxcw := rfl
@[simp] theorem disableManagement_g : (disableManagement s).g = s.g := rfl
@[simp] theorem disableManagement_hsave : (disableManagement s).hsave = s.hsave := rfl
@[simp] theorem disableManagement_curvm : (disableManagement s).curvm = none := rfl
@[simp] theorem disableManagement_vms : (disableManagement s).vms = [] := rfl
@[simp] theorem disableManagement_retiredDestroyed : (disableManagement s).retiredDestroyed = s.retiredDestroyed := rfl
@[simp] theorem disableManagement_retiredDisabled : (disableManagement s).retiredDisabled = s.vms.foldl (fun l vm => numInsert l vm.num) s.retiredDisabled := rfl
@[simp] theorem disableManagement_otherVms : (disableManagement s).otherVms = s.otherVms := rfl
@[simp] theorem disableManagement_mem : (disableManagement s).mem = s.mem := rfl
@[simp] theorem disableManagement_fetch : (disableManagement s).fetch = s.fetch := rfl
@[simp] theorem disableManagement_excMark : (disableManagement s).excMark = s.excMark := rfl
@[simp] theorem disableManagement_events : (disableManagement s).events = s.events := rfl
@[simp] theorem disableManagement_drawCtr : (disableManagement s).drawCtr = s.drawCtr := rfl

/-! ### cpuReset -/

@[simp] theorem cpuReset_regs : (cpuReset s).regs = zeroRegs := rfl
@[simp] theorem cpuReset_mxcw : (cpuReset s).mxcw = 0 := rfl
@[simp] theorem cpuReset_g : (cpuReset s).g = false := rfl
@[simp] theorem cpuReset_hsave : (cpuReset s).hsave = zeroRegs := rfl
@[simp] theorem cpuReset_curvm : (cpuReset s).curvm = none := rfl
@[simp] theorem cpuReset_vms : (cpuReset s).vms = [] := rfl
@[simp] theorem cpuReset_retiredDestroyed : (cpuReset s).retiredDestroyed = [] := rfl
@[simp] theorem cpuReset_retiredDisabled : (cpuReset s).retiredDisabled = [] := rfl
@[simp] theorem cpuReset_otherVms : (cpuReset s).otherVms = s.otherVms := rfl
@[simp] theorem cpuReset_mem : (cpuReset s).mem = s.mem := rfl
@[simp] theorem cpuReset_fetch : (cpuReset s).fetch = s.fetch := rfl
@[simp] theorem cpuReset_excMark : (cpuReset s).excMark = 0 := rfl
@[simp] theorem cpuReset_events : (cpuReset s).events = s.events := rfl
@[simp] theorem cpuReset_drawCtr : (cpuReset s).drawCtr = s.drawCtr := rfl

/-! ### writeMxcw -/

@[simp] theorem writeMxcw_regs (v : Word) : (writeMxcw s v).regs = s.regs := by unfold writeMxcw; split <;> rfl
@[simp] theorem writeMxcw_mxcw (v : Word) : (writeMxcw s v).mxcw = v := by unfold writeMxcw; split <;> rfl
@[simp] theorem writeMxcw_g (v : Word) : (writeMxcw s v).g = s.g := by unfold writeMxcw; split <;> rfl
@[simp] theorem writeMxcw_hsave (v : Word) : (writeMxcw s v).hsave = s.hsave := by unfold writeMxcw; split <;> rfl
@[simp] theorem writeMxcw_retiredDestroyed (v : Word) : (writeMxcw s v).retiredDestroyed = s.retiredDestroyed := by unfold writeMxcw; split <;> rfl
@[simp] theorem writeMxcw_otherVms (v : Word) : (writeMxcw s v).otherVms = s.otherVms := by unfold writeMxcw; split <;> rfl
@[simp] theorem writeMxcw_mem (v : Word) : (writeMxcw s v).mem = s.mem := by unfold writeMxcw; split <;> rfl
@[simp] theorem writeMxcw_fetch (v : Word) : (writeMxcw s v).fetch = s.fetch := by unfold writeMxcw; split <;> rfl
@[simp] theorem writeMxcw_excMark (v : Word) : (writeMxcw s v).excMark = s.excMark := by unfold writeMxcw; split <;> rfl
@[simp] theorem writeMxcw_events (v : Word) : (writeMxcw s v).events = s.events := by unfold writeMxcw; split <;> rfl
@[simp] theorem writeMxcw_drawCtr (v : Word) : (writeMxcw s v).drawCtr = s.drawCtr := by unfold writeMxcw; split <;> rfl

/-! ### commit -/

variable (c : Config) (e : Effect) (o : Origin)

@[simp] theorem commit_mxcw : (commit c s e o).mxcw = s.mxcw := by unfold commit; split <;> rfl
@[simp] theorem commit_g : (commit c s e o).g = s.g := by unfold commit; split <;> rfl
@[simp] theorem commit_hsave : (commit c s e o).hsave = s.hsave := by unfold commit; split <;> rfl
@[simp] theorem commit_curvm : (commit c s e o).curvm = s.curvm := by unfold commit; split <;> rfl
@[simp] theorem commit_vms : (commit c s e o).vms = s.vms := by unfold commit; split <;> rfl
@[simp] theorem commit_retiredDestroyed : (commit c s e o).retiredDestroyed = s.retiredDestroyed := by unfold commit; split <;> rfl
@[simp] theorem commit_retiredDisabled : (commit c s e o).retiredDisabled = s.retiredDisabled := by unfold commit; split <;> rfl
@[simp] theorem commit_otherVms : (commit c s e o).otherVms = s.otherVms := by unfold commit; split <;> rfl
@[simp] theorem commit_drawCtr : (commit c s e o).drawCtr = s.drawCtr := by unfold commit; split <;> rfl

/-! ### Views of the state -/

@[simp] theorem tick_ip : s.tick.ip = s.ip := rfl
@[simp] theorem tick_curVm : s.tick.curVm? = s.curVm? := rfl
@[simp] theorem dropEvent_curVm (es : List Event) : (s.dropEvent es).curVm? = s.curVm? := rfl
@[simp] theorem setReg_curVm (i : RegNo) (v : Word) : (s.setReg i v).curVm? = s.curVm? := rfl
@[simp] theorem setIp_curVm (v : Word) : (s.setIp v).curVm? = s.curVm? := rfl
@[simp] theorem advance_curVm (n : Nat) : (s.advance n).curVm? = s.curVm? := rfl
@[simp] theorem commit_curVm : (commit c s e o).curVm? = s.curVm? := by simp [State.curVm?]
@[simp] theorem commit_me : (commit c s e o).me = s.me := by simp [State.me]

/-- Two states with equal fields are equal. -/
theorem state_ext {s t : State}
    (regs : s.regs = t.regs)
    (mxcw : s.mxcw = t.mxcw)
    (g : s.g = t.g)
    (hsave : s.hsave = t.hsave)
    (curvm : s.curvm = t.curvm)
    (vms : s.vms = t.vms)
    (retiredDestroyed : s.retiredDestroyed = t.retiredDestroyed)
    (retiredDisabled : s.retiredDisabled = t.retiredDisabled)
    (otherVms : s.otherVms = t.otherVms)
    (mem : s.mem = t.mem)
    (fetch : s.fetch = t.fetch)
    (excMark : s.excMark = t.excMark)
    (events : s.events = t.events)
    (drawCtr : s.drawCtr = t.drawCtr) : s = t := by
  cases s; cases t; simp_all

end Sys2Proof.Laws
end

