-- ==== Sys2Proof/Laws/Table.lean ====
section
/-! SUPPORT. The VM table and the retired sets: finding, inserting, replacing and removing. -/

namespace Sys2Proof.Laws

open Sys2Proof.Machine

/-- VM numbers are ordered as numbers. -/
theorem num_ne_of_lt {a b : VmNum} (h : a < b) : a ≠ b := by bv_omega

theorem num_lt_trans {a b c : VmNum} (h : a < b) (h' : b < c) : a < c := by bv_omega

theorem num_lt_of_not {a b : VmNum} (h : ¬a < b) (h' : ¬a = b) : b < a := by bv_omega

/-- The numbers of a table rise strictly. -/
abbrev TableRises (l : List Vm) : Prop := l.Pairwise fun v w => v.num < w.num

theorem vmFind_mem {l : List Vm} {n : VmNum} {v : Vm} (h : vmFind l n = some v) : v ∈ l ∧ v.num = n := by
  induction l with
  | nil => simp [vmFind] at h
  | cons w l ih =>
    simp only [vmFind] at h
    split at h
    · cases h; simp_all
    · exact ⟨List.mem_cons_of_mem _ (ih h).1, (ih h).2⟩

theorem vmFind_none {l : List Vm} {n : VmNum} : vmFind l n = none ↔ ∀ v ∈ l, v.num ≠ n := by
  induction l with
  | nil => simp [vmFind]
  | cons w l ih =>
    simp only [vmFind]
    split <;> simp_all

/-- In a rising table an entry is found under its number. -/
theorem vmFind_of_mem {l : List Vm} (h : TableRises l) {v : Vm} (hv : v ∈ l) : vmFind l v.num = some v := by
  induction l with
  | nil => simp at hv
  | cons w l ih =>
    obtain ⟨hw, hl⟩ := List.pairwise_cons.mp h
    simp only [vmFind]
    rcases List.mem_cons.mp hv with rfl | hv
    · simp
    · have : w.num ≠ v.num := num_ne_of_lt (hw v hv)
      simp [this, ih hl hv]

theorem mem_vmInsert {l : List Vm} {v w : Vm} (h : w ∈ vmInsert l v) : w = v ∨ w ∈ l := by
  induction l with
  | nil => simp_all [vmInsert]
  | cons u l ih =>
    simp only [vmInsert] at h
    split at h
    · simpa using h
    · split at h
      · rcases List.mem_cons.mp h with h | h <;> simp_all
      · rcases List.mem_cons.mp h with h | h
        · simp_all
        · exact (ih h).imp id fun h => List.mem_cons_of_mem _ h

theorem vmFind_vmInsert_same (l : List Vm) (v : Vm) : vmFind (vmInsert l v) v.num = some v := by
  induction l with
  | nil => simp [vmInsert, vmFind]
  | cons u l ih =>
    simp only [vmInsert]
    split
    · simp [vmFind]
    · split
      · simp [vmFind]
      · rename_i h; simp [vmFind, Ne.symm h, ih]

theorem vmFind_vmInsert_ne (l : List Vm) (v : Vm) {n : VmNum} (h : n ≠ v.num) :
    vmFind (vmInsert l v) n = vmFind l n := by
  induction l with
  | nil => simp [vmInsert, vmFind, Ne.symm h]
  | cons u l ih =>
    simp only [vmInsert]
    split
    · simp [vmFind, Ne.symm h]
    · split
      · rename_i hu; simp [vmFind, Ne.symm h, ← hu]
      · simp [vmFind, ih]

theorem vmInsert_rises {l : List Vm} (v : Vm) (h : TableRises l) : TableRises (vmInsert l v) := by
  induction l with
  | nil => simp [vmInsert]
  | cons u l ih =>
    obtain ⟨hu, hl⟩ := List.pairwise_cons.mp h
    simp only [vmInsert]
    split
    · rename_i hv
      refine List.pairwise_cons.mpr ⟨fun w hw => ?_, h⟩
      rcases List.mem_cons.mp hw with rfl | hw
      · exact hv
      · exact num_lt_trans hv (hu w hw)
    · split
      · rename_i he
        exact List.pairwise_cons.mpr ⟨fun w hw => he ▸ hu w hw, hl⟩
      · rename_i h1 h2
        refine List.pairwise_cons.mpr ⟨fun w hw => ?_, ih hl⟩
        rcases mem_vmInsert hw with rfl | hw
        · exact num_lt_of_not h1 h2
        · exact hu w hw

theorem vmInsert_length_le (l : List Vm) (v : Vm) : (vmInsert l v).length ≤ l.length + 1 := by
  induction l with
  | nil => simp [vmInsert]
  | cons u l ih =>
    simp only [vmInsert]
    split
    · simp
    · split <;> simp [ih]

/-- A number not in use makes the table one longer (R105: `vmcount <- vmcount + 1`). -/
theorem vmInsert_length {l : List Vm} {v : Vm} (h : vmFind l v.num = none) : (vmInsert l v).length = l.length + 1 := by
  induction l with
  | nil => simp [vmInsert]
  | cons u l ih =>
    simp only [vmFind] at h
    split at h
    · simp at h
    · rename_i hu
      simp only [vmInsert]
      split
      · simp
      · simp [Ne.symm hu, ih h]

@[simp] theorem vmUpdate_length (l : List Vm) (v : Vm) : (vmUpdate l v).length = l.length := by simp [vmUpdate]

/-- Replacing an entry keeps every number. -/
theorem vmUpdate_nums (l : List Vm) (v : Vm) : (vmUpdate l v).map Vm.num = l.map Vm.num := by
  simp only [vmUpdate, List.map_map]
  apply List.map_congr_left
  intro w _
  simp only [Function.comp]
  split <;> simp_all

theorem mem_vmUpdate {l : List Vm} {v w : Vm} (h : w ∈ vmUpdate l v) :
    (w = v ∧ ∃ u ∈ l, u.num = v.num) ∨ (w ∈ l ∧ w.num ≠ v.num) := by
  simp only [vmUpdate, List.mem_map] at h
  obtain ⟨u, hu, he⟩ := h
  split at he
  · exact .inl ⟨he.symm, u, hu, by assumption⟩
  · exact .inr (he ▸ ⟨hu, by assumption⟩)

theorem vmUpdate_rises {l : List Vm} (v : Vm) (h : TableRises l) : TableRises (vmUpdate l v) := by
  have hp : (l.map Vm.num).Pairwise (· < ·) := List.pairwise_map.mpr h
  rw [← vmUpdate_nums l v] at hp
  exact List.pairwise_map.mp hp

theorem vmFind_vmUpdate_same {l : List Vm} {v : Vm} (h : (vmFind l v.num).isSome) :
    vmFind (vmUpdate l v) v.num = some v := by
  induction l with
  | nil => simp [vmFind] at h
  | cons u l ih =>
    simp only [vmUpdate, List.map_cons, vmFind]
    by_cases hu : u.num = v.num
    · simp [hu]
    · simp only [vmFind, hu, if_false] at h ⊢
      exact ih h

theorem vmFind_vmUpdate_ne (l : List Vm) (v : Vm) {n : VmNum} (h : n ≠ v.num) :
    vmFind (vmUpdate l v) n = vmFind l n := by
  induction l with
  | nil => rfl
  | cons u l ih =>
    simp only [vmUpdate, List.map_cons, vmFind]
    by_cases hu : u.num = v.num
    · rw [if_pos hu, if_neg (Ne.symm h), if_neg (fun he : u.num = n => h (he.symm.trans hu))]
      exact ih
    · simp only [hu, if_false]
      by_cases hn : u.num = n
      · simp [hn]
      · simp only [hn, if_false]; exact ih

theorem mem_vmErase {l : List Vm} {n : VmNum} {v : Vm} : v ∈ vmErase l n ↔ v ∈ l ∧ v.num ≠ n := by
  simp [vmErase]

theorem vmErase_rises {l : List Vm} (n : VmNum) (h : TableRises l) : TableRises (vmErase l n) := h.filter _

theorem vmFind_vmErase_same (l : List Vm) (n : VmNum) : vmFind (vmErase l n) n = none :=
  vmFind_none.mpr fun _ hv => (mem_vmErase.mp hv).2

theorem vmFind_vmErase_ne (l : List Vm) {m n : VmNum} (h : m ≠ n) : vmFind (vmErase l n) m = vmFind l m := by
  induction l with
  | nil => rfl
  | cons u l ih =>
    by_cases hu : u.num = n
    · have hm : u.num ≠ m := fun he => h (he ▸ hu)
      simpa [vmErase, hu, vmFind, hm, Ne.symm h] using ih
    · by_cases hm : u.num = m
      · simp [vmErase, vmFind, hm, h]
      · simpa [vmErase, hu, vmFind, hm] using ih

/-- Removing an entry of a rising table makes it one shorter (R110: `vmcount <- vmcount - 1`). -/
theorem vmErase_length {l : List Vm} {v : Vm} (h : TableRises l) (hv : v ∈ l) :
    (vmErase l v.num).length + 1 = l.length := by
  induction l with
  | nil => simp at hv
  | cons u l ih =>
    obtain ⟨hu, hl⟩ := List.pairwise_cons.mp h
    rcases List.mem_cons.mp hv with rfl | hv
    · have : l.filter (fun w => w.num != v.num) = l := by
        apply List.filter_eq_self.mpr
        intro w hw
        simpa using (num_ne_of_lt (hu w hw)).symm
      simp [vmErase, this]
    · have hne : u.num ≠ v.num := num_ne_of_lt (hu v hv)
      have := ih hl hv
      simp only [vmErase] at this ⊢
      simp [hne, this]

theorem mem_numInsert {l : List VmNum} {n m : VmNum} : m ∈ numInsert l n ↔ m = n ∨ m ∈ l := by
  induction l with
  | nil => simp [numInsert]
  | cons u l ih =>
    simp only [numInsert]
    split
    · simp
    · split
      · rename_i h; subst h; simp
      · simp only [List.mem_cons, ih]; tauto

theorem numInsert_rises {l : List VmNum} (n : VmNum) (h : l.Pairwise (· < ·)) : (numInsert l n).Pairwise (· < ·) := by
  induction l with
  | nil => simp [numInsert]
  | cons u l ih =>
    obtain ⟨hu, hl⟩ := List.pairwise_cons.mp h
    simp only [numInsert]
    split
    · rename_i hn
      refine List.pairwise_cons.mpr ⟨fun w hw => ?_, h⟩
      rcases List.mem_cons.mp hw with rfl | hw
      · exact hn
      · exact num_lt_trans hn (hu w hw)
    · split
      · exact h
      · rename_i h1 h2
        refine List.pairwise_cons.mpr ⟨fun w hw => ?_, ih hl⟩
        rcases mem_numInsert.mp hw with rfl | hw
        · exact num_lt_of_not h1 h2
        · exact hu w hw

theorem mem_numErase {l : List VmNum} {n m : VmNum} : m ∈ numErase l n ↔ m ∈ l ∧ m ≠ n := by simp [numErase]

theorem numErase_rises {l : List VmNum} (n : VmNum) (h : l.Pairwise (· < ·)) : (numErase l n).Pairwise (· < ·) :=
  h.filter _

/-- The numbers that disabling management retires (R144). -/
theorem mem_retireAll {vs : List Vm} {l : List VmNum} {n : VmNum} :
    n ∈ vs.foldl (fun l vm => numInsert l vm.num) l ↔ n ∈ l ∨ ∃ vm ∈ vs, vm.num = n := by
  induction vs generalizing l with
  | nil => simp
  | cons v vs ih =>
    simp only [List.foldl_cons, ih, mem_numInsert, List.mem_cons, exists_eq_or_imp]
    constructor
    · rintro ((h | h) | h)
      · exact .inr (.inl h.symm)
      · exact .inl h
      · exact .inr (.inr h)
    · rintro (h | h | h)
      · exact .inl (.inr h)
      · exact .inl (.inl h.symm)
      · exact .inr h

theorem retireAll_rises {vs : List Vm} {l : List VmNum} (h : l.Pairwise (· < ·)) :
    (vs.foldl (fun l vm => numInsert l vm.num) l).Pairwise (· < ·) := by
  induction vs generalizing l with
  | nil => exact h
  | cons v vs ih => exact ih (numInsert_rises _ h)

/-- The current VM is an entry of the table, under the number `curvm`. -/
theorem curVm_some {s : State} {vm : Vm} (h : s.curVm? = some vm) : s.curvm = some vm.num ∧ vmFind s.vms vm.num = some vm := by
  unfold State.curVm? at h
  cases hc : s.curvm with
  | none => simp [hc] at h
  | some n =>
    simp only [hc, Option.bind_some] at h
    have := (vmFind_mem h).2
    subst this
    exact ⟨rfl, h⟩

/-- A fresh number is nonzero and not in use, while fewer numbers are in use than exist (R107). -/
theorem smallestFree_free {l : List Vm} (h : l.length < 2 ^ 32 - 1) :
    smallestFree l ≠ 0 ∧ vmFind l (smallestFree l) = none := by
  unfold smallestFree
  set cand := (List.range (l.length + 1)).map fun k => BitVec.ofNat 32 (k + 1) with hcand
  cases hf : cand.find? fun n => (vmFind l n).isNone with
  | some n =>
    have h1 := List.find?_some hf
    have h2 := List.mem_of_find?_eq_some hf
    simp only [hcand, List.mem_map, List.mem_range] at h2
    obtain ⟨k, hk, rfl⟩ := h2
    refine ⟨?_, by simpa using h1⟩
    simp only [Option.getD_some]
    intro h0
    have := congrArg BitVec.toNat h0
    simp only [BitVec.toNat_ofNat] at this
    have : (k + 1) % 2 ^ 32 = k + 1 := Nat.mod_eq_of_lt (by omega)
    simp_all
  | none =>
    exfalso
    have hall : ∀ n ∈ cand, n ∈ l.map Vm.num := by
      intro n hn
      have := List.find?_eq_none.mp hf n hn
      simp only [Option.isNone_iff_eq_none, vmFind_none] at this
      push Not at this
      obtain ⟨v, hv, he⟩ := this
      exact List.mem_map.mpr ⟨v, hv, he⟩
    have hnd : cand.Nodup := by
      refine List.Nodup.map_on ?_ List.nodup_range
      intro a ha b hb hab
      simp only [List.mem_range] at ha hb
      have := congrArg BitVec.toNat hab
      simp only [BitVec.toNat_ofNat] at this
      rw [Nat.mod_eq_of_lt (by omega), Nat.mod_eq_of_lt (by omega)] at this
      omega
    have hlen := (List.subperm_of_subset hnd hall).length_le
    simp [hcand] at hlen

end Sys2Proof.Laws
end

