-- ==== Sys2Proof/Laws/Ops.lean ====
section
/-! SUPPORT. What each shared operation can do, said once: the provers cite these and do not unfold the operations. -/

namespace Sys2Proof.Laws

open Sys2Proof.Machine

variable {c : Config} {s t : State} {o : Origin}

/-- Two states agree on the state of the extension: everything but registers, memory, the exception mark, arrivals and
draws. -/
structure SameVirt (s t : State) : Prop where
  mxcw : t.mxcw = s.mxcw
  g : t.g = s.g
  hsave : t.hsave = s.hsave
  curvm : t.curvm = s.curvm
  vms : t.vms = s.vms
  retiredDestroyed : t.retiredDestroyed = s.retiredDestroyed
  retiredDisabled : t.retiredDisabled = s.retiredDisabled
  otherVms : t.otherVms = s.otherVms

theorem SameVirt.refl (s : State) : SameVirt s s := by constructor <;> rfl

theorem SameVirt.trans {u : State} (h : SameVirt s t) (h' : SameVirt t u) : SameVirt s u := by
  constructor
  · rw [h'.mxcw, h.mxcw]
  · rw [h'.g, h.g]
  · rw [h'.hsave, h.hsave]
  · rw [h'.curvm, h.curvm]
  · rw [h'.vms, h.vms]
  · rw [h'.retiredDestroyed, h.retiredDestroyed]
  · rw [h'.retiredDisabled, h.retiredDisabled]
  · rw [h'.otherVms, h.otherVms]

theorem SameVirt.me (h : SameVirt s t) : t.me = s.me := by simp [State.me, h.mxcw]

theorem SameVirt.curVm (h : SameVirt s t) : t.curVm? = s.curVm? := by simp [State.curVm?, h.curvm, h.vms]

theorem sameVirt_tick (s : State) : SameVirt s s.tick := by constructor <;> rfl

theorem sameVirt_setReg (s : State) (i : RegNo) (v : Word) : SameVirt s (s.setReg i v) := by constructor <;> rfl

theorem sameVirt_commit (c : Config) (s : State) (e : Effect) (o : Origin) : SameVirt s (commit c s e o) := by
  constructor <;> simp

/-- The mode is decided by XM, ME and G (R141). -/
theorem mode_hypervisor : s.mode c = .hypervisor ↔ s.xm c = false ∧ s.me = true ∧ s.g = false := by
  unfold State.mode; cases s.xm c <;> cases s.me <;> cases s.g <;> simp

theorem mode_managed : s.mode c = .managedSupervisor ↔ s.xm c = false ∧ s.me = true ∧ s.g = true := by
  unfold State.mode; cases s.xm c <;> cases s.me <;> cases s.g <;> simp

theorem mode_unmanaged : s.mode c = .unmanagedSupervisor ↔ s.xm c = false ∧ s.me = false := by
  unfold State.mode; cases s.xm c <;> cases s.me <;> cases s.g <;> simp

theorem mode_program : s.mode c = .program ↔ s.xm c = true := by
  unfold State.mode; cases s.xm c <;> cases s.me <;> cases s.g <;> simp

theorem orRefuse_next {α : Type} {x : Except Refusal α} {k : α → Result} :
    orRefuse x k = .next t ↔ ∃ a, x = .ok a ∧ k a = .next t := by
  cases x <;> simp [orRefuse]

/-- A vmcs read again is the one found at creation (D9). -/
theorem vmcsOf_ok {p : Place} {vm : Vm} {v : Vmcs} :
    vmcsOf c s p vm = .ok v ↔ v = vm.vmcs ∧ readVmcs c s p vm.vmcsPa = .ok vm.vmcs := by
  unfold vmcsOf
  cases h : readVmcs c s p vm.vmcsPa with
  | error r => simp
  | ok w =>
    by_cases hw : w = vm.vmcs
    · simp [hw, eq_comm]
    · simp [hw]

/-- The state ExitVM and HvInterruptEntry leave (R157, R159), given the vmcs. -/
def leftState (c : Config) (s : State) (vm : Vm) (p : Pending) (status : VmStatus) (hcall : Bool) (v0 v1 : Word) : State :=
  { s with
    regs := restoredRegs s v0 v1
    mem := storeRegs c s vm.vmcs
    fetch := exitFetch s.fetch hcall ((slotWrites c s vm.vmcs).map Prod.fst)
    g := false
    vms := vmUpdate s.vms (exitedVm s vm p status hcall)
    excMark := 0 }

theorem leaveVm_ok {vm : Vm} {p : Pending} {status : VmStatus} {hcall : Bool} {v0 v1 : Word} :
    leaveVm c s vm p status hcall v0 v1 = .ok t ↔
      vmcsOf c s .vmcsExit vm = .ok vm.vmcs ∧ structureAt c vm.vmcs.vmregs vmregsBytes = .ok () ∧
        regionsClash s = false ∧ keepsVmcs s (storeRegs c s vm.vmcs) = true ∧
        t = leftState c s vm p status hcall v0 v1 := by
  unfold leaveVm
  cases h : vmcsOf c s .vmcsExit vm with
  | error r => simp
  | ok v =>
    obtain ⟨rfl, -⟩ := vmcsOf_ok.mp h
    cases h2 : structureAt c vm.vmcs.vmregs vmregsBytes with
    | error r => simp [h2]
    | ok u =>
      cases h3 : regionsClash s <;> cases h4 : keepsVmcs s (storeRegs c s vm.vmcs) <;>
        simp [h2, h4, leftState, eq_comm]

/-- Leaving is refused for its first reason (R43, R47, R57). -/
theorem leaveVm_error {vm : Vm} {p : Pending} {status : VmStatus} {hcall : Bool} {v0 v1 : Word} {r : Refusal} :
    leaveVm c s vm p status hcall v0 v1 = .error r ↔
      vmcsOf c s .vmcsExit vm = .error r ∨
      (vmcsOf c s .vmcsExit vm = .ok vm.vmcs ∧ structureAt c vm.vmcs.vmregs vmregsBytes = .error r) ∨
      (vmcsOf c s .vmcsExit vm = .ok vm.vmcs ∧ structureAt c vm.vmcs.vmregs vmregsBytes = .ok () ∧
        ((regionsClash s = true ∧ r = .vmregsOverlap) ∨
         (regionsClash s = false ∧ keepsVmcs s (storeRegs c s vm.vmcs) = false ∧ r = .vmcsChanged))) := by
  unfold leaveVm
  cases h : vmcsOf c s .vmcsExit vm with
  | error r => simp
  | ok v =>
    obtain ⟨rfl, -⟩ := vmcsOf_ok.mp h
    cases h2 : structureAt c vm.vmcs.vmregs vmregsBytes with
    | error r => simp [h2]
    | ok u =>
      cases h3 : regionsClash s <;> cases h4 : keepsVmcs s (storeRegs c s vm.vmcs) <;> simp [h2, h4, eq_comm]

/-- The state EnterVM leaves (R158), given the vmcs. -/
def enteredState (c : Config) (s : State) (vm : Vm) (reentry delivers : Bool) : State :=
  { s with
    hsave := s.xs c
    regs := loadRegs c s vm.vmcs
    g := true
    curvm := some vm.num
    fetch := s.fetch.enter (entrySeen s vm reentry delivers (regGet (loadRegs c s vm.vmcs) ipReg))
    excMark := 0 }

theorem enterVm_ok {vm : Vm} {reentry delivers : Bool} :
    enterVm c s vm reentry delivers = .ok t ↔
      vmcsOf c s .vmcsEnter vm = .ok vm.vmcs ∧ structureAt c vm.vmcs.vmregs vmregsBytes = .ok () ∧
        regionsClash s = false ∧ t = enteredState c s vm reentry delivers := by
  unfold enterVm
  cases h : vmcsOf c s .vmcsEnter vm with
  | error r => simp
  | ok v =>
    obtain ⟨rfl, -⟩ := vmcsOf_ok.mp h
    cases h2 : structureAt c vm.vmcs.vmregs vmregsBytes with
    | error r => simp [h2]
    | ok u =>
      cases h3 : regionsClash s
      · simp only [h2, enteredState]
        simp [eq_comm]
      · simp only [h2]
        simp

/-- Entering is refused for its first reason (R43, R47, R57). -/
theorem enterVm_error {vm : Vm} {reentry delivers : Bool} {r : Refusal} :
    enterVm c s vm reentry delivers = .error r ↔
      vmcsOf c s .vmcsEnter vm = .error r ∨
      (vmcsOf c s .vmcsEnter vm = .ok vm.vmcs ∧ structureAt c vm.vmcs.vmregs vmregsBytes = .error r) ∨
      (vmcsOf c s .vmcsEnter vm = .ok vm.vmcs ∧ structureAt c vm.vmcs.vmregs vmregsBytes = .ok () ∧
        regionsClash s = true ∧ r = .vmregsOverlap) := by
  unfold enterVm
  cases h : vmcsOf c s .vmcsEnter vm with
  | error r => simp
  | ok v =>
    obtain ⟨rfl, -⟩ := vmcsOf_ok.mp h
    cases h2 : structureAt c vm.vmcs.vmregs vmregsBytes with
    | error r => simp [h2]
    | ok u => cases h3 : regionsClash s <;> simp [h2, eq_comm]

theorem applyEffect_next {e : Effect} :
    applyEffect c s e o = .next t ↔
      hitsLive c s e = false ∧ keepsVmcs s (commit c s e o).mem = true ∧
        (s.me = true → s.g = false → (commit c s e o).xm c = false) ∧ t = commit c s e o := by
  unfold applyEffect
  cases hl : hitsLive c s e
  · cases hk : keepsVmcs s (commit c s e o).mem
    · simp
    · cases hm : s.me <;> cases hg : s.g <;> cases hx : (commit c s e o).xm c <;> simp [eq_comm]
  · simp

/-- An effect leaves every vmcs as it was (R43). -/
theorem applyEffect_keepsVmcs {e : Effect} (h : applyEffect c s e o = .next t) : keepsVmcs s t.mem = true := by
  obtain ⟨_, hk, _, rfl⟩ := applyEffect_next.mp h
  exact hk

/-- A register store leaves every vmcs as it was (R43). -/
theorem leaveVm_keepsVmcs {vm : Vm} {p : Pending} {status : VmStatus} {hcall : Bool} {v0 v1 : Word}
    (h : leaveVm c s vm p status hcall v0 v1 = .ok t) : keepsVmcs s t.mem = true := by
  obtain ⟨_, _, _, hk, rfl⟩ := leaveVm_ok.mp h
  simpa only [leftState] using hk

/-- What a delivery leaves: the effect of the base ISA's delivery, in supervisor mode. -/
theorem deliverTo_next {n : Nat} {ret : Word} {cause : Cause} (h : deliverTo c s n ret cause o = .next t) :
    t = commit c s (handlerEffect c (c.deliver (view c s .deliver) n ret cause)) o := (applyEffect_next.mp h).2.2.2

/-- A delivery changes nothing of the extension's state, and in Hypervisor mode it leaves supervisor mode (R36 (b)). -/
theorem deliverTo_keeps {n : Nat} {ret : Word} {cause : Cause} (h : deliverTo c s n ret cause o = .next t) :
    SameVirt s t ∧ (s.me = true → s.g = false → t.xm c = false) := by
  obtain ⟨_, _, hx, rfl⟩ := applyEffect_next.mp h
  exact ⟨sameVirt_commit c s _ o, hx⟩

theorem applyEffect_keeps {e : Effect} (h : applyEffect c s e o = .next t) :
    SameVirt s t ∧ (s.me = true → s.g = false → t.xm c = false) := by
  obtain ⟨_, _, hx, rfl⟩ := applyEffect_next.mp h
  exact ⟨sameVirt_commit c s _ o, hx⟩

theorem deliverDrawn_keeps {n : Nat} {cause : Cause} (h : deliverDrawn c s n cause o = .next t) :
    SameVirt s t ∧ (s.me = true → s.g = false → t.xm c = false) := by
  obtain ⟨h1, h2⟩ := deliverTo_keeps h
  exact ⟨(sameVirt_tick s).trans h1, h2⟩

/-- After a transfer to the hypervisor: it goes on at the new `ip`, or takes XA or PF on it. -/
theorem checkHypervisorIp_next (h : checkHypervisorIp c s = .next t) :
    (fetchCheck c s .dest s.ip = .ok ∧ t = s) ∨
      ∃ n : Fin 16, deliverDrawn c s n.val (.address s.ip) = .next t := by
  unfold checkHypervisorIp at h
  split at h
  · cases h; exact .inl ⟨by assumption, rfl⟩
  · exact .inr ⟨_, h⟩
  · exact .inr ⟨_, h⟩

theorem checkHypervisorIp_keeps (h : checkHypervisorIp c s = .next t) :
    SameVirt s t ∧ (s.me = true → s.g = false → s.xm c = false → t.xm c = false) := by
  rcases checkHypervisorIp_next h with ⟨_, rfl⟩ | ⟨n, h⟩
  · exact ⟨SameVirt.refl _, fun _ _ h => h⟩
  · obtain ⟨h1, h2⟩ := deliverDrawn_keeps h
    exact ⟨h1, fun a b _ => h2 a b⟩

/-- Trap entry (R151): the VM is left with the signal set, then the hypervisor's new `ip` is checked. -/
theorem trapToHypervisor_next {vm : Vm} {k : Fin 17} (h : trapToHypervisor c s vm k = .next t) :
    ∃ s1, exitVm c (s.setIp (returnIp c s k.val)) vm (some k) (statusAfter vm k) false = .ok s1 ∧
      vmcsOf c s1 .vmcsTrap vm = .ok vm.vmcs ∧ structureAt c vm.vmcs.vmtrxtab vmtrxtabBytes = .ok () ∧
      checkHypervisorIp c (s1.setIp (physRead8 c s1 .vmtrxtab (trapEntryAddr vm.vmcs k))) = .next t := by
  unfold trapToHypervisor at h
  obtain ⟨s1, h1, h⟩ := orRefuse_next.mp h
  obtain ⟨v, h2, h⟩ := orRefuse_next.mp h
  obtain ⟨u, h3, h⟩ := orRefuse_next.mp h
  obtain ⟨rfl, -⟩ := vmcsOf_ok.mp h2
  exact ⟨s1, h1, h2, h3, h⟩

/-- Routing (R150). -/
theorem raise_next {n : Fin 16} {cause : Cause} (h : raise c s n cause = .next t) :
    (s.g = true ∧ s.trx n = true ∧
      ∃ vm, s.curVm? = some vm ∧ trapToHypervisor c s vm ⟨n.val, by omega⟩ = .next t) ∨
      ((s.g = false ∨ s.trx n = false) ∧ deliver c s n.val cause = .next t) := by
  unfold raise at h
  split at h
  · rename_i hg
    simp only [Bool.and_eq_true] at hg
    split at h
    · simp at h
    · rename_i vm hvm
      exact .inl ⟨hg.1, hg.2, vm, hvm, h⟩
  · rename_i hg
    refine .inr ⟨?_, h⟩
    cases hg1 : s.g <;> cases hg2 : s.trx n <;> simp_all

/-- With `G = 0` an exception is the context's own (R150, R167). -/
theorem raise_outside {n : Fin 16} {cause : Cause} (h : s.g = false) : raise c s n cause = deliver c s n.val cause := by
  simp [raise, h]

/-- After an entry: the VM goes on at its `ip`, or takes XA or PF on it. -/
theorem checkVmIp_next (h : checkVmIp c s = .next t) :
    (fetchCheck c s .vmDest s.ip = .ok ∧ t = s) ∨ ∃ n : Fin 16, raise c s n (.address s.ip) = .next t := by
  unfold checkVmIp at h
  split at h
  · cases h; exact .inl ⟨by assumption, rfl⟩
  · exact .inr ⟨_, h⟩
  · exact .inr ⟨_, h⟩

/-- What a class of identifiers says of the table (R156). -/
theorem ctxClass_live {id : Word} {vm : Vm} {p : Pending} (h : ctxClass c s id = .live vm p) :
    ctxDecode c id = some (vm.num, p) ∧ vmFind s.vms vm.num = some vm ∧ vm.status = .active := by
  unfold ctxClass at h
  split at h
  · simp at h
  · rename_i n q hd
    split at h
    · rename_i w hw
      split at h
      · simp at h
      · rename_i hs
        cases h
        obtain ⟨_, hn⟩ := vmFind_mem hw
        subst hn
        refine ⟨hd, hw, ?_⟩
        cases hst : vm.status <;> simp_all
    · split at h
      · simp at h
      · split at h <;> simp at h

theorem ctxClass_reset {id : Word} {vm : Vm} (h : ctxClass c s id = .reset vm) :
    vmFind s.vms vm.num = some vm ∧ vm.status = .reset := by
  unfold ctxClass at h
  split at h
  · simp at h
  · rename_i n q hd
    split at h
    · rename_i w hw
      split at h
      · rename_i hs
        cases h
        obtain ⟨_, hn⟩ := vmFind_mem hw
        subst hn
        exact ⟨hw, hs⟩
      · simp at h
    · split at h
      · simp at h
      · split at h <;> simp at h

/-- Registers restored at an exit (R159). -/
theorem restoredRegs_r0 (s : State) (v0 v1 : Word) : regGet (restoredRegs s v0 v1) r0 = v0 := by simp [restoredRegs]

theorem restoredRegs_r1 (s : State) (v0 v1 : Word) : regGet (restoredRegs s v0 v1) r1 = v1 := by
  simp [restoredRegs, r0, r1]

theorem restoredRegs_other (s : State) (v0 v1 : Word) {i : RegNo} (h0 : i ≠ r0) (h1 : i ≠ r1) :
    regGet (restoredRegs s v0 v1) i = regGet s.hsave i := by simp [restoredRegs, h0, h1]

/-- Registers loaded at an entry (R44). -/
theorem loadRegs_get (c : Config) (s : State) (v : Vmcs) (i : RegNo) :
    regGet (loadRegs c s v) i =
      if regAvail c (loadRegs c s v) i then physRead8 c s .vmregs (slotAddr v i) else s.x c i := by
  unfold loadRegs
  rw [loadFrom_entered c s (slotImage c s v) i, show regGet (slotImage c s v) i = _ from regGet_regsOf _ i]

/-- Memory stays canonical through an effect and a register store. -/
theorem commit_mem_wf {e : Effect} (h : memWf s.mem = true) : memWf (commit c s e o).mem = true := by
  unfold commit; split
  · exact h
  · exact memWriteAll_wf _ h

/-- An effect records the changes it makes, and is a branch or none. -/
theorem commit_fetch (c : Config) (s : State) (e : Effect) (o : Origin) :
    FetchStep s.fetch (commit c s e o).fetch := by
  unfold commit; split
  · exact FetchStep.refl _
  · cases e.branch
    · exact fetchStep_record _ _
    · exact (fetchStep_record _ _).trans (fetchStep_branch _)

theorem storeRegs_wf {v : Vmcs} (h : memWf s.mem = true) : memWf (storeRegs c s v) = true := memWriteAll_wf _ h

/-- Address 0 fits, and a fitting range is one from 0 up. -/
theorem fits_iff (a : Word) (n : Nat) : fits a n = true ↔ a.toNat < 2 ^ n := by
  unfold fits
  constructor
  · intro h
    rcases Bool.or_eq_true _ _ ▸ h with h | h
    · have : a = 0 := by simpa using h
      subst this
      exact Nat.two_pow_pos n
    · simpa using h
  · intro h; simp [h]

/-- All that makes a structure accessible (R57, R135): it is aligned, does not wrap past 2^64, and its first and last byte are
implemented. -/
theorem structureAt_ok {pa : Word} {len : Nat} :
    structureAt c pa len = .ok () ↔
      pa.extractLsb' 0 3 = 0 ∧ pa.toNat + len ≤ 2 ^ 64 ∧ implemented c pa = true ∧ implemented c (wordAddr pa (len - 1)) = true := by
  unfold structureAt
  split
  · simp_all
  · split <;> simp_all [and_assoc]

/-- R135, D25: an aligned structure that wraps past 2^64 is unbacked, whatever the CPU implements. -/
theorem structureAt_wrapping {pa : Word} {len : Nat} (ha : pa.extractLsb' 0 3 = 0) (h : 2 ^ 64 < pa.toNat + len) :
    structureAt c pa len = .error .unbackedStructure := by
  unfold structureAt
  rw [if_neg (by simp [ha]), if_neg]
  simp only [Bool.and_eq_true, decide_eq_true_eq]
  omega

/-- A structure that can be accessed is implemented memory, every byte of it (R57): the first and the last byte tell. -/
theorem structureAt_implemented {pa : Word} {len : Nat} (h : structureAt c pa len = .ok ()) :
    ∀ k, k < len → implemented c (wordAddr pa k) = true := by
  intro k hk
  obtain ⟨-, hw, -, hb⟩ := structureAt_ok.mp h
  simp only [implemented, fits_iff, wordAddr, BitVec.toNat_add, BitVec.toNat_ofNat] at hb ⊢
  have h64 := pa.isLt
  omega

/-! ## The VMs of all CPUs (R43, R47). -/

/-- Regions of different CPUs are apart. -/
theorem regionsClash_false : regionsClash s = false ↔
    (∀ vm ∈ s.vms, ∀ q ∈ s.otherVms, regionsOverlap q.vmregs vm.vmcs.vmregs = false) ∧ othersClash s.otherVms = false := by
  simp [regionsClash]

/-- Regions stay apart where the VMs of this CPU have regions they had before, and those of the others stay. -/
theorem regionsClash_mono (h : regionsClash s = false) (ho : t.otherVms = s.otherVms)
    (hv : ∀ w ∈ t.vms, ∃ u ∈ s.vms, u.vmcs.vmregs = w.vmcs.vmregs) : regionsClash t = false := by
  obtain ⟨h1, h2⟩ := regionsClash_false.mp h
  refine regionsClash_false.mpr ⟨fun w hw q hq => ?_, ho ▸ h2⟩
  obtain ⟨u, hu, he⟩ := hv w hw
  exact he ▸ h1 u hu q (ho ▸ hq)

theorem regionsClash_congr (hv : t.vms = s.vms) (ho : t.otherVms = s.otherVms) : regionsClash t = regionsClash s := by
  simp [regionsClash, hv, ho]

/-- The 32 bytes of every vmcs are what they were. -/
theorem keepsVmcs_iff {m : Memory} : keepsVmcs s m = true ↔
    ∀ pa ∈ vmcsAddrs s, ∀ k, k < 32 → memRead m (wordAddr pa k).toNat = memRead s.mem (wordAddr pa k).toNat := by
  simp [keepsVmcs, vmcsBytes]

theorem keepsVmcs_congr (hv : t.vms = s.vms) (ho : t.otherVms = s.otherVms) (hm : t.mem = s.mem) :
    keepsVmcs t = keepsVmcs s := by
  funext m
  simp [keepsVmcs, vmcsAddrs, hv, ho, hm]

/-! ## Effects do not depend on how many CPUs there are (R134). -/

theorem placeWrites_ncpu (c : Config) (s : State) (n k : Nat) (l : List (Ref × Byte)) :
    placeWrites { c with ncpuRaw := n } s k l = placeWrites c s k l := by
  induction l generalizing k with
  | nil => rfl
  | cons p l ih => obtain ⟨a, b⟩ := p; unfold placeWrites; rw [ih]; cases a <;> rfl

theorem applyEffect_ncpu (c : Config) (s : State) (n : Nat) (e : Effect) (o : Origin) :
    applyEffect { c with ncpuRaw := n } s e o = applyEffect c s e o := by
  simp only [applyEffect, hitsLive, commit, placeWrites_ncpu]; rfl

end Sys2Proof.Laws
end

