-- ==== Sys2Proof/Laws/Structures.lean ====
section
/-! SUPPORT. The structures in memory (20_memory.md): what implicit accesses depend on, where slots lie, what StoreRegs writes,
what a live register region is protected from. -/

namespace Sys2Proof.Laws

open Sys2Proof.Machine

variable {c : Config} {s t : State} {o : Origin}

/-- Two states give implicit accesses the same answers: memory, what decides the live register regions, and the draws. -/
structure SameHost (s t : State) : Prop where
  mem : t.mem = s.mem
  live : liveRegions t = liveRegions s
  drawCtr : t.drawCtr = s.drawCtr

theorem sameHost_setReg (s : State) (i : RegNo) (v : Word) : SameHost s (s.setReg i v) := by constructor <;> rfl

theorem sameHost_setIp (s : State) (v : Word) : SameHost s (s.setIp v) := by constructor <;> rfl

theorem sameHost_advance (s : State) (n : Nat) : SameHost s (s.advance n) := by constructor <;> rfl

theorem SameHost.hostByte (h : SameHost s t) : hostByte c t = hostByte c s := by
  funext p k pa
  unfold Machine.hostByte isLive
  rw [h.live, h.mem, h.drawCtr]

theorem SameHost.physRead8 (h : SameHost s t) : physRead8 c t = physRead8 c s := by
  funext p pa
  simp only [Machine.physRead8, h.hostByte]

theorem SameHost.vmcsOf (h : SameHost s t) : vmcsOf c t = vmcsOf c s := by
  funext p vm
  simp only [Machine.vmcsOf, readVmcs, h.physRead8]

theorem SameHost.readVmcs (h : SameHost s t) : readVmcs c t = readVmcs c s := by
  funext p pa
  simp only [Machine.readVmcs, h.physRead8]

theorem SameHost.slotImage (h : SameHost s t) : slotImage c t = slotImage c s := by
  funext v
  simp only [Machine.slotImage, h.physRead8]

/-- What StoreRegs writes depends on the registers alone (R45). -/
theorem slotWrites_congr (hr : t.regs = s.regs) : slotWrites c t = slotWrites c s := by
  funext v
  simp only [slotWrites, hr]

/-- Storing registers looks at the registers and memory alone (R45). -/
theorem storeRegs_congr (hr : t.regs = s.regs) (hm : t.mem = s.mem) : storeRegs c t = storeRegs c s := by
  funext v
  simp only [storeRegs, slotWrites_congr hr, hm]

/-- A byte of one region lies in no region disjoint from it. -/
theorem inRegion_of_disjoint {o v : Word} (h : regionsOverlap o v = false) {off : Nat} (hoff : off < vmregsBytes) :
    inRegion o (v + BitVec.ofNat 64 off) = false := by
  unfold regionsOverlap inRegion vmregsBytes at h
  unfold inRegion vmregsBytes
  unfold vmregsBytes at hoff
  obtain ⟨h1, h2⟩ := Bool.or_eq_false_iff.mp h
  have h1 := of_decide_eq_false h1
  have h2 := of_decide_eq_false h2
  apply decide_eq_false
  have ho := o.isLt
  have hv := v.isLt
  simp only [BitVec.toNat_sub, BitVec.toNat_add, BitVec.toNat_ofNat] at h1 h2 ⊢
  omega

theorem slot_wordAddr (v : Vmcs) (i : RegNo) (k : Nat) :
    wordAddr (slotAddr v i) k = v.vmregs + BitVec.ofNat 64 (8 * i.val + k) := by
  unfold wordAddr slotAddr
  rw [BitVec.add_assoc, ← BitVec.ofNat_add]

/-- Outside a VM, the slots of a region disjoint from those of the other CPUs' VMs hold what memory holds (R46). -/
theorem physRead8_slot (hg : s.g = false) {v : Vmcs} (hd : ∀ o ∈ s.otherVms, regionsOverlap o.vmregs v.vmregs = false)
    (i : RegNo) : physRead8 c s .vmregs (slotAddr v i) = wordOf fun k => memRead s.mem (wordAddr (slotAddr v i) k).toNat := by
  have key : ∀ k, k < 8 → hostByte c s .vmregs k (wordAddr (slotAddr v i) k) = memRead s.mem (wordAddr (slotAddr v i) k).toNat := by
    intro k hk
    have : isLive s (wordAddr (slotAddr v i) k) = false := by
      simp only [isLive, liveRegions, hg, List.any_eq_false]
      intro r hr
      simp only [Bool.false_eq_true, if_false, List.nil_append, List.mem_map, List.mem_filter] at hr
      obtain ⟨o, ⟨ho, -⟩, rfl⟩ := hr
      rw [slot_wordAddr v i k, inRegion_of_disjoint (hd o ho)]
      · simp
      · have := i.isLt; simp only [vmregsBytes]; omega
    unfold hostByte
    rw [this, if_neg (by simp)]
  unfold physRead8 wordOf
  beta_reduce
  rw [key 0, key 1, key 2, key 3, key 4, key 5, key 6, key 7] <;> omega

theorem wordAddr_inj {pa : Word} {j k : Nat} (hj : j < 8) (hk : k < 8) (h : (wordAddr pa j).toNat = (wordAddr pa k).toNat) : j = k := by
  unfold wordAddr at h
  simp only [BitVec.toNat_add, BitVec.toNat_ofNat] at h
  have := pa.isLt
  omega

/-- The bytes of a word go to eight different addresses. -/
theorem wordWrites_nodup (pa v : Word) : ((wordWrites pa v).map Prod.fst).Nodup := by
  unfold wordWrites
  rw [List.map_map]
  refine List.Nodup.map_on ?_ List.nodup_range
  intro j hj k hk h
  simp only [List.mem_range] at hj hk
  exact wordAddr_inj hj hk h

theorem mem_wordWrites {pa v : Word} {w : Nat × Byte} : w ∈ wordWrites pa v ↔ ∃ k, k < 8 ∧ w = ((wordAddr pa k).toNat, byteOf v k) := by
  unfold wordWrites
  simp only [List.mem_map, List.mem_range]
  constructor
  · rintro ⟨k, hk, rfl⟩; exact ⟨k, hk, rfl⟩
  · rintro ⟨k, hk, rfl⟩; exact ⟨k, hk, rfl⟩

/-- Eight bytes that are those of a value make that value. -/
theorem wordOf_eq {b : Nat → Byte} {v : Word} (h : ∀ k, k < 8 → b k = byteOf v k) : wordOf b = v := by
  have : wordOf b = wordOf (byteOf v) := by
    unfold wordOf
    rw [h 0, h 1, h 2, h 3, h 4, h 5, h 6, h 7] <;> omega
  rw [this, wordOf_byteOf]

/-- What StoreRegs writes (R45). -/
theorem mem_slotWrites {v : Vmcs} {w : Nat × Byte} : w ∈ slotWrites c s v ↔
    ∃ i k, regAvail c s.regs i = true ∧ k < 8 ∧ w = ((wordAddr (slotAddr v i) k).toNat, byteOf (regGet s.regs i) k) := by
  unfold slotWrites
  simp only [List.mem_flatMap, List.mem_finRange, true_and]
  constructor
  · rintro ⟨i, hi⟩
    split at hi
    · obtain ⟨k, hk, rfl⟩ := mem_wordWrites.mp hi; exact ⟨i, k, ‹_›, hk, rfl⟩
    · simp at hi
  · rintro ⟨i, k, ha, hk, rfl⟩
    exact ⟨i, by rw [if_pos ha]; exact mem_wordWrites.mpr ⟨k, hk, rfl⟩⟩

theorem slot_inj {v : Vmcs} {i j : RegNo} {k l : Nat} (hk : k < 8) (hl : l < 8)
    (h : (wordAddr (slotAddr v i) k).toNat = (wordAddr (slotAddr v j) l).toNat) : i = j ∧ k = l := by
  rw [slot_wordAddr v i k, slot_wordAddr v j l] at h
  simp only [BitVec.toNat_add, BitVec.toNat_ofNat] at h
  have := v.vmregs.isLt
  have := i.isLt
  have := j.isLt
  constructor
  · apply Fin.ext; omega
  · omega

/-- The slots do not overlap (R30). -/
theorem slotWrites_nodup (v : Vmcs) : ((slotWrites c s v).map Prod.fst).Nodup := by
  unfold slotWrites
  rw [List.map_flatMap, List.nodup_flatMap]
  constructor
  · intro i _
    split
    · exact wordWrites_nodup _ _
    · simp
  · have : (List.finRange 256).Pairwise (fun a b => a ≠ b) := List.nodup_finRange 256
    refine this.imp ?_
    intro i j hij
    simp only [Function.onFun, List.Disjoint]
    intro a ha hb
    split at ha <;> split at hb
    · obtain ⟨w, hw, rfl⟩ := List.mem_map.mp ha
      obtain ⟨w', hw', he⟩ := List.mem_map.mp hb
      obtain ⟨k, hk, rfl⟩ := mem_wordWrites.mp hw
      obtain ⟨l, hl, rfl⟩ := mem_wordWrites.mp hw'
      exact hij (slot_inj hl hk he).1.symm
    · simp at hb
    · simp at ha
    · simp at ha

/-- Where effects' bytes go is no live register region. -/
theorem commit_live {e : Effect} (hl : hitsLive c s e = false) (hw : memWf s.mem = true) {pa : Word} (h : isLive s pa = true) :
    memRead (commit c s e o).mem pa.toNat = memRead s.mem pa.toNat := by
  unfold commit
  split
  · rfl
  · rename_i ws hws
    refine memRead_memWriteAll_other hw ?_
    intro w hww he
    have hne : (liveRegions s).isEmpty = false := by
      cases hlr : liveRegions s
      · simp [isLive, hlr] at h
      · rfl
    unfold hitsLive at hl
    rw [hne, hws] at hl
    simp only [Bool.not_false, Bool.true_and, Option.getD_some, List.any_eq_false] at hl
    have := hl w hww
    rw [he] at this
    simp [h] at this

end Sys2Proof.Laws
end

