-- ==== Sys2Proof/Laws/Transfers.lean ====
section
/-! SUPPORT. What a transfer, an exception or an arrival can do to the state of the extension, said once for each operation, with
what it keeps of memory's canonical form. -/

namespace Sys2Proof.Laws

open Sys2Proof.Machine

variable {c : Config} {s t u : State} {o : Origin}

/-- `t` is in the hypervisor after `s` left its VM, whose entry became `w` (R157, R159). -/
structure LeftVm (c : Config) (s t : State) (w : Vm) : Prop where
  mxcw : t.mxcw = s.mxcw
  g : t.g = false
  hsave : t.hsave = s.hsave
  curvm : t.curvm = s.curvm
  vms : t.vms = vmUpdate s.vms w
  retiredDestroyed : t.retiredDestroyed = s.retiredDestroyed
  retiredDisabled : t.retiredDisabled = s.retiredDisabled
  otherVms : t.otherVms = s.otherVms
  supervises : s.me = true → xm c (regGet s.hsave flagsReg) = false → t.xm c = false

/-- Memory stays canonical, and its changes are recorded. -/
structure MemStep (s t : State) : Prop where
  canonical : memWf s.mem = true → memWf t.mem = true
  fetch : FetchStep s.fetch t.fetch

theorem MemStep.trans (a : MemStep s t) (b : MemStep t u) : MemStep s u :=
  ⟨b.canonical ∘ a.canonical, a.fetch.trans b.fetch⟩

/-- Memory and its changes are the same. -/
theorem MemStep.of_eq (hm : t.mem = s.mem) (hf : t.fetch = s.fetch) : MemStep s t :=
  ⟨fun h => hm ▸ h, hf ▸ FetchStep.refl _⟩

/-- From a state with the same memory and changes. -/
theorem MemStep.before (h : MemStep t u) (hm : t.mem = s.mem) (hf : t.fetch = s.fetch) : MemStep s u :=
  (MemStep.of_eq hm hf).trans h

theorem applyEffect_mem {e : Effect} (h : applyEffect c s e o = .next t) : MemStep s t := by
  obtain ⟨_, _, _, rfl⟩ := applyEffect_next.mp h
  exact ⟨commit_mem_wf, commit_fetch c s e o⟩

theorem deliverTo_mem {n : Nat} {ret : Word} {cause : Cause} (h : deliverTo c s n ret cause o = .next t) : MemStep s t := by
  unfold deliverTo at h
  exact applyEffect_mem h

theorem deliverDrawn_mem {n : Nat} {cause : Cause} (h : deliverDrawn c s n cause o = .next t) : MemStep s t := by
  unfold deliverDrawn at h
  exact (deliverTo_mem h).before rfl rfl

theorem checkHypervisorIp_mem (h : checkHypervisorIp c s = .next t) : MemStep s t := by
  rcases checkHypervisorIp_next h with ⟨_, rfl⟩ | ⟨n, h⟩
  · exact .of_eq rfl rfl
  · exact deliverDrawn_mem h

/-- What leaving a VM does (R157, R159). -/
theorem leaveVm_left {vm : Vm} {p : Pending} {status : VmStatus} {hcall : Bool} {v0 v1 : Word}
    (h : leaveVm c s vm p status hcall v0 v1 = .ok t) :
    LeftVm c s t (exitedVm s vm p status hcall) ∧ MemStep s t := by
  obtain ⟨_, _, _, _, rfl⟩ := leaveVm_ok.mp h
  refine ⟨?_, ?_⟩
  · constructor <;> simp only [leftState]
    intro _ hx
    simpa [State.xm, State.flags, restoredRegs_other _ _ _ (show flagsReg ≠ r0 by decide) (show flagsReg ≠ r1 by decide)]
      using hx
  · exact ⟨fun hm => by simpa only [leftState] using storeRegs_wf hm, by simpa only [leftState] using fetchStep_exit _ _ _⟩

/-- Leaving, then something that keeps the extension's state. -/
theorem LeftVm.then {w : Vm} (h : LeftVm c s t w) (k : SameVirt t u)
    (hx : t.me = true → t.g = false → t.xm c = false → u.xm c = false) : LeftVm c s u w := by
  have hme : t.me = s.me := by simp [State.me, h.mxcw]
  exact {
    mxcw := k.mxcw.trans h.mxcw
    g := k.g.trans h.g
    hsave := k.hsave.trans h.hsave
    curvm := k.curvm.trans h.curvm
    vms := k.vms.trans h.vms
    retiredDestroyed := k.retiredDestroyed.trans h.retiredDestroyed
    retiredDisabled := k.retiredDisabled.trans h.retiredDisabled
    otherVms := k.otherVms.trans h.otherVms
    supervises := fun a b => hx (hme.trans a) h.g (h.supervises a b) }

/-- Leaving from a state that agrees with another on the extension's state. -/
theorem LeftVm.from {w : Vm} (k : SameVirt s t) (h : LeftVm c t u w) : LeftVm c s u w := by
  have hme : t.me = s.me := k.me
  exact {
    mxcw := h.mxcw.trans k.mxcw
    g := h.g
    hsave := h.hsave.trans k.hsave
    curvm := h.curvm.trans k.curvm
    vms := by rw [h.vms, k.vms]
    retiredDestroyed := h.retiredDestroyed.trans k.retiredDestroyed
    retiredDisabled := h.retiredDisabled.trans k.retiredDisabled
    otherVms := h.otherVms.trans k.otherVms
    supervises := fun a b => h.supervises (hme.trans a) (by rw [k.hsave]; exact b) }

theorem sameVirt_setIp (s : State) (v : Word) : SameVirt s (s.setIp v) := by constructor <;> rfl

theorem sameVirt_advance (s : State) (n : Nat) : SameVirt s (s.advance n) := by constructor <;> rfl

/-- A trapped exception leaves the VM, its entry signalling it (R151, R153). -/
theorem trapToHypervisor_left {vm : Vm} {k : Fin 17} (h : trapToHypervisor c s vm k = .next t) :
    (∃ w, LeftVm c s t w ∧ w = exitedVm (s.setIp (returnIp c s k.val)) vm (some k) (statusAfter vm k) false) ∧ MemStep s t := by
  obtain ⟨s1, h1, _, _, h4⟩ := trapToHypervisor_next h
  obtain ⟨hl, hm⟩ := leaveVm_left h1
  obtain ⟨hk, hx⟩ := checkHypervisorIp_keeps h4
  refine ⟨⟨_, (LeftVm.from (sameVirt_setIp s _) hl).then ((sameVirt_setIp s1 _).trans hk) ?_, rfl⟩, ?_⟩
  · intro a b hxm
    exact hx (by simpa [State.me] using a) (by simpa using b) (by simpa using hxm)
  · exact (hm.trans ((checkHypervisorIp_mem h4).before rfl rfl)).before rfl rfl

/-- An exception (R150): the VM is left where TRX says so, else nothing of the extension's state changes. -/
theorem raise_outcome {n : Fin 16} {cause : Cause} (h : raise c s n cause = .next t) :
    ((s.g = true ∧ s.trx n = true ∧ ∃ vm w, s.curVm? = some vm ∧ LeftVm c s t w ∧
        w = exitedVm (s.setIp (returnIp c s n.val)) vm (some (n.castLE (by decide))) vm.status false) ∨
      (SameVirt s t ∧ (s.me = true → s.g = false → t.xm c = false))) ∧ MemStep s t := by
  rcases raise_next h with ⟨hg, ht, vm, hv, h⟩ | ⟨_, h⟩
  · obtain ⟨⟨w, hl, hw⟩, hm⟩ := trapToHypervisor_left h
    refine ⟨.inl ⟨hg, ht, vm, w, hv, hl, ?_⟩, hm⟩
    rw [hw]
    have : statusAfter vm ⟨n.val, by omega⟩ = vm.status := by
      unfold statusAfter
      rw [if_neg]
      intro he
      have h16 : n.val = 16 := congrArg Fin.val he
      have := n.isLt
      omega
    rw [this]
    rfl
  · unfold deliver at h
    exact ⟨.inr (deliverTo_keeps h), deliverTo_mem h⟩

/-- With `G = 0` an exception keeps the extension's state. -/
theorem raise_outside_keeps {n : Fin 16} {cause : Cause} (hg : s.g = false) (h : raise c s n cause = .next t) :
    SameVirt s t ∧ (s.me = true → s.g = false → t.xm c = false) := by
  rw [raise_outside hg] at h
  unfold deliver at h
  exact deliverTo_keeps h

/-- A hypervisor's interrupt leaves the VM (R157). -/
theorem hvInterruptEntry_left {vm : Vm} {j : Nat} (h : hvInterruptEntry c s vm j = .next t) :
    (∃ w, LeftVm c s t w ∧ w = exitedVm s vm none vm.status false) ∧
      MemStep s t := by
  obtain ⟨s1, h1, h2⟩ := orRefuse_next.mp h
  obtain ⟨hl, hm⟩ := leaveVm_left h1
  obtain ⟨hk, hx⟩ := deliverDrawn_keeps h2
  have hst : SameVirt s s.tick.tick := (sameVirt_tick s).trans (sameVirt_tick s.tick)
  refine ⟨⟨_, (LeftVm.from hst hl).then hk fun a b _ => hx a b, ?_⟩, ?_⟩
  · simp [exitedVm, State.ip]
  · exact (hm.trans (deliverDrawn_mem h2)).before rfl rfl

/-- hcall transferred to the hypervisor (R80). -/
def Called (c : Config) (s t : State) : Prop :=
  s.mode c = .managedSupervisor ∧ MemStep s t ∧
    ∃ vm w, s.curVm? = some vm ∧ LeftVm c s t w ∧ w = exitedVm (s.advance 2) vm none vm.status true

/-- hcall transfers (R80), or raises. -/
theorem hcall_outcome {h : BitVec 4} (hh : hcallWith c h s = .next t) :
    (h = 0 ∧ Called c s t) ∨ (∃ n, raise c s n .virt = .next t) ∨
      (s.g = false ∧ ∃ n, deliverDrawn c s n .virt .own = .next t) := by
  unfold hcallWith at hh
  have und : hcallUnd c s = .next t →
      (∃ n, raise c s n .virt = .next t) ∨ (s.g = false ∧ ∃ n, deliverDrawn c s n .virt .own = .next t) := by
    intro h
    unfold hcallUnd at h
    split at h
    · rename_i hm
      exact .inr ⟨(mode_hypervisor.mp hm.1).2.2, _, h⟩
    · exact .inl ⟨_, h⟩
  split at hh
  · exact .inr (und hh)
  rename_i h0
  split at hh
  · exact .inr (.inl ⟨_, hh⟩)
  split at hh
  · exact .inr (und hh)
  rename_i hmode
  have hmode := not_not.mp hmode
  split at hh
  · simp at hh
  · rename_i vm hv
    refine .inl ⟨not_not.mp h0, hmode, ?_⟩
    obtain ⟨s1, h1, h2⟩ := orRefuse_next.mp hh
    obtain ⟨hl, hm⟩ := leaveVm_left h1
    obtain ⟨hk, hx⟩ := checkHypervisorIp_keeps h2
    have hp : SameVirt s1 (atHypervisorProcedure c s1) := by constructor <;> rfl
    have hxp : (atHypervisorProcedure c s1).xm c = s1.xm c := by
      simp only [State.xm, State.flags, atHypervisorProcedure_regs]
      rw [regGet_regSet_ne _ _ (by decide), regGet_regSet_ne _ _ (by decide)]
    refine ⟨?_, vm, _, hv, (LeftVm.from (sameVirt_advance s 2) hl).then (hp.trans hk) ?_, rfl⟩
    · exact (hm.trans ((checkHypervisorIp_mem h2).before rfl rfl)).before rfl rfl
    · intro a b e
      exact hx (by simpa [State.me] using a) (by simpa using b) (hxp.trans e)

/-- A RESET outside a VM resets the CPU (R180); inside one it leaves the VM (R153). -/
theorem resetEvent_outcome (h : resetEvent c s = .next t) :
    (s.g = false ∧ t = cpuReset s) ∨
      (s.g = true ∧ (∃ vm w, s.curVm? = some vm ∧ LeftVm c s t w ∧
        w = exitedVm (s.setIp (returnIp c s 16)) vm (some 16) .reset false) ∧ MemStep s t) := by
  unfold resetEvent at h
  split at h
  · rename_i hg
    split at h
    · simp at h
    · rename_i vm hv
      obtain ⟨⟨w, hl, hw⟩, hm⟩ := trapToHypervisor_left h
      exact .inr ⟨hg, ⟨vm, w, hv, hl, hw⟩, hm⟩
  · rename_i hg
    cases h
    exact .inl ⟨by simpa using hg, rfl⟩

end Sys2Proof.Laws
end

