-- ==== Sys2Proof/Laws/Step.lean ====
section
/-! SUPPORT. Everything a step can do to the state of the extension, said once (`step_kinds`): the whole-machine statements are
read off it, and no proof unfolds the step. -/

namespace Sys2Proof.Laws

open Sys2Proof.Machine

variable {c : Config} {s t u : State} {o : Origin}

/-- Nothing of the extension's state changes, and Hypervisor mode stays a supervisor's. -/
structure Kept (c : Config) (s t : State) : Prop where
  same : SameVirt s t
  supervises : s.me = true → s.g = false → s.xm c = false → t.xm c = false
  mem : MemStep s t

/-- Why a VM was left (R155), but for hcall (`Called`) and the hypervisor's interrupt (`Interrupted`). -/
def ExitCause (s : State) (vm : Vm) (w : Vm) : Prop :=
  (∃ (ip : Word) (n : Fin 16), s.trx n = true ∧
    w = exitedVm (s.setIp ip) vm (some (n.castLE (by decide))) vm.status false) ∨
  (∃ ip : Word, w = exitedVm (s.setIp ip) vm (some 16) .reset false)

/-- The VM was left for one of those causes. -/
def Exited (c : Config) (s t : State) : Prop :=
  s.g = true ∧ MemStep s t ∧
    ∃ vm w, s.curVm? = some vm ∧ LeftVm c s t w ∧ ExitCause s vm w

/-- What an operation does that is no management operation of the hypervisor. -/
def Ordinary (c : Config) (s t : State) : Prop := Kept c s t ∨ Exited c s t

theorem Kept.refl (c : Config) (s : State) : Kept c s s := ⟨SameVirt.refl s, fun _ _ h => h, .of_eq rfl rfl⟩

theorem kept_applyEffect {e : Effect} (h : applyEffect c s e o = .next t) : Kept c s t := by
  obtain ⟨h1, h2⟩ := applyEffect_keeps h
  exact ⟨h1, fun a b _ => h2 a b, applyEffect_mem h⟩

theorem kept_deliverTo {n : Nat} {ret : Word} {cause : Cause} (h : deliverTo c s n ret cause o = .next t) :
    Kept c s t := by
  unfold deliverTo at h
  exact kept_applyEffect h

theorem kept_deliver {n : Nat} {cause : Cause} (h : deliver c s n cause = .next t) : Kept c s t := kept_deliverTo h

theorem kept_deliverDrawn {n : Nat} {cause : Cause} (h : deliverDrawn c s n cause o = .next t) : Kept c s t := by
  obtain ⟨h1, h2⟩ := deliverDrawn_keeps h
  exact ⟨h1, fun a b _ => h2 a b, deliverDrawn_mem h⟩

theorem ordinary_raise {n : Fin 16} {cause : Cause} (h : raise c s n cause = .next t) : Ordinary c s t := by
  obtain ⟨⟨hg, ht, vm, w, hv, hl, hw⟩ | ⟨hk, hx⟩, hm⟩ := raise_outcome h
  · exact .inr ⟨hg, hm, vm, w, hv, hl, .inl ⟨_, n, ht, hw⟩⟩
  · exact .inl ⟨hk, fun a b _ => hx a b, hm⟩

theorem ordinary_hcall {b : BitVec 4} (h : hcallWith c b s = .next t) : (b = 0 ∧ Called c s t) ∨ Ordinary c s t := by
  rcases hcall_outcome h with h | ⟨n, h⟩ | ⟨_, n, h⟩
  · exact .inl h
  · exact .inr (ordinary_raise h)
  · exact .inr (.inl (kept_deliverDrawn h))

/-- What EnterVM does (R158). -/
structure EnteredVm (c : Config) (s t : State) (vm : Vm) : Prop where
  mxcw : t.mxcw = s.mxcw
  g : t.g = true
  hsave : ∀ i, i ≠ ipReg → regGet t.hsave i = s.x c i
  curvm : t.curvm = some vm.num
  vms : t.vms = s.vms
  retiredDestroyed : t.retiredDestroyed = s.retiredDestroyed
  retiredDisabled : t.retiredDisabled = s.retiredDisabled
  otherVms : t.otherVms = s.otherVms
  apart : regionsClash s = false
  mem : vm.seen ≤ s.fetch.changes.length → s.fetch.wf = true → MemStep s t

theorem enterVm_entered {vm : Vm} {re del : Bool} {n : Nat} (h : enterVm c (s.advance n) vm re del = .ok t) :
    EnteredVm c s t vm := by
  obtain ⟨_, _, hd, rfl⟩ := enterVm_ok.mp h
  refine {
    mxcw := by simp only [enteredState, advance_mxcw]
    g := by simp only [enteredState]
    hsave := ?_
    curvm := by simp only [enteredState]
    vms := by simp only [enteredState, advance_vms]
    retiredDestroyed := by simp only [enteredState, advance_retiredDestroyed]
    retiredDisabled := by simp only [enteredState, advance_retiredDisabled]
    otherVms := by simp only [enteredState, advance_otherVms]
    apart := (regionsClash_congr rfl rfl).symm.trans hd
    mem := ?_ }
  · intro i hi
    simp only [enteredState, xs_get, State.x, advance_g, advance_regs]
    rw [regGet_regSet_ne _ _ (Ne.symm hi)]
    rfl
  · intro hv hw
    refine ⟨fun h => by simpa only [enteredState, advance_mem] using h, ?_⟩
    simp only [enteredState, advance_fetch]
    refine fetchStep_enter ?_
    unfold entrySeen
    split
    · exact (fetchView_wf.mp hw).1
    · split
      · exact Nat.le_refl _
      · exact hv

/-- hret or hresume entered a live VM (R92); from there on the VM's own business follows. -/
def Returned (c : Config) (s t : State) : Prop :=
  s.mode c = .hypervisor ∧ ∃ vm s1 s2, vmFind s.vms vm.num = some vm ∧ vm.status = .active ∧ EnteredVm c s s1 vm ∧
    (s2 = s1 ∨ (∃ n, vm.pending = some n) ∧ s2 = clearPending s1 vm) ∧ Ordinary c s2 t

theorem hvReturn_outcome {b : Bool} {h : BitVec 4} (hh : hvReturn c b h s = .next t) :
    Ordinary c s t ∨ Returned c s t := by
  unfold hvReturn at hh
  split at hh
  · exact .inl (ordinary_raise hh)
  split at hh
  · exact .inl (ordinary_raise hh)
  split at hh
  · exact .inl (ordinary_raise hh)
  rename_i hmode
  have hmode := not_not.mp hmode
  split at hh
  · exact .inl (.inl (kept_deliver hh))
  · exact .inl (.inl (kept_deliver hh))
  · simp at hh
  · simp at hh
  · rename_i vm p hc
    obtain ⟨_, hf, hst⟩ := ctxClass_live hc
    unfold returnToVm at hh
    split at hh
    · simp at hh
    rename_i hp
    obtain ⟨s1, h1, h2⟩ := orRefuse_next.mp hh
    have he := enterVm_entered h1
    right
    split at h2
    · rename_i n hn
      refine ⟨hmode, vm, s1, _, hf, hst, he, .inr ⟨⟨n, ?_⟩, rfl⟩, .inl (kept_deliverTo h2)⟩
      cases p with
      | none => simp [deliveredBy] at hn
      | some k =>
        cases b
        · simp [deliveredBy] at hn
        · simp [deliveredBy] at hn hp
          rw [hp, hn]
    · refine ⟨hmode, vm, s1, s1, hf, hst, he, .inl rfl, ?_⟩
      rcases checkVmIp_next h2 with ⟨_, rfl⟩ | ⟨n, h2⟩
      · exact .inl (Kept.refl c _)
      · exact ordinary_raise h2

/-- vmcreate created and entered a VM (R105); from there on the VM's own business follows. -/
def Created (c : Config) (s t : State) : Prop :=
  s.mode c = .hypervisor ∧ limitReached c s = false ∧ ∃ vm s1, vm.num = freshVmNum c s ∧ vm.status = .active ∧
    vm.pending = none ∧ vm.seen = 0 ∧ vmcsLegal c vm.vmcs = .ok () ∧ EnteredVm c (addVm s vm) s1 vm ∧
    Ordinary c s1 t

theorem vmcreate_outcome {h : BitVec 4} {src : List Byte} (hh : vmcreateWith c h src s = .next t) :
    Ordinary c s t ∨ Created c s t := by
  unfold vmcreateWith at hh
  split at hh
  · exact .inl (ordinary_raise hh)
  split at hh
  · exact .inl (ordinary_raise hh)
  rename_i hmode
  have hmode := not_not.mp hmode
  split at hh
  · exact .inl (.inl (kept_deliver hh))
  rename_i hlim
  split at hh
  · exact .inl (ordinary_raise hh)
  · rename_i pa _
    unfold createVm at hh
    obtain ⟨v, hv, hh⟩ := orRefuse_next.mp hh
    obtain ⟨_, hleg, hh⟩ := orRefuse_next.mp hh
    obtain ⟨s1, h1, hh⟩ := orRefuse_next.mp hh
    right
    refine ⟨hmode, by simpa using hlim, newVm (freshVmNum c s) pa v, s1, rfl, rfl, rfl, rfl, hleg, enterVm_entered h1, ?_⟩
    rcases checkVmIp_next hh with ⟨_, rfl⟩ | ⟨n, h2⟩
    · exact .inl (Kept.refl c _)
    · exact ordinary_raise h2

/-- vmdestroy disposed of a VM (R110). -/
def Destroyed (c : Config) (s t : State) : Prop :=
  s.mode c = .hypervisor ∧ ∃ vm, vmFind s.vms vm.num = some vm ∧ t = (removeVm s vm).advance 2

theorem vmdestroy_outcome {h : BitVec 4} (hh : vmdestroyWith c h s = .next t) : Ordinary c s t ∨ Destroyed c s t := by
  unfold vmdestroyWith at hh
  split at hh
  · exact .inl (ordinary_raise hh)
  split at hh
  · exact .inl (ordinary_raise hh)
  rename_i hmode
  have hmode := not_not.mp hmode
  split at hh
  · exact .inl (.inl (kept_deliver hh))
  · exact .inl (.inl (kept_deliver hh))
  · exact .inl (.inl (kept_deliver hh))
  · rename_i vm hc
    cases hh
    exact .inr ⟨hmode, vm, (ctxClass_reset hc).1, rfl⟩
  · rename_i vm p hc
    cases hh
    exact .inr ⟨hmode, vm, (ctxClass_live hc).2.1, rfl⟩

/-- The CPU was reset (R180). -/
def CpuReset (s t : State) : Prop := s.g = false ∧ t = cpuReset s

/-- mxcw was written from outside a VM (R143, R144). -/
def MxcwWritten (c : Config) (s t : State) : Prop :=
  s.g = false ∧ ∃ v, mxcwLegal v = true ∧ s.xm c = false ∧ Kept c (writeMxcw s v) t ∧
    ((writeMxcw s v).me = true → t.xm c = false)

theorem ioWrite_outcome {a v : Word} {wide : Bool} {e : Effect} (hx : s.g = false → s.xm c = false)
    (h : ioWrite c s a wide v e = .next t) : Ordinary c s t ∨ MxcwWritten c s t := by
  unfold ioWrite at h
  split at h
  · split at h
    · exact .inl (.inl (kept_applyEffect h))
    · rename_i hg
      have hg : s.g = false := by simpa using hg
      split at h
      · simp at h
      · rename_i hl
        have hg' : (writeMxcw s v).g = false := by
          unfold writeMxcw; split
          · simpa [disableManagement] using hg
          · exact hg
        refine .inr ⟨hg, v, by simpa using hl, hx hg, kept_applyEffect h, fun hme => ?_⟩
        exact (applyEffect_keeps h).2 hme hg'
  · split at h
    · simp at h
    · exact .inl (.inl (kept_applyEffect h))

theorem ioGate_next {k : Result} (h : ioGate c s k = .next t) :
    Ordinary c s t ∨ ((s.g = false → s.xm c = false) ∧ k = .next t) := by
  unfold ioGate at h
  split at h
  · simp at h
  obtain ⟨ok, ha, h⟩ := orRefuse_next.mp h
  cases ok
  · exact .inl (ordinary_raise (by simpa using h))
  · refine .inr ⟨fun hg => ?_, by simpa using h⟩
    simp only [ioAllowed, hg] at ha
    simpa using ha

theorem ordinary_reset (h : resetEvent c s = .next t) : CpuReset s t ∨ Ordinary c s t := by
  rcases resetEvent_outcome h with h | ⟨hg, ⟨vm, w, hv, hl, hw⟩, hm⟩
  · exact .inl h
  · exact .inr (.inr ⟨hg, hm, vm, w, hv, hl, .inr ⟨_, hw⟩⟩)

theorem registerGate_next {i : RegNo} {k : Result} (h : registerGate c s i k = .next t) : Ordinary c s t ∨ k = .next t := by
  unfold registerGate at h
  split at h
  · exact .inl (ordinary_raise h)
  split at h
  · exact .inl (ordinary_raise h)
  · exact .inr h

/-- What a base-ISA instruction does to the state of the extension. -/
theorem baseStep_outcome (h : baseStep c s = .next t) : Ordinary c s t ∨ CpuReset s t ∨ MxcwWritten c s t := by
  unfold baseStep at h
  split at h
  · exact .inl (.inl (kept_applyEffect h))
  · rcases ioGate_next h with h | ⟨_, h⟩
    · exact .inl h
    · exact .inl (.inl (kept_applyEffect h))
  · rcases ioGate_next h with h | ⟨hx, h⟩
    · exact .inl h
    · rcases ioWrite_outcome hx h with h | h
      · exact .inl h
      · exact .inr (.inr h)
  · unfold returnGate at h
    split at h
    · exact .inl (.inl (kept_deliver h))
    · exact .inl (.inl (kept_applyEffect h))
  · unfold returnGate at h
    split at h
    · exact .inl (.inl (kept_deliver h))
    · exact .inl (.inl (kept_applyEffect h))
  · unfold machineSpecificGate at h
    split at h
    · exact .inl (ordinary_raise h)
    · exact .inl (.inl (kept_applyEffect h))
  · unfold featureGate at h
    split at h
    · exact .inl (ordinary_raise h)
    · exact .inl (.inl (kept_applyEffect h))
  · rcases registerGate_next h with h | h
    · exact .inl h
    · exact .inl (.inl (kept_applyEffect h))
  · rcases registerGate_next h with h | h
    · exact .inl h
    · split at h
      · exact .inl (ordinary_raise h)
      · exact .inl (.inl (kept_applyEffect h))
  · exact .inl (ordinary_raise h)
  · rcases ordinary_reset h with h | h
    · exact .inr (.inl h)
    · exact .inl h

/-- The VMs of the other CPUs changed (R47). -/
def OthersChanged (s t : State) : Prop :=
  regionsClash t = false ∧ ∃ l, t = { s with otherVms := l }

/-- The hypervisor received an interrupt (R157). -/
def Interrupted (c : Config) (s t : State) (j : Nat) : Prop :=
  s.g = true ∧ c.hvInterrupt j = true ∧ MemStep s t ∧
    ∃ vm, s.curVm? = some vm ∧ LeftVm c s t (exitedVm s vm none vm.status false)

/-- What an arrival does to the state of the extension. -/
theorem takeEvent_outcome {e : Event} (h : takeEvent c s e = .next t) :
    Ordinary c s t ∨ CpuReset s t ∨ OthersChanged s t ∨ ∃ j, e = .interrupt j ∧ Interrupted c s t j := by
  unfold takeEvent at h
  split at h
  · rename_i j
    unfold takeInterrupt at h
    split at h
    · rename_i hg
      split at h
      · simp at h
      · rename_i vm hv
        unfold interruptInVm at h
        split at h
        · rename_i hj
          obtain ⟨⟨w, hl, rfl⟩, hm⟩ := hvInterruptEntry_left h
          exact .inr (.inr (.inr ⟨j, rfl, hg, hj, hm, vm, hv, hl⟩))
        · split at h
          · exact .inl (ordinary_raise h)
          · exact .inl (.inl (kept_deliver h))
    · exact .inl (.inl (kept_deliver h))
  · rcases ordinary_reset h with h | h
    · exact .inr (.inl h)
    · exact .inl h
  · unfold takeFurther at h
    split at h
    · exact .inl (.inl (kept_deliverDrawn h))
    · exact .inl (ordinary_raise h)
  · unfold takeAgentWrite at h
    split at h
    · simp at h
    split at h
    · cases h
      exact .inl (.inl (Kept.refl c _))
    split at h
    · simp at h
    · cases h
      refine .inl (.inl ⟨?_, fun _ _ hx => hx, ⟨fun hm => memWrite_wf _ _ hm, fetchStep_record _ _⟩⟩)
      constructor <;> rfl
  · rename_i l
    unfold takeOtherVms at h
    split at h
    · simp at h
    · rename_i hl
      cases h
      exact .inr (.inr (.inl ⟨by simpa using hl, l, rfl⟩))

/-- The state an arrival or an instruction runs in: `s` but for arrivals and draws. -/
structure Started (s s0 : State) : Prop where
  regs : s0.regs = s.regs
  mxcw : s0.mxcw = s.mxcw
  g : s0.g = s.g
  hsave : s0.hsave = s.hsave
  curvm : s0.curvm = s.curvm
  vms : s0.vms = s.vms
  retiredDestroyed : s0.retiredDestroyed = s.retiredDestroyed
  retiredDisabled : s0.retiredDisabled = s.retiredDisabled
  otherVms : s0.otherVms = s.otherVms
  mem : s0.mem = s.mem
  fetch : s0.fetch = s.fetch
  excMark : s0.excMark = s.excMark

/-- Everything a step can do to the state of the extension. No step is made where regions clash (R47). -/
theorem step_kinds (h : stepWith c s = .next t) : regionsClash s = false ∧ ∃ s0, Started s s0 ∧
    (Ordinary c s0 t ∨ Returned c s0 t ∨ Created c s0 t ∨ Destroyed c s0 t ∨
      CpuReset s0 t ∨ MxcwWritten c s0 t ∨ OthersChanged s0 t ∨
      (∃ j es, s.events = .interrupt j :: es ∧ Interrupted c s0 t j) ∨
      (s.events = [] ∧ (∃ rest, decode c (fetchWindow c s.tick) = .ok (.hcall 0, rest)) ∧ Called c s0 t)) := by
  unfold stepWith stepBy at h
  split at h
  · simp at h
  rename_i hc
  refine ⟨by simpa using hc, ?_⟩
  split at h
  · rename_i hev
    refine ⟨s.tick, by constructor <;> rfl, ?_⟩
    unfold instructionStepBy at h
    split at h
    · exact .inl (ordinary_raise h)
    · exact .inl (ordinary_raise h)
    · split at h
      · rename_i i rest hd
        cases i with
        | hcall b =>
          rcases ordinary_hcall h with ⟨rfl, hk⟩ | h
          · exact .inr (.inr (.inr (.inr (.inr (.inr (.inr (.inr ⟨hev, ⟨rest, hd⟩, hk⟩)))))))
          · exact .inl h
        | hret b =>
          rcases hvReturn_outcome h with h | h
          · exact .inl h
          · exact .inr (.inl h)
        | hresume b =>
          rcases hvReturn_outcome h with h | h
          · exact .inl h
          · exact .inr (.inl h)
        | vmcreate b src =>
          rcases vmcreate_outcome h with h | h
          · exact .inl h
          · exact .inr (.inr (.inl h))
        | vmdestroy b =>
          rcases vmdestroy_outcome h with h | h
          · exact .inl h
          · exact .inr (.inr (.inr (.inl h)))
      · rcases baseStep_outcome h with h | h | h
        · exact .inl h
        · exact .inr (.inr (.inr (.inr (.inl h))))
        · exact .inr (.inr (.inr (.inr (.inr (.inl h)))))
  · rename_i e es he
    refine ⟨s.dropEvent es, by constructor <;> rfl, ?_⟩
    rcases takeEvent_outcome h with h | h | h | ⟨j, rfl, hi⟩
    · exact .inl h
    · exact .inr (.inr (.inr (.inr (.inl h))))
    · exact .inr (.inr (.inr (.inr (.inr (.inr (.inl h))))))
    · exact .inr (.inr (.inr (.inr (.inr (.inr (.inr (.inl ⟨j, es, he, hi⟩)))))))

end Sys2Proof.Laws
end

