-- ==== Sys2Proof/Laws/Hidden.lean ====
section
/-! SUPPORT. What does not look at `hsave` (R23): everything but leaving a VM. One lemma per operation, for a state whose `hsave`
is replaced. -/

namespace Sys2Proof.Laws

open Sys2Proof.Machine

/-- `s` with other saved registers. -/
def withSaved (s : State) (x : Regs) : State := { s with hsave := x }

variable (c : Config) (s : State) (x : Regs)

@[simp] theorem withSaved_regs : (withSaved s x).regs = s.regs := rfl
@[simp] theorem withSaved_mxcw : (withSaved s x).mxcw = s.mxcw := rfl
@[simp] theorem withSaved_g : (withSaved s x).g = s.g := rfl
@[simp] theorem withSaved_curvm : (withSaved s x).curvm = s.curvm := rfl
@[simp] theorem withSaved_vms : (withSaved s x).vms = s.vms := rfl
@[simp] theorem withSaved_otherVms : (withSaved s x).otherVms = s.otherVms := rfl
@[simp] theorem withSaved_mem : (withSaved s x).mem = s.mem := rfl
@[simp] theorem withSaved_fetch : (withSaved s x).fetch = s.fetch := rfl
@[simp] theorem withSaved_excMark : (withSaved s x).excMark = s.excMark := rfl
@[simp] theorem withSaved_events : (withSaved s x).events = s.events := rfl
@[simp] theorem withSaved_drawCtr : (withSaved s x).drawCtr = s.drawCtr := rfl
@[simp] theorem withSaved_ip : (withSaved s x).ip = s.ip := rfl
@[simp] theorem withSaved_me : (withSaved s x).me = s.me := rfl
@[simp] theorem withSaved_xm : (withSaved s x).xm c = s.xm c := rfl
@[simp] theorem withSaved_trx (n : Fin 16) : (withSaved s x).trx n = s.trx n := rfl
@[simp] theorem withSaved_mode : (withSaved s x).mode c = s.mode c := rfl
@[simp] theorem withSaved_curVm : (withSaved s x).curVm? = s.curVm? := rfl
@[simp] theorem withSaved_tick : (withSaved s x).tick = withSaved s.tick x := rfl
@[simp] theorem withSaved_dropEvent (es : List Event) : (withSaved s x).dropEvent es = withSaved (s.dropEvent es) x := rfl
@[simp] theorem withSaved_xs : (withSaved s x).xs c = s.xs c := rfl
@[simp] theorem withSaved_x (i : RegNo) : (withSaved s x).x c i = s.x c i := rfl

theorem sameHost_withSaved : SameHost s (withSaved s x) := by constructor <;> rfl

@[simp] theorem liveRegions_withSaved : liveRegions (withSaved s x) = liveRegions s := rfl

@[simp] theorem isLive_withSaved : isLive (withSaved s x) = isLive s := rfl

@[simp] theorem hostByte_withSaved : hostByte c (withSaved s x) = hostByte c s := (sameHost_withSaved s x).hostByte

@[simp] theorem vmcsOf_withSaved : vmcsOf c (withSaved s x) = vmcsOf c s := (sameHost_withSaved s x).vmcsOf

@[simp] theorem regionsClash_withSaved : regionsClash (withSaved s x) = regionsClash s := rfl

@[simp] theorem keepsVmcs_withSaved : keepsVmcs (withSaved s x) = keepsVmcs s := rfl

@[simp] theorem locate_withSaved : locate c (withSaved s x) = locate c s := by
  funext p k r acc
  cases r <;> rfl

@[simp] theorem fetchUnit_withSaved : fetchUnit c (withSaved s x) = fetchUnit c s := rfl

@[simp] theorem view_withSaved : view c (withSaved s x) = view c s := by
  funext p
  unfold view
  rw [locate_withSaved, hostByte_withSaved]
  rfl

@[simp] theorem fetchCheck_withSaved : fetchCheck c (withSaved s x) = fetchCheck c s := by
  funext p a
  unfold fetchCheck
  rw [locate_withSaved]

theorem fetchUnits_withSaved (n k : Nat) : fetchUnits c (withSaved s x) n k = fetchUnits c s n k := by
  induction n generalizing k with
  | zero => rfl
  | succ n ih =>
    unfold fetchUnits
    rw [fetchUnit_withSaved, ih]

@[simp] theorem fetchWindow_withSaved : fetchWindow c (withSaved s x) = fetchWindow c s := by
  unfold fetchWindow
  simp only [fetchUnit_withSaved, fetchUnits_withSaved]

@[simp] theorem placeWrites_withSaved (k : Nat) (ws : List (Ref × Byte)) :
    placeWrites c (withSaved s x) k ws = placeWrites c s k ws := by
  induction ws generalizing k with
  | nil => rfl
  | cons w ws ih =>
    unfold placeWrites
    rw [locate_withSaved, ih]

@[simp] theorem hitsLive_withSaved (e : Effect) : hitsLive c (withSaved s x) e = hitsLive c s e := by
  unfold hitsLive
  rw [placeWrites_withSaved, liveRegions_withSaved, isLive_withSaved]

@[simp] theorem commit_withSaved (e : Effect) (o : Origin) :
    commit c (withSaved s x) e o = withSaved (commit c s e o) x := by
  unfold commit
  rw [placeWrites_withSaved]
  cases placeWrites c s 0 e.writes <;> rfl

/-- An effect is the same whatever is saved. -/
theorem applyEffect_withSaved {e : Effect} {o : Origin} {t : State} (h : applyEffect c s e o = .next t) :
    applyEffect c (withSaved s x) e o = .next (withSaved t x) := by
  obtain ⟨h1, h2, h3, rfl⟩ := applyEffect_next.mp h
  rw [applyEffect_next]
  refine ⟨by rw [hitsLive_withSaved]; exact h1, by rw [keepsVmcs_withSaved, commit_withSaved, withSaved_mem]; exact h2, ?_,
    by rw [commit_withSaved]⟩
  rw [withSaved_me, withSaved_g, commit_withSaved, withSaved_xm]
  exact h3

theorem deliver_withSaved {n : Nat} {cause : Cause} {t : State} (h : deliver c s n cause = .next t) :
    deliver c (withSaved s x) n cause = .next (withSaved t x) := by
  unfold deliver deliverTo returnIp at h ⊢
  rw [view_withSaved]
  exact applyEffect_withSaved c s x h

/-- An exception that the VM handles itself is the same whatever is saved. -/
theorem raise_withSaved {n : Fin 16} {cause : Cause} {t : State} (h : raise c s n cause = .next t) (hg : t.g = true) :
    raise c (withSaved s x) n cause = .next (withSaved t x) := by
  rcases raise_next h with ⟨_, _, vm, _, h⟩ | ⟨hk, h⟩
  · obtain ⟨⟨w, hl, _⟩, _⟩ := trapToHypervisor_left h
    rw [hl.g] at hg
    cases hg
  · unfold raise
    rw [if_neg]
    · exact deliver_withSaved c s x h
    · rw [withSaved_g, withSaved_trx]
      rcases hk with hk | hk <;> simp [hk]

end Sys2Proof.Laws
end

