-- ==== Sys2Proof/Laws/PerInstr.lean ====
section
/-! SUPPORT. Statements made for each instruction, one lemma a constructor. `Length`: R64, an instruction is two bytes long, and
vmcreate as much longer as its operand. -/

namespace Sys2Proof.Laws.Length

/-- The bytes an instruction has after its word. -/
def operandBytes : Instr → Nat
  | .hcall _ => 0
  | .hret _ => 0
  | .hresume _ => 0
  | .vmcreate _ src => src.length
  | .vmdestroy _ => 0

/-- R64: the length is that of the word and of the operand, and the word's bytes come first. -/
def Statement (i : Instr) : Prop :=
  instrLength i = 2 + operandBytes i ∧ ∃ w : BitVec 16, (encode i).take 2 = wordBytes w

theorem hcall (h : BitVec 4) : Statement (.hcall h) := ⟨rfl, opHcall ++ h, rfl⟩

theorem hret (h : BitVec 4) : Statement (.hret h) := ⟨rfl, opHret ++ h, rfl⟩

theorem hresume (h : BitVec 4) : Statement (.hresume h) := ⟨rfl, opHresume ++ h, rfl⟩

theorem vmcreate (h : BitVec 4) (src : List Byte) : Statement (.vmcreate h src) :=
  ⟨by simp [instrLength, encode, encodeWord, wordBytes, operandBytes]; omega, opVmcreate ++ h, rfl⟩

theorem vmdestroy (h : BitVec 4) : Statement (.vmdestroy h) := ⟨rfl, opVmdestroy ++ h, rfl⟩

end Sys2Proof.Laws.Length
end

