-- ==== Sys2Proof/Laws/Targets.lean ====
section
/-! SUPPORT. The states the statements name (`Claims`), field by field: one lemma per field. -/

namespace Sys2Proof.Laws

open Sys2Proof.Machine Sys2Proof.Claims

set_option linter.unusedSimpArgs false

/-! ### leftTarget -/

@[simp] theorem leftTarget_regs (c : Config) (s : State) (vm : Vm) (ip : Word) (p : Pending) (st : VmStatus) (hc : Bool) (v0 v1 : Word) : (leftTarget c s vm ip p st hc v0 v1).regs = regsOf fun i => if i = r0 then v0 else if i = r1 then v1 else regGet s.hsave i := by
  simp only [leftTarget]
@[simp] theorem leftTarget_mxcw (c : Config) (s : State) (vm : Vm) (ip : Word) (p : Pending) (st : VmStatus) (hc : Bool) (v0 v1 : Word) : (leftTarget c s vm ip p st hc v0 v1).mxcw = s.mxcw := by
  simp only [leftTarget]
@[simp] theorem leftTarget_g (c : Config) (s : State) (vm : Vm) (ip : Word) (p : Pending) (st : VmStatus) (hc : Bool) (v0 v1 : Word) : (leftTarget c s vm ip p st hc v0 v1).g = false := by
  simp only [leftTarget]
@[simp] theorem leftTarget_hsave (c : Config) (s : State) (vm : Vm) (ip : Word) (p : Pending) (st : VmStatus) (hc : Bool) (v0 v1 : Word) : (leftTarget c s vm ip p st hc v0 v1).hsave = s.hsave := by
  simp only [leftTarget]
@[simp] theorem leftTarget_curvm (c : Config) (s : State) (vm : Vm) (ip : Word) (p : Pending) (st : VmStatus) (hc : Bool) (v0 v1 : Word) : (leftTarget c s vm ip p st hc v0 v1).curvm = s.curvm := by
  simp only [leftTarget]
@[simp] theorem leftTarget_vms (c : Config) (s : State) (vm : Vm) (ip : Word) (p : Pending) (st : VmStatus) (hc : Bool) (v0 v1 : Word) : (leftTarget c s vm ip p st hc v0 v1).vms = vmUpdate s.vms { vm with pending := p, status := st, ipOut := ip, viaHcall := hc, seen := s.fetch.seen } := by
  simp only [leftTarget]
@[simp] theorem leftTarget_retiredDestroyed (c : Config) (s : State) (vm : Vm) (ip : Word) (p : Pending) (st : VmStatus) (hc : Bool) (v0 v1 : Word) : (leftTarget c s vm ip p st hc v0 v1).retiredDestroyed = s.retiredDestroyed := by
  simp only [leftTarget]
@[simp] theorem leftTarget_retiredDisabled (c : Config) (s : State) (vm : Vm) (ip : Word) (p : Pending) (st : VmStatus) (hc : Bool) (v0 v1 : Word) : (leftTarget c s vm ip p st hc v0 v1).retiredDisabled = s.retiredDisabled := by
  simp only [leftTarget]
@[simp] theorem leftTarget_otherVms (c : Config) (s : State) (vm : Vm) (ip : Word) (p : Pending) (st : VmStatus) (hc : Bool) (v0 v1 : Word) : (leftTarget c s vm ip p st hc v0 v1).otherVms = s.otherVms := by
  simp only [leftTarget]
@[simp] theorem leftTarget_mem (c : Config) (s : State) (vm : Vm) (ip : Word) (p : Pending) (st : VmStatus) (hc : Bool) (v0 v1 : Word) : (leftTarget c s vm ip p st hc v0 v1).mem = storeRegs c (s.setIp ip) vm.vmcs := by
  simp only [leftTarget]
@[simp] theorem leftTarget_fetch (c : Config) (s : State) (vm : Vm) (ip : Word) (p : Pending) (st : VmStatus) (hc : Bool) (v0 v1 : Word) : (leftTarget c s vm ip p st hc v0 v1).fetch = exitFetch s.fetch hc ((slotWrites c (s.setIp ip) vm.vmcs).map Prod.fst) := by
  simp only [leftTarget]
@[simp] theorem leftTarget_excMark (c : Config) (s : State) (vm : Vm) (ip : Word) (p : Pending) (st : VmStatus) (hc : Bool) (v0 v1 : Word) : (leftTarget c s vm ip p st hc v0 v1).excMark = 0 := by
  simp only [leftTarget]
@[simp] theorem leftTarget_events (c : Config) (s : State) (vm : Vm) (ip : Word) (p : Pending) (st : VmStatus) (hc : Bool) (v0 v1 : Word) : (leftTarget c s vm ip p st hc v0 v1).events = s.events := by
  simp only [leftTarget]
@[simp] theorem leftTarget_drawCtr (c : Config) (s : State) (vm : Vm) (ip : Word) (p : Pending) (st : VmStatus) (hc : Bool) (v0 v1 : Word) : (leftTarget c s vm ip p st hc v0 v1).drawCtr = s.drawCtr := by
  simp only [leftTarget]

/-! ### hcallTarget -/

@[simp] theorem hcallTarget_mxcw (c : Config) (s : State) (vm : Vm) : (hcallTarget c s vm).mxcw = s.mxcw := by
  simp only [hcallTarget, leftTarget, if_true]
@[simp] theorem hcallTarget_g (c : Config) (s : State) (vm : Vm) : (hcallTarget c s vm).g = false := by
  simp only [hcallTarget, leftTarget, if_true]
@[simp] theorem hcallTarget_hsave (c : Config) (s : State) (vm : Vm) : (hcallTarget c s vm).hsave = s.hsave := by
  simp only [hcallTarget, leftTarget, if_true]
@[simp] theorem hcallTarget_curvm (c : Config) (s : State) (vm : Vm) : (hcallTarget c s vm).curvm = s.curvm := by
  simp only [hcallTarget, leftTarget, if_true]
@[simp] theorem hcallTarget_vms (c : Config) (s : State) (vm : Vm) : (hcallTarget c s vm).vms = vmUpdate s.vms { vm with pending := none, ipOut := s.ip + 2, viaHcall := true, seen := s.fetch.seen } := by
  simp only [hcallTarget, leftTarget, if_true]
@[simp] theorem hcallTarget_retiredDestroyed (c : Config) (s : State) (vm : Vm) : (hcallTarget c s vm).retiredDestroyed = s.retiredDestroyed := by
  simp only [hcallTarget, leftTarget, if_true]
@[simp] theorem hcallTarget_retiredDisabled (c : Config) (s : State) (vm : Vm) : (hcallTarget c s vm).retiredDisabled = s.retiredDisabled := by
  simp only [hcallTarget, leftTarget, if_true]
@[simp] theorem hcallTarget_otherVms (c : Config) (s : State) (vm : Vm) : (hcallTarget c s vm).otherVms = s.otherVms := by
  simp only [hcallTarget, leftTarget, if_true]
@[simp] theorem hcallTarget_mem (c : Config) (s : State) (vm : Vm) : (hcallTarget c s vm).mem = storeRegs c (s.setIp (s.ip + 2)) vm.vmcs := by
  simp only [hcallTarget, leftTarget, if_true]
@[simp] theorem hcallTarget_fetch (c : Config) (s : State) (vm : Vm) : (hcallTarget c s vm).fetch = exitFetch s.fetch true ((slotWrites c (s.setIp (s.ip + 2)) vm.vmcs).map Prod.fst) := by
  simp only [hcallTarget, leftTarget, if_true]
@[simp] theorem hcallTarget_excMark (c : Config) (s : State) (vm : Vm) : (hcallTarget c s vm).excMark = 0 := by
  simp only [hcallTarget, leftTarget, if_true]
@[simp] theorem hcallTarget_events (c : Config) (s : State) (vm : Vm) : (hcallTarget c s vm).events = s.events := by
  simp only [hcallTarget, leftTarget, if_true]
@[simp] theorem hcallTarget_drawCtr (c : Config) (s : State) (vm : Vm) : (hcallTarget c s vm).drawCtr = s.drawCtr := by
  simp only [hcallTarget, leftTarget, if_true]

/-! ### trapTarget -/

@[simp] theorem trapTarget_mxcw (c : Config) (s : State) (vm : Vm) (k : Fin 17) : (trapTarget c s vm k).mxcw = s.mxcw := by
  simp only [trapTarget, trapLeft, leftTarget, setIp_mxcw, setIp_g, setIp_hsave, setIp_curvm, setIp_vms, setIp_retiredDestroyed, setIp_retiredDisabled, setIp_otherVms, setIp_mem, setIp_fetch, setIp_excMark, setIp_events, setIp_drawCtr, Bool.false_eq_true, if_false]
@[simp] theorem trapTarget_g (c : Config) (s : State) (vm : Vm) (k : Fin 17) : (trapTarget c s vm k).g = false := by
  simp only [trapTarget, trapLeft, leftTarget, setIp_mxcw, setIp_g, setIp_hsave, setIp_curvm, setIp_vms, setIp_retiredDestroyed, setIp_retiredDisabled, setIp_otherVms, setIp_mem, setIp_fetch, setIp_excMark, setIp_events, setIp_drawCtr, Bool.false_eq_true, if_false]
@[simp] theorem trapTarget_hsave (c : Config) (s : State) (vm : Vm) (k : Fin 17) : (trapTarget c s vm k).hsave = s.hsave := by
  simp only [trapTarget, trapLeft, leftTarget, setIp_mxcw, setIp_g, setIp_hsave, setIp_curvm, setIp_vms, setIp_retiredDestroyed, setIp_retiredDisabled, setIp_otherVms, setIp_mem, setIp_fetch, setIp_excMark, setIp_events, setIp_drawCtr, Bool.false_eq_true, if_false]
@[simp] theorem trapTarget_curvm (c : Config) (s : State) (vm : Vm) (k : Fin 17) : (trapTarget c s vm k).curvm = s.curvm := by
  simp only [trapTarget, trapLeft, leftTarget, setIp_mxcw, setIp_g, setIp_hsave, setIp_curvm, setIp_vms, setIp_retiredDestroyed, setIp_retiredDisabled, setIp_otherVms, setIp_mem, setIp_fetch, setIp_excMark, setIp_events, setIp_drawCtr, Bool.false_eq_true, if_false]
@[simp] theorem trapTarget_vms (c : Config) (s : State) (vm : Vm) (k : Fin 17) : (trapTarget c s vm k).vms = vmUpdate s.vms { vm with pending := some k, status := statusAfter vm k, ipOut := returnIp c s k.val, viaHcall := false, seen := s.fetch.seen } := by
  simp only [trapTarget, trapLeft, leftTarget, setIp_mxcw, setIp_g, setIp_hsave, setIp_curvm, setIp_vms, setIp_retiredDestroyed, setIp_retiredDisabled, setIp_otherVms, setIp_mem, setIp_fetch, setIp_excMark, setIp_events, setIp_drawCtr, Bool.false_eq_true, if_false]
@[simp] theorem trapTarget_retiredDestroyed (c : Config) (s : State) (vm : Vm) (k : Fin 17) : (trapTarget c s vm k).retiredDestroyed = s.retiredDestroyed := by
  simp only [trapTarget, trapLeft, leftTarget, setIp_mxcw, setIp_g, setIp_hsave, setIp_curvm, setIp_vms, setIp_retiredDestroyed, setIp_retiredDisabled, setIp_otherVms, setIp_mem, setIp_fetch, setIp_excMark, setIp_events, setIp_drawCtr, Bool.false_eq_true, if_false]
@[simp] theorem trapTarget_retiredDisabled (c : Config) (s : State) (vm : Vm) (k : Fin 17) : (trapTarget c s vm k).retiredDisabled = s.retiredDisabled := by
  simp only [trapTarget, trapLeft, leftTarget, setIp_mxcw, setIp_g, setIp_hsave, setIp_curvm, setIp_vms, setIp_retiredDestroyed, setIp_retiredDisabled, setIp_otherVms, setIp_mem, setIp_fetch, setIp_excMark, setIp_events, setIp_drawCtr, Bool.false_eq_true, if_false]
@[simp] theorem trapTarget_otherVms (c : Config) (s : State) (vm : Vm) (k : Fin 17) : (trapTarget c s vm k).otherVms = s.otherVms := by
  simp only [trapTarget, trapLeft, leftTarget, setIp_mxcw, setIp_g, setIp_hsave, setIp_curvm, setIp_vms, setIp_retiredDestroyed, setIp_retiredDisabled, setIp_otherVms, setIp_mem, setIp_fetch, setIp_excMark, setIp_events, setIp_drawCtr, Bool.false_eq_true, if_false]
@[simp] theorem trapTarget_mem (c : Config) (s : State) (vm : Vm) (k : Fin 17) : (trapTarget c s vm k).mem = storeRegs c (s.setIp (returnIp c s k.val)) vm.vmcs := by
  simp only [trapTarget, trapLeft, leftTarget, setIp_mxcw, setIp_g, setIp_hsave, setIp_curvm, setIp_vms, setIp_retiredDestroyed, setIp_retiredDisabled, setIp_otherVms, setIp_mem, setIp_fetch, setIp_excMark, setIp_events, setIp_drawCtr, Bool.false_eq_true, if_false]
@[simp] theorem trapTarget_fetch (c : Config) (s : State) (vm : Vm) (k : Fin 17) : (trapTarget c s vm k).fetch = exitFetch s.fetch false ((slotWrites c (s.setIp (returnIp c s k.val)) vm.vmcs).map Prod.fst) := by
  simp only [trapTarget, trapLeft, leftTarget, setIp_mxcw, setIp_g, setIp_hsave, setIp_curvm, setIp_vms, setIp_retiredDestroyed, setIp_retiredDisabled, setIp_otherVms, setIp_mem, setIp_fetch, setIp_excMark, setIp_events, setIp_drawCtr, Bool.false_eq_true, if_false]
@[simp] theorem trapTarget_excMark (c : Config) (s : State) (vm : Vm) (k : Fin 17) : (trapTarget c s vm k).excMark = 0 := by
  simp only [trapTarget, trapLeft, leftTarget, setIp_mxcw, setIp_g, setIp_hsave, setIp_curvm, setIp_vms, setIp_retiredDestroyed, setIp_retiredDisabled, setIp_otherVms, setIp_mem, setIp_fetch, setIp_excMark, setIp_events, setIp_drawCtr, Bool.false_eq_true, if_false]
@[simp] theorem trapTarget_events (c : Config) (s : State) (vm : Vm) (k : Fin 17) : (trapTarget c s vm k).events = s.events := by
  simp only [trapTarget, trapLeft, leftTarget, setIp_mxcw, setIp_g, setIp_hsave, setIp_curvm, setIp_vms, setIp_retiredDestroyed, setIp_retiredDisabled, setIp_otherVms, setIp_mem, setIp_fetch, setIp_excMark, setIp_events, setIp_drawCtr, Bool.false_eq_true, if_false]
@[simp] theorem trapTarget_drawCtr (c : Config) (s : State) (vm : Vm) (k : Fin 17) : (trapTarget c s vm k).drawCtr = s.drawCtr := by
  simp only [trapTarget, trapLeft, leftTarget, setIp_mxcw, setIp_g, setIp_hsave, setIp_curvm, setIp_vms, setIp_retiredDestroyed, setIp_retiredDisabled, setIp_otherVms, setIp_mem, setIp_fetch, setIp_excMark, setIp_events, setIp_drawCtr, Bool.false_eq_true, if_false]

/-! ### enterTarget -/

@[simp] theorem enterTarget_mxcw (c : Config) (s : State) (vm : Vm) (n m : Nat) : (enterTarget c s vm n m).mxcw = s.mxcw := by
  simp only [enterTarget]
@[simp] theorem enterTarget_g (c : Config) (s : State) (vm : Vm) (n m : Nat) : (enterTarget c s vm n m).g = true := by
  simp only [enterTarget]
@[simp] theorem enterTarget_curvm (c : Config) (s : State) (vm : Vm) (n m : Nat) : (enterTarget c s vm n m).curvm = some vm.num := by
  simp only [enterTarget]
@[simp] theorem enterTarget_vms (c : Config) (s : State) (vm : Vm) (n m : Nat) : (enterTarget c s vm n m).vms = s.vms := by
  simp only [enterTarget]
@[simp] theorem enterTarget_retiredDestroyed (c : Config) (s : State) (vm : Vm) (n m : Nat) : (enterTarget c s vm n m).retiredDestroyed = s.retiredDestroyed := by
  simp only [enterTarget]
@[simp] theorem enterTarget_retiredDisabled (c : Config) (s : State) (vm : Vm) (n m : Nat) : (enterTarget c s vm n m).retiredDisabled = s.retiredDisabled := by
  simp only [enterTarget]
@[simp] theorem enterTarget_otherVms (c : Config) (s : State) (vm : Vm) (n m : Nat) : (enterTarget c s vm n m).otherVms = s.otherVms := by
  simp only [enterTarget]
@[simp] theorem enterTarget_mem (c : Config) (s : State) (vm : Vm) (n m : Nat) : (enterTarget c s vm n m).mem = s.mem := by
  simp only [enterTarget]
@[simp] theorem enterTarget_fetch (c : Config) (s : State) (vm : Vm) (n m : Nat) : (enterTarget c s vm n m).fetch = s.fetch.enter m := by
  simp only [enterTarget]
@[simp] theorem enterTarget_excMark (c : Config) (s : State) (vm : Vm) (n m : Nat) : (enterTarget c s vm n m).excMark = 0 := by
  simp only [enterTarget]
@[simp] theorem enterTarget_events (c : Config) (s : State) (vm : Vm) (n m : Nat) : (enterTarget c s vm n m).events = s.events := by
  simp only [enterTarget]
@[simp] theorem enterTarget_drawCtr (c : Config) (s : State) (vm : Vm) (n m : Nat) : (enterTarget c s vm n m).drawCtr = s.drawCtr := by
  simp only [enterTarget]

/-! ### withNewVm -/

@[simp] theorem withNewVm_regs (c : Config) (s : State) (pa : Word) (v : Vmcs) : (withNewVm c s pa v).regs = s.regs := by
  simp only [withNewVm]
@[simp] theorem withNewVm_mxcw (c : Config) (s : State) (pa : Word) (v : Vmcs) : (withNewVm c s pa v).mxcw = s.mxcw := by
  simp only [withNewVm]
@[simp] theorem withNewVm_g (c : Config) (s : State) (pa : Word) (v : Vmcs) : (withNewVm c s pa v).g = s.g := by
  simp only [withNewVm]
@[simp] theorem withNewVm_hsave (c : Config) (s : State) (pa : Word) (v : Vmcs) : (withNewVm c s pa v).hsave = s.hsave := by
  simp only [withNewVm]
@[simp] theorem withNewVm_curvm (c : Config) (s : State) (pa : Word) (v : Vmcs) : (withNewVm c s pa v).curvm = s.curvm := by
  simp only [withNewVm]
@[simp] theorem withNewVm_vms (c : Config) (s : State) (pa : Word) (v : Vmcs) : (withNewVm c s pa v).vms = vmInsert s.vms (newVm (freshVmNum c s) pa v) := by
  simp only [withNewVm]
@[simp] theorem withNewVm_otherVms (c : Config) (s : State) (pa : Word) (v : Vmcs) : (withNewVm c s pa v).otherVms = s.otherVms := by
  simp only [withNewVm]
@[simp] theorem withNewVm_mem (c : Config) (s : State) (pa : Word) (v : Vmcs) : (withNewVm c s pa v).mem = s.mem := by
  simp only [withNewVm]
@[simp] theorem withNewVm_fetch (c : Config) (s : State) (pa : Word) (v : Vmcs) : (withNewVm c s pa v).fetch = s.fetch := by
  simp only [withNewVm]
@[simp] theorem withNewVm_excMark (c : Config) (s : State) (pa : Word) (v : Vmcs) : (withNewVm c s pa v).excMark = s.excMark := by
  simp only [withNewVm]
@[simp] theorem withNewVm_events (c : Config) (s : State) (pa : Word) (v : Vmcs) : (withNewVm c s pa v).events = s.events := by
  simp only [withNewVm]
@[simp] theorem withNewVm_drawCtr (c : Config) (s : State) (pa : Word) (v : Vmcs) : (withNewVm c s pa v).drawCtr = s.drawCtr := by
  simp only [withNewVm]

/-! ### createTarget -/

@[simp] theorem createTarget_mxcw (c : Config) (s : State) (pa : Word) (v : Vmcs) (n : Nat) : (createTarget c s pa v n).mxcw = s.mxcw := by
  simp only [createTarget, enterTarget, withNewVm, newVm]
@[simp] theorem createTarget_g (c : Config) (s : State) (pa : Word) (v : Vmcs) (n : Nat) : (createTarget c s pa v n).g = true := by
  simp only [createTarget, enterTarget, withNewVm, newVm]
@[simp] theorem createTarget_curvm (c : Config) (s : State) (pa : Word) (v : Vmcs) (n : Nat) : (createTarget c s pa v n).curvm = some (freshVmNum c s) := by
  simp only [createTarget, enterTarget, withNewVm, newVm]
@[simp] theorem createTarget_vms (c : Config) (s : State) (pa : Word) (v : Vmcs) (n : Nat) : (createTarget c s pa v n).vms = vmInsert s.vms (newVm (freshVmNum c s) pa v) := by
  simp only [createTarget, enterTarget, withNewVm, newVm]
@[simp] theorem createTarget_otherVms (c : Config) (s : State) (pa : Word) (v : Vmcs) (n : Nat) : (createTarget c s pa v n).otherVms = s.otherVms := by
  simp only [createTarget, enterTarget, withNewVm, newVm]
@[simp] theorem createTarget_mem (c : Config) (s : State) (pa : Word) (v : Vmcs) (n : Nat) : (createTarget c s pa v n).mem = s.mem := by
  simp only [createTarget, enterTarget, withNewVm, newVm]
@[simp] theorem createTarget_fetch (c : Config) (s : State) (pa : Word) (v : Vmcs) (n : Nat) : (createTarget c s pa v n).fetch = s.fetch.enter s.fetch.seen := by
  simp only [createTarget, enterTarget, withNewVm, newVm]
@[simp] theorem createTarget_excMark (c : Config) (s : State) (pa : Word) (v : Vmcs) (n : Nat) : (createTarget c s pa v n).excMark = 0 := by
  simp only [createTarget, enterTarget, withNewVm, newVm]
@[simp] theorem createTarget_events (c : Config) (s : State) (pa : Word) (v : Vmcs) (n : Nat) : (createTarget c s pa v n).events = s.events := by
  simp only [createTarget, enterTarget, withNewVm, newVm]
@[simp] theorem createTarget_drawCtr (c : Config) (s : State) (pa : Word) (v : Vmcs) (n : Nat) : (createTarget c s pa v n).drawCtr = s.drawCtr := by
  simp only [createTarget, enterTarget, withNewVm, newVm]

/-! ### destroyTarget -/

@[simp] theorem destroyTarget_regs (s : State) (vm : Vm) : (destroyTarget s vm).regs = regSet s.regs ipReg (s.ip + 2) := by
  simp only [destroyTarget]
@[simp] theorem destroyTarget_mxcw (s : State) (vm : Vm) : (destroyTarget s vm).mxcw = s.mxcw := by
  simp only [destroyTarget]
@[simp] theorem destroyTarget_g (s : State) (vm : Vm) : (destroyTarget s vm).g = s.g := by
  simp only [destroyTarget]
@[simp] theorem destroyTarget_hsave (s : State) (vm : Vm) : (destroyTarget s vm).hsave = s.hsave := by
  simp only [destroyTarget]
@[simp] theorem destroyTarget_curvm (s : State) (vm : Vm) : (destroyTarget s vm).curvm = if s.curvm = some vm.num then none else s.curvm := by
  simp only [destroyTarget]
@[simp] theorem destroyTarget_vms (s : State) (vm : Vm) : (destroyTarget s vm).vms = vmErase s.vms vm.num := by
  simp only [destroyTarget, vmErase]
@[simp] theorem destroyTarget_retiredDestroyed (s : State) (vm : Vm) : (destroyTarget s vm).retiredDestroyed = numInsert s.retiredDestroyed vm.num := by
  simp only [destroyTarget]
@[simp] theorem destroyTarget_retiredDisabled (s : State) (vm : Vm) : (destroyTarget s vm).retiredDisabled = s.retiredDisabled := by
  simp only [destroyTarget]
@[simp] theorem destroyTarget_otherVms (s : State) (vm : Vm) : (destroyTarget s vm).otherVms = s.otherVms := by
  simp only [destroyTarget]
@[simp] theorem destroyTarget_mem (s : State) (vm : Vm) : (destroyTarget s vm).mem = s.mem := by
  simp only [destroyTarget]
@[simp] theorem destroyTarget_fetch (s : State) (vm : Vm) : (destroyTarget s vm).fetch = s.fetch := by
  simp only [destroyTarget]
@[simp] theorem destroyTarget_excMark (s : State) (vm : Vm) : (destroyTarget s vm).excMark = s.excMark := by
  simp only [destroyTarget]
@[simp] theorem destroyTarget_events (s : State) (vm : Vm) : (destroyTarget s vm).events = s.events := by
  simp only [destroyTarget]
@[simp] theorem destroyTarget_drawCtr (s : State) (vm : Vm) : (destroyTarget s vm).drawCtr = s.drawCtr := by
  simp only [destroyTarget]

end Sys2Proof.Laws
end

