-- ==== Sys2Proof/Tests/Slice0.lean ====
section
/-! SUPPORT. Tests: the vectors of 95_test_vectors.md, one step each, under the test configuration they prescribe (D11, D12, D26,
D28, D34, launch state L0), and for every obligation that has hypotheses a witness that they can be met. -/

set_option Elab.async false

namespace Sys2Proof.Tests

open Sys2Proof Sys2Proof.Machine Sys2Proof.Claims Sys2Proof.Safety

/-! ## The test configuration and the states of the vectors. -/

/-- The base delivery of the tests: `ip` goes to the handler of `n`, r14 keeps the recorded `ip`. -/
def handlerAt (v : View) (n : Nat) (ret : Word) : Effect where
  regs := regSet (regSet v.regs 14 ret) ipReg (0xF000 + BitVec.ofNat 64 (2 * n))
  writes := []
  excMark := 1
  branch := true
  further := none

/-- vmcreate's operand in the tests: two bytes, the second a register number. -/
def operandReg (v : View) : List Byte → OperandResult
  | [_, r] => .value (regGet v.regs ⟨r.toNat, r.isLt⟩)
  | _ => .value 0

/-- L0 of 95_test_vectors.md: guest physical `g < 0x10000` is host physical `0x40000 + g`, paging off. -/
def cfg : Config :=
  { (default : Config) with
    xmBit := 0
    scdpRaw := 20
    scspRaw := 21
    sccrRaw := 22
    cpuex2Raw := 24
    cpuidloRaw := 25
    cpuidhiRaw := 26
    regDefinedRaw := fun i => decide (i.val < 30)
    regAvailRaw := fun _ i => decide (i.val < 18 || (20 ≤ i.val && i.val < 23))
    infoReg := fun _ => none
    regFeatureRaw := fun _ => none
    abortNo := 0
    undNo := 1
    protNo := 2
    pfNo := 3
    xaNo := 4
    excReturnIp := fun v _ => regGet v.regs ipReg
    deliver := fun v n ret _ => handlerAt v n ret
    operandTail := fun _ _ => 0
    operandValue := operandReg
    operandPfInfo := fun _ => 0
    pagingRaw := fun _ => false
    guestPhysRaw := fun _ _ _ g _ => if g.toNat < 0x10000 then some (0x40000 + g) else none
    pasBits := fun _ => 48
    vasBits := fun _ => 48
    ctxPerm := fun _ => Equiv.refl _
    ctxForeign := fun _ => none
    drawWord := fun k => 0xD0D0 + BitVec.ofNat 64 k
    drawNum := fun _ => 0
    msPassthrough := fun _ _ => false
    hvInterrupt := fun j => j == 40 }

/-- The test configuration with room for two VMs. -/
def cfgTwo : Config := { cfg with vmLimitCpuRaw := 1, vmLimitAllRaw := 1 }

/-- The test configuration in which the base instruction at `ip` asks for `a`. -/
def cfgAct (a : Action) : Config := { cfg with baseAct := fun _ => a }

/-- Words put into memory. -/
def put (m : Memory) (l : List (Word × Word)) : Memory := l.foldl (fun m p => memWriteAll m (wordWrites p.1 p.2)) m

/-- The memory of L0, with hcall at guest address 0x2000 and hret at host address 0x4000. -/
def mem0 : Memory :=
  put [] [(0x10000, 0x20000), (0x10008, 0x30000), (0x10018, 0x28000), (0x20000, 0xAA), (0x20008, 0xBB), (0x20010, 0xCC),
    (0x20038, 0x9000), (0x20080, 0x2000), (0x20098, 0x1234), (0x28008, 0x5100), (0x28010, 0x5200), (0x28080, 0x6000),
    (0x42000, 0xB0FC), (0x4000, 0x60FD)]

/-- A register file with some registers set. -/
def regsWith (l : List (RegNo × Word)) : Regs := l.foldl (fun r p => regSet r p.1 p.2) zeroRegs

/-- The hypervisor of L0 before its vmcreate. -/
def hv0 : State :=
  { State.reset with
    regs := regsWith [(20, 0x4000), (21, 0x8000), (2, 0x10000), (7, 0x7000), (16, 0x1000)]
    mxcw := 1
    mem := mem0 }

/-- The vmcs at 0x10000. -/
def vmcsA : Vmcs where
  vmregs := 0x20000
  vmmmap := 0x30000
  vmpas := 0
  vmvas := 0
  vmcsver := 0
  trapio := false
  reserved35 := 0
  reserved56 := 0
  vmtrxtab := 0x28000

/-- VM 1 while it runs for the first time. -/
def vmA : Vm where
  num := 1
  vmcsPa := 0x10000
  status := .active
  pending := none
  vmcs := vmcsA
  ipOut := 0
  viaHcall := false
  seen := 0

/-- VM1 of L0: the guest at 0x2000, after vmcreate. -/
def guest : State :=
  { hv0 with
    regs := regsWith [(0, 0xAA), (1, 0xBB), (2, 0xCC), (7, 0x9000), (16, 0x2000), (24, 0x1000)]
    hsave := regsWith [(20, 0x4000), (21, 0x8000), (2, 0x10000), (7, 0x7000), (16, 0x1004), (24, 0x1000)]
    g := true
    curvm := some 1
    vms := [vmA] }

/-- VM 1 after its hcall. -/
def vmCalled : Vm := { vmA with ipOut := 0x2002, viaHcall := true }

/-- The hypervisor after the guest's hcall (the end state of vector H1). -/
def host : State :=
  { hv0 with
    regs := regsWith [(0, 1), (1, 0x10000), (2, 0x10000), (7, 0x8000), (16, 0x4000), (20, 0x4000), (21, 0x8000)]
    mem := put mem0 [(0x20080, 0x2002)]
    curvm := some 1
    vms := [vmCalled] }

/-- VM 1 after a trapped UND. -/
def vmTrapped : Vm := { vmA with pending := some 1, ipOut := 0x2000 }

/-- The hypervisor after a trapped UND of the guest (the end state of vector T1). -/
def trapped : State :=
  { host with
    regs := regSet host.regs r0 0x300000001
    mem := mem0
    mxcw := 5
    vms := [vmTrapped] }

/-- VM 1 after RESET. -/
def vmReset : Vm := { vmA with status := .reset, pending := some 16 }

/-- The hypervisor after a RESET of the guest. -/
def afterReset : State := { host with vms := [vmReset] }

/-- VM 1 destroyed, and VM 1 disposed of with management disabled and enabled again. -/
def destroyed : State := { host with vms := [], curvm := none, retiredDestroyed := [1] }
def disabled : State := { host with vms := [], curvm := none, retiredDisabled := [1] }

/-- The guest when the virtual machines of the other CPUs are announced; it goes on running. -/
def guestGoesOn : State := { guest with events := [.otherVms []] }

/-- The guest running beside VM 2, which received RESET. -/
def guestBesideReset : State := { guestGoesOn with vms := [vmA, { vmReset with num := 2, vmcsPa := 0x11000 }] }

/-- The guest as a program. -/
def guestProgram : State := guest.setReg flagsReg 1

/-- An effect that changes nothing. -/
def idle (s : State) : Effect where
  regs := s.regs
  writes := []
  excMark := 0
  branch := false
  further := none

/-! ## Reading results. -/

/-- The state a result answers. -/
def stateOf : Result → State
  | .next t => t
  | _ => State.reset

/-- A next state with a property. -/
def nextWith (p : State → Bool) : Result → Bool
  | .next t => p t
  | _ => false

/-- The refusal a result answers. -/
def refusalOf : Result → Option Refusal
  | .refused r => some r
  | _ => none

theorem next_of {p : State → Bool} {r : Result} (h : nextWith p r = true) : ∃ t, r = .next t ∧ p t = true := by
  cases r with
  | next t => exact ⟨t, rfl, h⟩
  | fault _ => cases h
  | refused _ => cases h

/-- The given registers hold the given values. -/
def holds (t : State) (l : List (RegNo × Word)) : Bool := l.all fun p => regGet t.regs p.1 == p.2

/-! ## Decoding (vector E1). -/

theorem test_decode_hcall : decode cfg [0xFC, 0xB0] = .ok (.hcall 0, []) := by decide
theorem test_decode_hret : decode cfg [0xFD, 0x60] = .ok (.hret 0, []) := by decide
theorem test_decode_hresume : decode cfg [0xFD, 0x70] = .ok (.hresume 0, []) := by decide
theorem test_decode_vmcreate : decode cfg [0xE0, 0x00, 0x00, 0x02, 0xFC] = .ok (.vmcreate 0 [0, 2], [0xFC]) := by decide
theorem test_decode_vmdestroy : decode cfg [0xE0, 0x10] = .ok (.vmdestroy 0, []) := by decide
theorem test_decode_reserved_h : [decode cfg [0xFC, 0xB1], decode cfg [0xFD, 0x6F], decode cfg [0xE0, 0x18]] =
    [.ok (.hcall 1, []), .ok (.hret 15, []), .ok (.vmdestroy 8, [])] := by decide
theorem test_decode_base : [decode cfg [0xE0, 0x20], decode cfg [0xFD, 0x80], decode cfg [0xB0, 0xFC]] =
    [.error (.baseOpcode 0xe02), .error (.baseOpcode 0xfd8), .error (.baseOpcode 0xb0f)] := by decide
theorem test_decode_truncated : decode cfg [0xFC] = .error .truncated := by decide
theorem test_table_word : [decodeTableWord 16 0xfcb0, decodeTableWord 16 0xfd60, decodeTableWord 16 0xe010] =
    [some (.hcall 0), some (.hret 0), some (.vmdestroy 0)] := by decide +kernel

/-! ## WellFormed refuses an operand that is too short or too long (R63, R64). -/

theorem test_wf_operand : Instr.wf cfg (.vmcreate 0 [0, 2]) = true := by decide
theorem test_wf_short : Instr.wf cfg (.vmcreate 0 [2]) = false := by decide
theorem test_wf_long : Instr.wf cfg (.vmcreate 0 [0, 2, 0]) = false := by decide

/-! ## Values (vectors E2, E4). -/

theorem test_mxcw : [mxcwLegal 0x1FFFF, mxcwLegal 0x20001, mxcwLegal 0x8000000000000000] = [true, false, false] := by decide
theorem test_identifier : [ctxEncode cfg 1 none, ctxEncode cfg 1 (some 15), ctxEncode cfg 0xFFFFFFFF (some 16)] =
    [1, 0x1F00000001, 0x21FFFFFFFF] := by decide +kernel
theorem test_identifier_malformed :
    [0, 0x4000000001, 0x200000001, 0x2300000001].map (ctxDecode cfg) = [none, none, none, none] := by decide +kernel

/-! ## The instructions. -/

/-- Vector H1: the whole step. -/
theorem test_hcall_transfers : nextWith (fun t =>
    holds t [(0, 1), (1, 0x10000), (2, 0x10000), (7, 0x8000), (16, 0x4000)] && t.mode cfg == .hypervisor &&
    memWord t.mem 0x20080 == 0x2002 && memWord t.mem 0x20098 == 0x1234) (stepWith cfg guest) = true := by decide +kernel

/-- Vector H3: PROT, trapped. -/
theorem test_hcall_program : nextWith (fun t =>
    holds t [(0, 0x500000001), (1, 0x10000), (7, 0x7000), (16, 0x5200)] && !t.g && memWord t.mem 0x20088 == 1)
    (hcallWith cfg 0 { guestProgram with mxcw := 9 }) = true := by decide +kernel

/-- Vector Q1: the whole step. -/
theorem test_hret_enters : nextWith (fun t =>
    holds t [(0, 0xAA), (1, 0xBB), (2, 0xCC), (7, 0x9000), (16, 0x2002)] && t.g && t.curvm == some 1 &&
    regGet t.hsave 7 == 0x8000 && t.mem == host.mem) (stepWith cfg host) = true := by decide +kernel

/-- Vector Q3: PROT at hypervisor. -/
theorem test_hret_unknown : nextWith (fun t => holds t [(14, 0x4000), (16, 0xF004)] && !t.g)
    (hretWith cfg 0 (host.setReg r0 7)) = true := by decide +kernel

/-- Vector Q8: the exception runs in the VM, not offered to TRX, and records slot 16 as it is (R91), whatever the base ISA
would compute from it. -/
theorem test_hresume_forwards : nextWith (fun t => holds t [(14, 0x2000), (16, 0xF002)] && t.g &&
    t.vms.all fun vm => vm.pending == none)
    (hresumeWith { cfg with excReturnIp := fun v _ => regGet v.regs ipReg + 2 } 0 trapped) = true := by decide +kernel

/-- Vector Q9. -/
theorem test_hresume_forged : refusalOf (hresumeWith cfg 0 (trapped.setReg r0 0x500000001)) = some .forgedPending := by
  decide +kernel

/-- Vector V1. -/
theorem test_vmcreate_enters : nextWith (fun t =>
    holds t [(0, 0xAA), (1, 0xBB), (2, 0xCC), (7, 0x9000), (16, 0x2000)] && t.mode cfg == .managedSupervisor &&
    t.curvm == some 1 && t.vms == [vmA] && regGet t.hsave 16 == 0x1004)
    (vmcreateWith cfg 0 [0, 2] hv0) = true := by decide +kernel

/-- Vector V3: PROT at the limit. -/
theorem test_vmcreate_limit : nextWith (fun t => holds t [(16, 0xF004)] && t.vmcount == 1 && !t.g)
    (vmcreateWith cfg 0 [0, 2] host) = true := by decide +kernel

/-- Vector V10. -/
theorem test_vmdestroy_disposes : nextWith (fun t => holds t [(16, 0x4002)] && t.vms == [] && t.retiredDestroyed == [1] &&
    contextPort cfg t == 0 && t.mem == host.mem) (vmdestroyWith cfg 0 host) = true := by decide +kernel

/-- Vector V12: a second time, PROT. -/
theorem test_vmdestroy_twice : nextWith (fun t => holds t [(16, 0xF004)]) (vmdestroyWith cfg 0 destroyed) = true := by
  decide +kernel

/-! ## Events (vectors T3, T7), and the first step after reset. -/

theorem test_reset_in_vm : nextWith (fun t => holds t [(0, 0x2100000001), (16, 0x6000)] && t.mxcw == 1 &&
    t.vms.all fun vm => vm.status == .reset) (resetEvent cfg guest) = true := by decide +kernel

theorem test_hypervisor_interrupt : nextWith (fun t =>
    holds t [(0, 0xD0D0), (1, 0xD0D1), (14, 0xD0D2), (2, 0x10000), (16, 0xF050)] && !t.g && contextPort cfg t == 1 &&
    vmcsPort t == 0x10000) (takeEvent cfg guest (.interrupt 40)) = true := by decide +kernel

/-- R164 (b), R157: a further exception of the hypervisor's own records the base ISA's ip, one of an entry a draw. -/
theorem test_further_exceptions :
    [Origin.own, .entry].map (fun o => regGet (stateOf (takeEvent cfg host (.exception 3 .virt o))).regs 14) =
      [0x4000, 0xD0D0] := by decide +kernel

/-- R43, D9: a vmcs is not changed while its VM exists. -/
theorem test_vmcs_change : (refusalOf (takeEvent cfg host (.agentWrite 0x10010 1)),
    refusalOf (applyEffect cfg host { idle host with writes := [(.phys 0x10010, 1)] })) =
    (some .vmcsChanged, some .vmcsChanged) := by decide +kernel

/-- R47: regions of VMs of different CPUs, of one CPU, and of two that run. -/
theorem test_regions_clash : [[⟨1, 0, 0x50000, true⟩, ⟨2, 0, 0x507F8, false⟩], [⟨1, 0, 0x50000, true⟩, ⟨2, 0, 0x50800, false⟩],
    [⟨1, 0, 0x50000, true⟩, ⟨1, 0, 0x50000, false⟩], [⟨1, 0, 0x207F8, false⟩]].map
    (fun l => regionsClash { guest with otherVms := l }) = [true, false, false, true] := by decide +kernel

/-- R65: a base instruction sees the bytes that were decoded. -/
theorem test_base_sees_code : [0, 1].map (view cfg (guest.setIp 0x2000) .base).code = [some 0xFC, some 0xB0] := by
  decide +kernel

/-- R50: a virtual address that does not fit in the VM's virtual address bits reaches nothing; one that does is translated. -/
theorem test_virtual_data : [.virt 0x10000, .virt 0x2, .phys 0x2000].map ((view { cfg with
    vasBits := fun _ => 16, pagingRaw := fun _ => true, translate := fun _ _ a _ => some (a + 0x1FFE) } guest .base).read 0) =
    [none, some 0xFC, some 0xFC] := by decide +kernel

/-- R55: a byte changed since the last branch is not sure to be seen, even where it was changed back; after a branch it is. -/
theorem test_fetch_changed_back : [0, 2].map (fun n =>
    fetchByte { cfg with drawByte := fun _ _ _ _ => 0x77 } { guest with fetch := ⟨[0x42000, 0x42000], n, 0⟩ } 0 0x42000) =
    [0x77, 0xFC] := by decide +kernel

/-- R55, R2: a trap leaves the hypervisor's fetch what its own branch made sure, and adds the register store. -/
theorem test_trap_keeps_hypervisor_view : nextWith (fun t =>
    !t.fetch.stale 0x5200 && t.fetch.stale 0x20000 && t.vms.all fun vm => vm.seen == 0)
    (stepWith cfg { guestProgram with mxcw := 9, fetch := ⟨[0x5200], 0, 1⟩ }) = true := by decide +kernel

/-- R30, D40: the slot of an unavailable feature register decides of nothing; the value that stays in it does. -/
theorem test_unavailable_slot_not_read : [0, 8].map (fun hw => regGet (loadFrom { cfg with
    regAvailRaw := fun _ i => i != 24, regFeatureRaw := fun i => if i = 28 then some (24, 3) else none, cpuex2Value := hw } hv0
    (regsWith [(24, 8 ^^^ hw), (28, 5)])) 28) = [0, 5] := by decide +kernel

/-- R134: the io addresses that report CPUs, and what one and another show in a VM. -/
theorem test_reports_cpus : ([0xfe80, 0xff00, 0xff03, 0xff04, 0xff80, 0xff81, 0xfe81, 0x10].map
    (visibleCpus { cfg with cpuInitTail0 := 3, cpuInitTail1 := 0, ncpuRaw := 3 } guest)) = [1, 1, 1, 4, 1, 4, 4, 4] := by
  decide +kernel

/-- R64: an operand may be longer than any fixed bound. -/
theorem test_long_operand : (fetchWindow { cfg with operandTail := fun _ _ => 41 }
    { hv0 with mem := put mem0 [(0x1000, 0xE0)] }).length = 46 := by decide +kernel

theorem test_first_step : nextWith (fun _ => true) (step (State.reset.withFetchWord 16 0xfcb0)) = true := by decide +kernel

/-! ## Witnesses: for each obligation with hypotheses, a state and operands that meet them together, clause by clause. -/

/-! ### The invariant. -/

/-- Every state of the tests with VM 1 alone meets the invariant, given what can be evaluated. -/
theorem inv_of {c : Config} {s : State} (hg : s.g = true → s.curVm? = some vmA) (hm : s.me = true)
    (hx : s.xm c = false ∨ s.g = true) (hs : s.g = true → xm c (regGet s.hsave flagsReg) = false)
    (hc : ∀ n, s.curvm = some n → (vmFind s.vms n).isSome = true) (ht : s.vms.Pairwise fun v w => v.num < w.num)
    (hn : (s.vms.all fun vm => decide (vm.num ≠ 0 ∧ (vm.status = .reset ↔ vm.pending = some 16) ∧
      Machine.vmcsLegal c vm.vmcs = .ok () ∧ vm.seen ≤ s.fetch.changes.length)) = true)
    (hl : s.vmcount ≤ vmLimitCpu c) (hd : s.retiredDestroyed = []) (hb : s.retiredDisabled = [])
    (ho : regionsClash s = false) (hw : mxcwLegal s.mxcw = true) (hk : memWf s.mem = true ∧ s.fetch.wf = true) :
    Inv c s := by
  have hv : ∀ vm ∈ s.vms, vm.num ≠ 0 ∧ (vm.status = .reset ↔ vm.pending = some 16) ∧
      Machine.vmcsLegal c vm.vmcs = .ok () ∧ vm.seen ≤ s.fetch.changes.length := by simpa using hn
  exact
    { guestManaged := fun h => ⟨hm, vmA, hg h, rfl⟩
      hypervisorSupervises := fun h _ => hx.resolve_right (by simp [h])
      savedSupervises := hs
      unmanagedEmpty := fun h => absurd hm (by simp [h])
      currentListed := hc
      numbersRise := ht
      numbersNonzero := fun vm h => (hv vm h).1
      limitKept := hl
      resetSignalled := fun vm h => (hv vm h).2.1
      vmcsLegal := fun vm h => (hv vm h).2.2.1
      retiredFree := by simp [hd, hb]
      retiredRise := by simp [hd, hb]
      regionsDisjoint := ho
      mxcwReserved := hw
      memCanonical := hk.1
      seenChanges := ⟨hk.2, fun vm h => (hv vm h).2.2.2⟩ }

theorem inv_guest : Inv cfg guest :=
  inv_of (fun _ => by decide) (by decide) (.inr rfl) (fun _ => by decide +kernel)
    (fun n h => by cases h; decide) (by decide) (by decide +kernel) (by decide +kernel) rfl rfl (by decide +kernel) (by decide) (by decide +kernel)

theorem inv_host : Inv cfg host :=
  inv_of (fun h => by cases h) (by decide) (.inl (by decide +kernel)) (fun h => by cases h)
    (fun n h => by cases h; decide) (by decide) (by decide +kernel) (by decide +kernel) rfl rfl (by decide +kernel) (by decide) (by decide +kernel)

theorem inv_hv0 : Inv cfg hv0 :=
  inv_of (fun h => by cases h) (by decide) (.inl (by decide +kernel)) (fun h => by cases h)
    (fun n h => by cases h) (by decide) (by decide) (by decide +kernel) rfl rfl (by decide +kernel) (by decide) (by decide +kernel)

theorem inv_afterReset : Inv cfg afterReset :=
  inv_of (fun h => by cases h) (by decide) (.inl (by decide +kernel)) (fun h => by cases h)
    (fun n h => by cases h; decide) (by decide) (by decide +kernel) (by decide +kernel) rfl rfl (by decide +kernel) (by decide) (by decide +kernel)

theorem inv_beside : Inv cfgTwo guestBesideReset :=
  inv_of (fun _ => by decide) (by decide) (.inr rfl) (fun _ => by decide +kernel)
    (fun n h => by cases h; decide) (by decide) (by decide +kernel) (by decide +kernel) rfl rfl (by decide +kernel) (by decide) (by decide +kernel)

/-- The machine's own state with hcall placed at the reset vector. -/
def first : State := State.reset.withFetchWord 16 0xfcb0

theorem inv_first : Inv Config.hw first where
  guestManaged h := by cases h
  hypervisorSupervises _ h := absurd h (by decide)
  savedSupervises h := by cases h
  unmanagedEmpty _ := ⟨rfl, rfl⟩
  currentListed _ h := by cases h
  numbersRise := .nil
  numbersNonzero _ h := by cases h
  limitKept := Nat.zero_le _
  resetSignalled _ h := by cases h
  vmcsLegal _ h := by cases h
  retiredFree _ h := by cases h
  retiredRise := ⟨.nil, .nil⟩
  regionsDisjoint := by decide
  mxcwReserved := by decide
  memCanonical := by decide +kernel
  seenChanges := ⟨by decide +kernel, fun _ h => by cases h⟩

/-! ### Reset, encoding, the step. -/

theorem witness_CpuResetRestoresResetValues : State.reset.g = false := rfl

theorem witness_OpcodeSelectsInstruction :
    [instrWord 0xFC 0xB0 &&& 0xfff0, instrWord 0xFD 0x6F &&& 0xfff0, instrWord 0xFD 0x7F &&& 0xfff0,
      instrWord 0xE0 0x00 &&& 0xfff0, instrWord 0xE0 0x1F &&& 0xfff0] = [0xfcb0, 0xfd60, 0xfd70, 0xe000, 0xe010] ∧
    instrWord 0xE0 0x20 &&& 0xfff0 ∉ [0xfcb0, 0xfd60, 0xfd70, 0xe000, 0xe010] := by decide

theorem witness_DecodeOfEncode : Instr.wf cfg (.vmcreate 15 [0, 2]) = true ∧ Instr.wf cfg (.hcall 1) = true := by decide

theorem witness_EncodeOfDecode : decode cfg [0xE0, 0x00, 0x00, 0x02, 0xFC] = .ok (.vmcreate 0 [0, 2], [0xFC]) := by decide

/-- The step fetches hcall's word, whatever else it can fetch. -/
theorem fetch_first : ∃ rest, first.events = [] ∧ regionsClash first = false ∧
    fetchCheck Config.hw first.tick .fetch first.ip = .ok ∧
    decode Config.hw (fetchWindow Config.hw first.tick) = .ok (.hcall 0, rest) := by
  have h : fetchUnit Config.hw first.tick 0 = some (0xFC, 0xB0) := by decide +kernel
  have w : fetchWindow Config.hw first.tick = [0xFC, 0xB0] := by
    unfold fetchWindow
    rw [h]
    rfl
  exact ⟨[], rfl, by decide, by decide +kernel, by rw [w]; rfl⟩

theorem witness_StepRunsDecodedInstruction :
    (∃ i rest, first.events = [] ∧ regionsClash first = false ∧ fetchCheck Config.hw first.tick .fetch first.ip = .ok ∧
      decode Config.hw (fetchWindow Config.hw first.tick) = .ok (i, rest)) ∧
    ∃ i rest, guest.events = [] ∧ regionsClash guest = false ∧ fetchCheck cfg guest.tick .fetch guest.ip = .ok ∧
      decode cfg (fetchWindow cfg guest.tick) = .ok (i, rest) :=
  ⟨fetch_first.elim fun rest h => ⟨_, rest, h⟩,
    .hcall 0, [], rfl, by decide +kernel, by decide +kernel, by decide +kernel⟩

theorem witness_StepRunsBaseOrRaises :
    ((guest.setIp 0x3000).events = [] ∧ regionsClash (guest.setIp 0x3000) = false ∧
      fetchCheck cfg (guest.setIp 0x3000).tick .fetch (guest.setIp 0x3000).ip = .ok ∧
      decode cfg (fetchWindow cfg (guest.setIp 0x3000).tick) = .error (.baseOpcode 0) ∧
      fetchWindow cfg (guest.setIp 0x3000).tick = [0, 0]) ∧
    fetchCheck cfg (guest.setIp 0xffff).tick .fetch (guest.setIp 0xffff).ip = .xa ∧
    fetchCheck cfg (guest.setIp 0x10000).tick .fetch (guest.setIp 0x10000).ip = .pf := by decide +kernel

theorem witness_ArrivalIsTakenFirst : (guestGoesOn.events = [.otherVms []] ∧ regionsClash guestGoesOn = false) ∧
    ((∃ t, applyEffect cfg host { idle host with further := some (.exception 3 7) } .entry = .next t) ∧
      placeWrites cfg host 0 [] = some []) ∧
    guest.g = true ∧ hv0.curvm = none ∧ host.g = false ∧ host.curvm ≠ none :=
  ⟨by decide +kernel, ⟨(next_of (p := fun _ => true) (by decide +kernel)).imp fun _ h => h.1, rfl⟩, by decide +kernel⟩

theorem witness_StepKeepsInvariant :
    (Inv cfg guest ∧ ∃ t, stepWith cfg guest = .next t) ∧ Inv Config.hw first ∧ ∃ t, step first = .next t :=
  ⟨⟨inv_guest, (next_of test_hcall_transfers).imp fun _ h => h.1⟩,
    inv_first, (next_of test_first_step).imp fun _ h => h.1⟩

/-! ### hcall. -/

theorem leavable_guest (ip : Word) (h : keepsVmcs guest (storeRegs cfg (guest.setIp ip) vmA.vmcs) = true) :
    Leavable cfg guest vmA ip :=
  ⟨by decide +kernel, by decide +kernel, by decide +kernel, h⟩

theorem ready_guest : HcallReady cfg guest vmA :=
  ⟨by decide +kernel, by decide, leavable_guest _ (by decide +kernel)⟩

theorem witness_HcallTransfers : HcallReady cfg guest vmA ∧
    fetchCheck cfg (hcallTarget cfg guest vmA) .dest (regGet guest.hsave (scdpReg cfg)) = .ok :=
  ⟨ready_guest, by decide +kernel⟩

/-- The guest under a hypervisor with another scdp. -/
def guestScdp (v : Word) : State := { guest with hsave := regSet guest.hsave 20 v }

theorem ready_scdp (v : Word) : HcallReady cfg (guestScdp v) vmA :=
  ⟨ready_guest.mode, ready_guest.current, ready_guest.leavable.vmcs, ready_guest.leavable.vmregs,
    ready_guest.leavable.apart, ready_guest.leavable.keeps⟩

theorem witness_HcallBadDestinationRaisesInHypervisor :
    (HcallReady cfg (guestScdp 0x4001) vmA ∧ fetchCheck cfg (hcallTarget cfg (guestScdp 0x4001) vmA) .dest
      (regGet (guestScdp 0x4001).hsave (scdpReg cfg)) = .xa) ∧
    HcallReady cfg (guestScdp 0x1000000000000) vmA ∧ fetchCheck cfg (hcallTarget cfg (guestScdp 0x1000000000000) vmA) .dest
      (regGet (guestScdp 0x1000000000000).hsave (scdpReg cfg)) = .pf :=
  ⟨⟨ready_scdp _, by decide +kernel⟩, ready_scdp _, by decide +kernel⟩

theorem witness_HcallWrongModeOnlyRaises :
    guestProgram.mode cfg = .program ∧ (State.reset.mode cfg = .unmanagedSupervisor ∧ State.reset.g = false) ∧
    (hv0.mode cfg = .hypervisor ∧ hv0.curvm = none) ∧ host.mode cfg = .hypervisor ∧ host.curvm ≠ none := by decide +kernel

/-! ### hret and hresume. -/

theorem ready_host : ReturnReady cfg host vmCalled none :=
  ⟨by decide +kernel, by decide +kernel, .inl rfl, by decide +kernel, by decide +kernel, by decide +kernel⟩

theorem ready_trapped : ReturnReady cfg trapped vmTrapped (some 1) :=
  ⟨by decide +kernel, by decide +kernel, .inr rfl, by decide +kernel, by decide +kernel, by decide +kernel⟩

theorem witness_HretEntersVm :
    (ReturnReady cfg host vmCalled none ∧ fetchCheck cfg (enterTarget cfg host vmCalled 2 (reentrySeen host vmCalled false)) .vmDest
      (regGet (slots host vmCalled.vmcs) ipReg) = .ok) ∧
    ReturnReady cfg trapped vmTrapped (some 1) ∧
      fetchCheck cfg (enterTarget cfg trapped vmTrapped 2 (reentrySeen trapped vmTrapped false)) .vmDest
        (regGet (slots trapped vmTrapped.vmcs) ipReg) = .ok :=
  ⟨⟨ready_host, by decide +kernel⟩, ready_trapped, by decide +kernel⟩

theorem witness_HresumeWithoutSignalEntersVm :
    ReturnReady cfg host vmCalled none ∧ fetchCheck cfg (enterTarget cfg host vmCalled 2 (reentrySeen host vmCalled false)) .vmDest
      (regGet (slots host vmCalled.vmcs) ipReg) = .ok :=
  witness_HretEntersVm.1

theorem witness_HresumeForwardsPendingException : ReturnReady cfg trapped vmTrapped (some 1) := ready_trapped

/-- The hypervisor of vector H1, with another value in the VM's `ip` slot. -/
def hostSlot (v : Word) : State := { host with mem := put host.mem [(0x20080, v)] }

theorem witness_EnteredVmBadIpRaisesInVm :
    (ReturnReady cfg (hostSlot 0x2001) vmCalled none ∧
      fetchCheck cfg (enterTarget cfg (hostSlot 0x2001) vmCalled 2 (reentrySeen (hostSlot 0x2001) vmCalled false)) .vmDest
        (regGet (slots (hostSlot 0x2001) vmCalled.vmcs) ipReg) = .xa) ∧
    ReturnReady cfg (hostSlot 0x10000) vmCalled none ∧
      fetchCheck cfg (enterTarget cfg (hostSlot 0x10000) vmCalled 2 (reentrySeen (hostSlot 0x10000) vmCalled false)) .vmDest
        (regGet (slots (hostSlot 0x10000) vmCalled.vmcs) ipReg) = .pf :=
  ⟨⟨⟨by decide +kernel, by decide +kernel, .inl rfl, by decide +kernel, by decide +kernel, by decide +kernel⟩,
      by decide +kernel⟩,
    ⟨by decide +kernel, by decide +kernel, .inl rfl, by decide +kernel, by decide +kernel, by decide +kernel⟩,
    by decide +kernel⟩

theorem witness_ReturnWithoutLiveVmRaisesProt :
    ((host.setReg r0 0).mode cfg = .hypervisor ∧ ctxClass cfg (host.setReg r0 0) 0 = .invalid ∧
      regGet (host.setReg r0 0).regs r0 = 0) ∧
    afterReset.mode cfg = .hypervisor ∧ ctxClass cfg afterReset (regGet afterReset.regs r0) = .reset vmReset := by
  decide +kernel

theorem witness_ReturnWrongModeOnlyRaises : guestProgram.mode cfg = .program ∧
    State.reset.mode cfg = .unmanagedSupervisor ∧ guest.mode cfg = .managedSupervisor := by decide +kernel

theorem witness_StaleOrForgedIdentifierRefused :
    (destroyed.mode cfg = .hypervisor ∧ ctxClass cfg destroyed (regGet destroyed.regs r0) = .staleDestroyed) ∧
    (disabled.mode cfg = .hypervisor ∧ ctxClass cfg disabled (regGet disabled.regs r0) = .staleDisabled) ∧
    (trapped.setReg r0 0x500000001).mode cfg = .hypervisor ∧
      ctxClass cfg (trapped.setReg r0 0x500000001) (regGet (trapped.setReg r0 0x500000001).regs r0) =
        .live vmTrapped (some 2) ∧ vmTrapped.pending ≠ some 2 := by decide +kernel

/-! ### vmcreate and vmdestroy. -/

theorem witness_VmcreateEntersNewVm : CreateReady cfg hv0 [0, 2] 0x10000 vmcsA ∧
    fetchCheck cfg (createTarget cfg hv0 0x10000 vmcsA 4) .vmDest (regGet (slots hv0 vmcsA) ipReg) = .ok :=
  ⟨⟨by decide +kernel, by decide +kernel, by decide +kernel, by decide +kernel, by decide +kernel,
    by decide +kernel, by decide +kernel, by decide +kernel⟩, by decide +kernel⟩

/-- The hypervisor of L0 with another value in the new VM's `ip` slot. -/
def hv0Slot (v : Word) : State := { hv0 with mem := put mem0 [(0x20080, v)] }

theorem witness_CreatedVmBadIpRaisesInVm :
    (CreateReady cfg (hv0Slot 0x2001) [0, 2] 0x10000 vmcsA ∧
      fetchCheck cfg (createTarget cfg (hv0Slot 0x2001) 0x10000 vmcsA 4) .vmDest (regGet (slots (hv0Slot 0x2001) vmcsA) ipReg) = .xa) ∧
    CreateReady cfg (hv0Slot 0x10000) [0, 2] 0x10000 vmcsA ∧
      fetchCheck cfg (createTarget cfg (hv0Slot 0x10000) 0x10000 vmcsA 4) .vmDest (regGet (slots (hv0Slot 0x10000) vmcsA) ipReg) =
        .pf :=
  ⟨⟨⟨by decide +kernel, by decide +kernel, by decide +kernel, by decide +kernel, by decide +kernel,
      by decide +kernel, by decide +kernel, by decide +kernel⟩, by decide +kernel⟩,
    ⟨by decide +kernel, by decide +kernel, by decide +kernel, by decide +kernel, by decide +kernel,
      by decide +kernel, by decide +kernel, by decide +kernel⟩, by decide +kernel⟩

/-- A truncated operand raises PF. -/
theorem witness_VmcreateOperandExceptionOnlyRaises : hv0.mode cfg = .hypervisor ∧ hv0.vmcount < vmLimitCpu cfg ∧
    hv0.vmcountAll < vmLimitAll cfg ∧ readOperand cfg hv0 [0] = .raises 3 0 := by decide +kernel

theorem witness_FreshNumberIsUnused :
    (Inv cfg hv0 ∧ hv0.vmcount < vmLimitCpu cfg) ∧ Inv { cfg with drawNum := fun _ => 7 } hv0 ∧
    hv0.vmcount < vmLimitCpu { cfg with drawNum := fun _ => 7 } ∧ (7 : VmNum) ≠ 0 ∧ vmFind hv0.vms 7 = none ∧
    ({ cfg with drawNum := fun _ => 7 } : Config).drawNum hv0.drawCtr = 7 :=
  ⟨⟨inv_hv0, by decide +kernel⟩, { inv_hv0 with }, by decide +kernel, by decide, rfl, rfl⟩

theorem witness_VmcreateAtLimitRaisesProt :
    (host.mode cfg = .hypervisor ∧ vmLimitCpu cfg ≤ host.vmcount) ∧
    ({ hv0 with otherVms := [⟨1, 0x50800, 0x50000, true⟩] } : State).mode cfg = .hypervisor ∧
      vmLimitAll cfg ≤ ({ hv0 with otherVms := [⟨1, 0x50800, 0x50000, true⟩] } : State).vmcountAll := by decide +kernel

/-- The hypervisor of L0 with another word at byte 16 of its vmcs. -/
def hv0Word (v : Word) : State := { hv0 with mem := put mem0 [(0x10010, v)] }

/-- The test configuration with fewer virtual than physical address bits. -/
def cfgSmall : Config := { cfg with vasBits := fun _ => 40 }

theorem witness_IllegalVmcsRefused :
    ((hv0Word 0x40).mode cfg = .hypervisor ∧ (hv0Word 0x40).vmcount < vmLimitCpu cfg ∧
      (hv0Word 0x40).vmcountAll < vmLimitAll cfg ∧ readOperand cfg (hv0Word 0x40) [0, 2] = .value 0x10000 ∧
      readVmcs cfg (hv0Word 0x40) .vmcsCreate 0x10000 = .ok { vmcsA with vmcsver := 1 }) ∧
    readVmcs cfg (hv0Word 0x800) .vmcsCreate 0x10000 = .ok { vmcsA with reserved35 := 1 } ∧
    readVmcs cfg (hv0Word 0x8000000000000000) .vmcsCreate 0x10000 = .ok { vmcsA with reserved56 := 0x80000000 } ∧
    (hv0.mode cfgSmall = .hypervisor ∧ readVmcs cfgSmall hv0 .vmcsCreate 0x10000 = .ok vmcsA ∧
      cfgSmall.vasBits (hostVas cfgSmall) < cfgSmall.pasBits vmcsA.vmpas) := by decide +kernel

theorem witness_CreateDestroyWrongModeRaisesUnd : guest.mode cfg ≠ .hypervisor ∧ guestProgram.mode cfg ≠ .hypervisor := by
  decide +kernel

theorem witness_VmdestroyDisposes :
    (host.mode cfg = .hypervisor ∧ ctxClass cfg host (regGet host.regs r0) = .live vmCalled none) ∧
    afterReset.mode cfg = .hypervisor ∧ ctxClass cfg afterReset (regGet afterReset.regs r0) = .reset vmReset := by
  decide +kernel

theorem witness_VmdestroyInvalidRaisesProt :
    ((host.setReg r0 0).mode cfg = .hypervisor ∧
      ctxClass cfg (host.setReg r0 0) (regGet (host.setReg r0 0).regs r0) = .invalid) ∧
    (destroyed.mode cfg = .hypervisor ∧ ctxClass cfg destroyed (regGet destroyed.regs r0) = .staleDestroyed) ∧
    disabled.mode cfg = .hypervisor ∧ ctxClass cfg disabled (regGet disabled.regs r0) = .staleDisabled := by
  decide +kernel

theorem witness_DestroyedVmNoLongerCounts : Inv cfg host ∧ vmCalled ∈ host.vms ∧ host.curvm = some vmCalled.num ∧
    (2 : VmNum) ≠ vmCalled.num :=
  ⟨inv_host, List.mem_singleton.mpr rfl, rfl, by decide⟩

theorem witness_ReservedHRaisesUnd : (15 : BitVec 4) ≠ 0 := by decide

/-! ### mxcw and the ports. -/

/-- An unmanaged supervisor that has set TRX. -/
def unmanaged : State := { hv0 with mxcw := 0x1FFFE }

theorem inv_unmanaged : Inv cfg unmanaged where
  guestManaged h := by cases h
  hypervisorSupervises _ h := absurd h (by decide)
  savedSupervises h := by cases h
  unmanagedEmpty _ := ⟨rfl, rfl⟩
  currentListed _ h := by cases h
  numbersRise := .nil
  numbersNonzero _ h := by cases h
  limitKept := Nat.zero_le _
  resetSignalled _ h := by cases h
  vmcsLegal _ h := by cases h
  retiredFree _ h := by cases h
  retiredRise := ⟨.nil, .nil⟩
  regionsDisjoint := by decide
  mxcwReserved := by decide
  memCanonical := by decide +kernel
  seenChanges := ⟨by decide +kernel, fun _ h => by cases h⟩

theorem witness_SettingMeEntersHypervisorMode :
    (unmanaged.mode cfg = .unmanagedSupervisor ∧ unmanaged.g = false ∧ Inv cfg unmanaged) ∧
    mxcwLegal 0x20001 = false ∧ mxcwLegal 0x1FFFF = true ∧ mxcwLegal 0x1FFFE = true :=
  ⟨⟨by decide +kernel, rfl, inv_unmanaged⟩, by decide⟩

theorem witness_ClearingMeDisposesOfVms : host.mode cfg = .hypervisor ∧ mxcwLegal 0x20000 = false ∧
    (mxcwLegal 0x1FFFF = true ∧ (0x1FFFF : Word).getLsbD 0 = true) ∧
    mxcwLegal 0x1FFFE = true ∧ (0x1FFFE : Word).getLsbD 0 = false := by decide +kernel

theorem witness_GuestWriteOfMxcwHasNoEffect :
    guest.mode (cfgAct (.ioOut ioMxcw true 0 (idle guest))) = .managedSupervisor ∧ guest.curVm? = some vmA ∧
    vmcsOf (cfgAct (.ioOut ioMxcw true 0 (idle guest))) guest .vmcsIo vmA = .ok vmA.vmcs ∧ vmA.vmcs.trapio = false ∧
    (cfgAct (.ioOut ioMxcw true 0 (idle guest))).baseAct (view (cfgAct (.ioOut ioMxcw true 0 (idle guest))) guest .base) =
      .ioOut ioMxcw true 0 (idle guest) ∧
    ∃ t, applyEffect (cfgAct (.ioOut ioMxcw true 0 (idle guest))) guest (idle guest) = .next t :=
  ⟨by decide +kernel, by decide, by decide +kernel, rfl, rfl,
    (next_of (p := fun _ => true) (by decide +kernel)).imp fun _ h => h.1⟩

theorem witness_PortsNameCurrentVm : guest.curVm? = some vmA ∧ host.curVm? = some vmCalled ∧ hv0.curvm = none := by decide

/-- VM 1 with io trapped. -/
def vmIo : Vm := { vmA with vmcs := { vmcsA with trapio := true } }

/-- A guest with io trapped. -/
def guestIo : State := { guest with vms := [vmIo], mem := put mem0 [(0x10010, 0x400)] }

/-- The test configurations in which the instruction at `ip` is an `in` from mxcw, and an `out` of 0 to it. -/
def cfgIn : Config := cfgAct (.ioIn ioMxcw true fun _ => idle guest)
def cfgOut : Config := cfgAct (.ioOut ioMxcw true 0 (idle guest))

theorem made_in (s : State) : IoMade cfgIn s (applyEffect cfgIn s (idle guest)) := .inl ⟨_, _, _, rfl, rfl⟩

theorem made_out (s : State) : IoMade cfgOut s (ioWrite cfgOut s ioMxcw true 0 (idle guest)) := .inr ⟨_, _, _, _, rfl, rfl⟩

theorem witness_IoGateRaisesProt :
    (∀ s, IoMade cfgIn s (applyEffect cfgIn s (idle guest))) ∧
    (∀ s, IoMade cfgOut s (ioWrite cfgOut s ioMxcw true 0 (idle guest))) ∧
    ((hv0.setReg flagsReg 1).g = false ∧ (hv0.setReg flagsReg 1).xm cfgIn = true) ∧ (hv0.g = false ∧ hv0.xm cfgIn = false) ∧
    (guestIo.g = true ∧ guestIo.curVm? = some vmIo ∧ vmcsOf cfgIn guestIo .vmcsIo vmIo = .ok vmIo.vmcs ∧
      vmIo.vmcs.trapio = true) ∧
    (guestProgram.g = true ∧ guestProgram.curVm? = some vmA ∧ vmcsOf cfgOut guestProgram .vmcsIo vmA = .ok vmA.vmcs ∧
      guestProgram.xm cfgOut = true) ∧
    (guest.g = true ∧ guest.curVm? = some vmA ∧ vmcsOf cfgOut guest .vmcsIo vmA = .ok vmA.vmcs ∧ guest.xm cfgOut = false ∧
      vmA.vmcs.trapio = false) :=
  ⟨made_in, made_out, by decide +kernel⟩

theorem witness_GuestSeesOneCpu : guest.g = true ∧ reportsCpus cfg 0xfe80 = true ∧
    (reportsCpus cfg ioMxcw = false ∧ reportsCpus cfg 0xfe81 = false ∧
      ((0xfe81 : Word) ≠ ioMxcw ∧ (0xfe81 : Word) ≠ ioContext ∧ (0xfe81 : Word) ≠ ioVmcs)) := by decide +kernel

/-! ### Changes to base instructions. -/

/-- A return to program-execution mode. -/
def toProgram : Effect := { idle hv0 with regs := regSet hv0.regs flagsReg 1 }

theorem witness_ReturnToProgramInHypervisorAborts :
    ((cfgAct (.iret toProgram)).baseAct (view (cfgAct (.iret toProgram)) hv0 .base) = .iret toProgram ∧
      hv0.mode (cfgAct (.iret toProgram)) = .hypervisor ∧
      xm (cfgAct (.iret toProgram)) (regGet toProgram.regs flagsReg) = true) ∧
    ((cfgAct (.scret toProgram)).baseAct (view (cfgAct (.scret toProgram)) guest .base) = .scret toProgram ∧
      guest.mode (cfgAct (.scret toProgram)) ≠ .hypervisor) ∧
    (cfgAct (.iret (idle hv0))).baseAct (view (cfgAct (.iret (idle hv0))) hv0 .base) = .iret (idle hv0) ∧
      xm (cfgAct (.iret (idle hv0))) (regGet (idle hv0).regs flagsReg) = false :=
  ⟨⟨rfl, by decide +kernel, by decide +kernel⟩, ⟨rfl, by decide +kernel⟩, rfl, by decide +kernel⟩

/-- The test configuration in which register 28 belongs to an extension of bit 3 of cpuex2, which the hardware has or lacks,
and 1 is an illegal value of register 27. -/
def cfgFeature (a : Action) (hw : Word) : Config :=
  { cfgAct a with
    regFeatureRaw := fun i => if i = 28 then some (24, 3) else none
    cpuex2Value := hw
    writeUnd := fun i v => i == 27 && v == 1
    msPassthrough := fun _ id => id == 8 }

/-- Two base operations of the witnesses. -/
def actMs (id : Word) : Action := .machineSpecific id (idle guest)
def actFeature : Action := .needsFeature 24 3 (idle guest)
def actRead (i : RegNo) : Action := .readRegister i fun _ => idle guest
def actWrite (i : RegNo) (v : Word) : Action := .writeRegister i v (idle guest)

/-- The guest whose loaded cpuex2 shows bit 3. -/
def guestFeature : State := guest.setReg 24 0x1008

theorem base_act (a : Action) (hw : Word) (s : State) : (cfgFeature a hw).baseAct (view (cfgFeature a hw) s .base) = a := rfl

theorem witness_GuardedBaseOperationsRaise :
    (∀ a hw s, (cfgFeature a hw).baseAct (view (cfgFeature a hw) s .base) = a) ∧
    (guest.mode (cfgFeature (actMs 7) 0) = .managedSupervisor ∧ guest.curVm? = some vmA ∧
      (cfgFeature (actMs 7) 0).msPassthrough vmA.num 7 = false ∧ (cfgFeature (actMs 8) 0).msPassthrough vmA.num 8 = true ∧
      (State.reset.mode (cfgFeature (actMs 7) 0) = .unmanagedSupervisor ∧ State.reset.g = false) ∧
      hv0.mode (cfgFeature (actMs 7) 0) = .hypervisor ∧ guestProgram.mode (cfgFeature (actMs 7) 0) = .program) ∧
    ((guest.g = true ∧ (regGet guest.regs 24).getLsbD 3 = false) ∧ hwFeature (cfgFeature actFeature 0) 24 3 = false ∧
      hv0.g = false ∧ (regGet guestFeature.regs 24).getLsbD 3 = true ∧ hwFeature (cfgFeature actFeature 8) 24 3 = true) ∧
    (regDefined (cfgFeature (actRead 40) 0) 40 = false ∧
      (regDefined (cfgFeature (actWrite 28 1) 0) 28 = true ∧ (28 : RegNo) ∉ alwaysAvail ∧
        regFeature (cfgFeature (actWrite 28 1) 0) 28 = some (24, 3))) ∧
    (regDefined (cfgFeature (actWrite 27 1) 0) 27 = true ∧ regUsable (cfgFeature (actWrite 27 1) 0) guest 27 = true ∧
      (cfgFeature (actWrite 27 1) 0).writeUnd 27 1 = true ∧ (cfgFeature (actWrite 27 2) 0).writeUnd 27 2 = false) :=
  ⟨base_act, by decide +kernel⟩

theorem witness_RegisterReadsInsideAndOutside :
    (guest.g = true ∧ (cfgAct (actRead 24)).baseAct (view (cfgAct (actRead 24)) guest .base) = actRead 24 ∧
      regDefined (cfgAct (actRead 24)) 24 = true ∧ regUsable (cfgAct (actRead 24)) guest 24 = true) ∧
    (hv0.g = false ∧ (cfgAct (actRead 24)).baseAct (view (cfgAct (actRead 24)) hv0 .base) = actRead 24) ∧
    ((hwReg cfg 24).isSome = true ∧ ∃ t, applyEffect cfg guest { idle guest with regs := zeroRegs } = .next t) :=
  ⟨⟨rfl, rfl, by decide +kernel, by decide +kernel⟩, ⟨rfl, rfl⟩,
    by decide +kernel, (next_of (p := fun _ => true) (by decide +kernel)).imp fun _ h => h.1⟩

/-! ### Exceptions and transfers. -/

theorem witness_RaiseRoutesByTrx :
    (({ guest with mxcw := 5 } : State).g = true ∧
      ({ guest with mxcw := 5 } : State).mxcw.getLsbD ((1 : Fin 16).val + 1) = true ∧
      ({ guest with mxcw := 5 } : State).curVm? = some vmA) ∧
    hv0.g = false ∧ guest.mxcw.getLsbD ((15 : Fin 16).val + 1) = false := by decide +kernel

/-- The guest with another trap vector for UND. -/
def guestVector (v : Word) : State := { guest with mem := put mem0 [(0x28008, v)] }

theorem trapReady_guest (k : Fin 17) (h : vmcsOf cfg (trapLeft cfg guest vmA k) .vmcsTrap vmA = .ok vmA.vmcs)
    (hk : keepsVmcs guest (storeRegs cfg (guest.setIp (returnIp cfg guest k.val)) vmA.vmcs) = true) :
    TrapReady cfg guest vmA k :=
  ⟨rfl, by decide, leavable_guest _ hk, h, by decide +kernel⟩

theorem witness_TrapEntersHypervisorAtVector : TrapReady cfg guest vmA 1 ∧
    fetchCheck cfg (trapTarget cfg guest vmA 1) .dest (trapTarget cfg guest vmA 1).ip = .ok :=
  ⟨trapReady_guest 1 (by decide +kernel) (by decide +kernel), by decide +kernel⟩

theorem witness_BadTrapVectorRaisesInHypervisor :
    (TrapReady cfg (guestVector 0x5101) vmA 1 ∧ fetchCheck cfg (trapTarget cfg (guestVector 0x5101) vmA 1) .dest
      (trapTarget cfg (guestVector 0x5101) vmA 1).ip = .xa) ∧
    TrapReady cfg (guestVector 0x1000000000000) vmA 1 ∧
      fetchCheck cfg (trapTarget cfg (guestVector 0x1000000000000) vmA 1) .dest
        (trapTarget cfg (guestVector 0x1000000000000) vmA 1).ip = .pf :=
  ⟨⟨⟨rfl, by decide, ⟨by decide +kernel, by decide +kernel, by decide +kernel, by decide +kernel⟩, by decide +kernel,
      by decide +kernel⟩, by decide +kernel⟩,
    ⟨rfl, by decide, ⟨by decide +kernel, by decide +kernel, by decide +kernel, by decide +kernel⟩, by decide +kernel,
      by decide +kernel⟩, by decide +kernel⟩

theorem witness_ResetInsideVmIsTrapped : TrapReady cfg guest vmA 16 ∧
    fetchCheck cfg (trapTarget cfg guest vmA 16) .dest (trapTarget cfg guest vmA 16).ip = .ok :=
  ⟨trapReady_guest 16 (by decide +kernel) (by decide +kernel), by decide +kernel⟩

theorem witness_HypervisorInterruptLeavesVm : guest.g = true ∧ guest.curVm? = some vmA ∧
    Leavable cfg { guest with drawCtr := guest.drawCtr + 2 } vmA guest.ip ∧ cfg.hvInterrupt 40 = true :=
  ⟨rfl, by decide, ⟨by decide +kernel, by decide +kernel, by decide +kernel, by decide +kernel⟩, rfl⟩

theorem witness_OtherInterruptsStayInContext : hv0.g = false ∧ guest.g = true ∧ guest.curVm? = some vmA ∧
    cfg.hvInterrupt 15 = false ∧ cfg.hvInterrupt 16 = false := by decide

/-- The test configuration whose delivery writes where the guest has no memory. -/
def cfgUnmapped : Config :=
  { cfg with deliver := fun v n ret _ => { handlerAt v n ret with writes := [(.phys 0x10000, 1)] } }

/-- The test configuration whose delivery ends in a PF before it enters a handler. -/
def cfgFurther : Config :=
  { cfg with deliver := fun v _ _ _ =>
      { regs := v.regs, writes := [], excMark := v.excMark, branch := false, further := some (.exception 3 7) } }

theorem witness_DeliveryKeepsExtensionState :
    (∃ t, deliverTo cfg guest 1 0x2000 .virt = .next t) ∧
    (∃ t, deliverTo cfgUnmapped guestProgram 1 0x2000 .virt = .next t ∧ t.xm cfgUnmapped = true) ∧
    ∃ t, deliverTo cfgFurther guestProgram 1 0x2000 .virt = .next t ∧ t.xm cfgFurther = true :=
  ⟨(next_of (p := fun _ => true) (by decide +kernel)).imp fun _ h => h.1, next_of (by decide +kernel), next_of (by decide +kernel)⟩

/-- R150, R154: a PF in the delivery of a program's exception is trapped with the program's own flags (XM set) in slot 17. -/
theorem test_further_of_program : nextWith (fun t => !t.g && memWord t.mem 0x20088 == 1)
    (takeEvent cfgFurther (stateOf (deliverTo cfgFurther { guestProgram with mxcw := 0x11 } 1 0x2000 .virt))
      (.exception 3 (.base 7) .own)) = true := by decide +kernel

/-! ### Identifiers, memory. -/

theorem witness_IdentifierLaws : (0xFFFFFFFF : VmNum) ≠ 0 ∧ (0xFFFFFFFF00000000 : Word).extractLsb' 0 32 = 0 := by decide

theorem witness_WordStoreIsLittleEndian : memWf mem0 = true ∧ 7 < 8 ∧
    ∀ k, k < 8 → 0x20007 ≠ (wordAddr 0xFFFFFFFFFFFFFFFF k).toNat := by decide +kernel

theorem witness_StoreRegsWritesAvailableSlots : memWf guest.mem = true ∧ regAvail cfg guest.regs 0 = true ∧
    ¬ StoredAt cfg guest vmcsA (2 ^ 64) :=
  ⟨by decide +kernel, by decide +kernel, fun ⟨i, k, _, _, h⟩ => by have := (wordAddr (slotAddr vmcsA i) k).isLt; omega⟩

/-- VM 1 with its vmcs at a misaligned address. -/
def vmOdd : Vm := { vmA with vmcsPa := 0x10004 }

/-- VM 1 with its register array beyond implemented memory, and over its own vmcs. -/
def vmFar : Vm := { vmA with vmcs := { vmcsA with vmregs := 0xFFFFFFFFF808 } }
def vmOver : Vm := { vmA with vmcsPa := 0x20000, vmcs := { vmcsA with vmregs := 0x20000, vmmmap := 0x20000 } }

/-- The memory of L0 with that array address in the vmcs. -/
def memFar : Memory := put mem0 [(0x10000, 0xFFFFFFFFF808)]

/-- The guest and the hypervisor beside a VM of another CPU whose region overlaps theirs. -/
def guestClash : State := { guest with otherVms := [⟨1, 0x50000, 0x20400, false⟩] }
def hostClash : State := { host with otherVms := [⟨1, 0x50000, 0x207FF, false⟩] }
def hv0Clash : State := { hv0 with otherVms := [⟨1, 0x50000, 0x1F801, false⟩] }

/-- VM 1 whose trap vectors are not aligned, and the guest that is in it. -/
def vmTable : Vm := { vmA with vmcs := { vmcsA with vmtrxtab := 0x28004 } }
def guestTable : State := { guest with vms := [vmTable], mem := put mem0 [(0x10018, 0x28004)] }

/-- The test configuration in which a store of a running VM's registers shows in a vmcs that overlaps them. -/
def cfgOver : Config := { cfg with drawByte := fun _ _ _ pa => memRead (put mem0 [(0x20000, 0x20000), (0x20008, 0x20000), (0x20010, 0), (0x20018, 0x28000)]) pa.toNat }

theorem witness_UnusableStructuresRefuseTransfer :
    (CannotLeave cfg { guest with vms := [vmOdd] } vmOdd (guest.ip + 2) .misalignedStructure ∧
      ({ guest with vms := [vmOdd] } : State).mode cfg = .managedSupervisor ∧
      ({ guest with vms := [vmOdd] } : State).curVm? = some vmOdd) ∧
    (CannotLeave cfg guestClash vmA (guest.ip + 2) .vmregsOverlap ∧ guestClash.mode cfg = .managedSupervisor ∧
      guestClash.curVm? = some vmA ∧ CannotLeave cfg guestClash vmA (returnIp cfg guestClash 16) .vmregsOverlap ∧
      CannotLeave cfg { guestClash with drawCtr := 2 } vmA guest.ip .vmregsOverlap ∧ cfg.hvInterrupt 40 = true) ∧
    CannotLeave cfgOver { guest.setReg 3 7 with vms := [vmOver] } vmOver (guest.ip + 2) .vmcsChanged ∧
    (CannotEnter cfg { host with vms := [vmFar], mem := memFar } vmFar .unbackedStructure ∧
      ({ host with vms := [vmFar], mem := memFar } : State).mode cfg = .hypervisor ∧
      ctxClass cfg { host with vms := [vmFar], mem := memFar } (regGet host.regs r0) = .live vmFar none) ∧
    (CannotEnter cfg hostClash vmCalled .vmregsOverlap ∧ hostClash.mode cfg = .hypervisor ∧
      ctxClass cfg hostClash (regGet host.regs r0) = .live vmCalled none) ∧
    ((hv0.mode cfg = .hypervisor ∧ hv0.vmcount < vmLimitCpu cfg ∧ hv0.vmcountAll < vmLimitAll cfg ∧
        readOperand cfg (hv0.setReg 2 0x10004) [0, 2] = .value 0x10004) ∧
      readVmcs cfg hv0 .vmcsCreate 0x10004 = .error .misalignedStructure ∧
      readVmcs cfg hv0 .vmcsCreate 0xFFFFFFFFFFE8 = .error .unbackedStructure ∧
      hv0Clash.vmcountAll < vmLimitAll cfgTwo ∧ readVmcs cfgTwo hv0Clash .vmcsCreate 0x10000 = .ok vmcsA ∧
      vmcsLegal cfgTwo vmcsA = .ok () ∧ CannotEnter cfgTwo (withNewVm cfgTwo hv0Clash 0x10000 vmcsA)
        (newVm (freshVmNum cfgTwo hv0Clash) 0x10000 vmcsA) .vmregsOverlap) ∧
    (guestTable.g = true ∧ guestTable.curVm? = some vmTable ∧
      Leavable cfg guestTable vmTable (returnIp cfg guestTable 1) ∧
      vmcsOf cfg (trapLeft cfg guestTable vmTable 1) .vmcsTrap vmTable = .ok vmTable.vmcs ∧
      structureAt cfg vmTable.vmcs.vmtrxtab vmtrxtabBytes = .error .misalignedStructure) ∧
    regionsClash guestClash = true :=
  ⟨⟨.inl (by decide +kernel), by decide +kernel⟩,
    ⟨.inr (.inr (by decide +kernel)), by decide +kernel, by decide +kernel, .inr (.inr (by decide +kernel)),
      .inr (.inr (by decide +kernel)), rfl⟩,
    .inr (.inr (by decide +kernel)), ⟨.inr (.inl (by decide +kernel)), by decide +kernel⟩,
    ⟨.inr (.inr (by decide +kernel)), by decide +kernel⟩,
    ⟨by decide +kernel, by decide +kernel, by decide +kernel, by decide +kernel, by decide +kernel, by decide +kernel,
      .inr (.inr (by decide +kernel))⟩,
    ⟨rfl, by decide, ⟨by decide +kernel, by decide +kernel, by decide +kernel, by decide +kernel⟩, by decide +kernel,
      by decide +kernel⟩, by decide +kernel⟩

/-- R135, D25: where the CPU implements every address, an array that wraps past 2^64 is unbacked and one that ends there is not. -/
theorem test_wrapping_array_unbacked :
    structureAt { cfg with pasBits := fun _ => 64 } 0xFFFFFFFFFFFFF808 vmregsBytes = .error .unbackedStructure ∧
    structureAt { cfg with pasBits := fun _ => 64 } 0xFFFFFFFFFFFFF800 vmregsBytes = .ok () := by decide +kernel

theorem witness_LiveRegionIsNotWritten :
    isLive guest 0x20000 = true ∧ isLive guest 0x207FF = true ∧
    (isLive guest 0x20800 = false ∧ implemented cfg 0x20800 = true ∧
      keepsVmcs guest (memWrite guest.mem 0x20800 1) = true) ∧
    (isLive guest 0x1001F = false ∧ keepsVmcs guest (memWrite guest.mem 0x1001F 1) = false ∧
      keepsVmcs guest (memWrite guest.mem 0x10020 1) = true) ∧
    (isLive guest 0x1000000000000 = false ∧ implemented cfg 0x1000000000000 = false) ∧
    memWf guest.mem = true ∧ 0x10000 ∈ vmcsAddrs guest ∧
    ∃ t, applyEffect cfg guest { idle guest with writes := [(.virt 0, 1)] } = .next t :=
  ⟨by decide +kernel, by decide +kernel, by decide +kernel, by decide +kernel, by decide +kernel, by decide +kernel,
    by decide +kernel, (next_of (p := fun _ => true) (by decide +kernel)).imp fun _ h => h.1⟩

theorem witness_EnteringWritesNoMemory : ∃ t, enterVm cfg host vmCalled true false = .ok t := by
  cases h : enterVm cfg host vmCalled true false with
  | ok t => exact ⟨t, rfl⟩
  | error r =>
    have : (enterVm cfg host vmCalled true false).isOk = true := by decide +kernel
    simp [h, Except.isOk, Except.toBool] at this

/-! ### Whole-machine rules. -/

/-- The guest goes on running after an announcement. -/
theorem guest_goes_on : ∃ t, stepWith cfg guestGoesOn = .next t ∧ t.g = true := next_of (by decide +kernel)

theorem witness_GuestStepKeepsHypervisorState :
    (guest.g = true ∧ ∃ t, stepWith cfg guest = .next t) ∧ guestGoesOn.g = true ∧
      ∃ t, stepWith cfg guestGoesOn = .next t ∧ t.g = true :=
  ⟨⟨rfl, (next_of test_hcall_transfers).imp fun _ h => h.1⟩, rfl, guest_goes_on⟩

theorem witness_OnlyListedExitsLeaveVm : guest.g = true ∧ ∃ t, stepWith cfg guest = .next t ∧ t.g = false :=
  ⟨rfl, (next_of (p := fun t => !t.g) (by decide +kernel)).imp fun t h => ⟨h.1, by simpa using h.2⟩⟩

theorem witness_ResetVmIsNeverReentered :
    (Inv cfg afterReset ∧ (∃ t, stepWith cfg afterReset = .next t) ∧ vmReset ∈ afterReset.vms ∧ vmReset.status = .reset) ∧
    Inv cfgTwo guestBesideReset ∧ (∃ t, stepWith cfgTwo guestBesideReset = .next t ∧ t.g = true) ∧
      ∃ vm ∈ guestBesideReset.vms, vm.status = .reset :=
  ⟨⟨inv_afterReset, (next_of (p := fun _ => true) (by decide +kernel)).imp fun _ h => h.1, List.mem_singleton.mpr rfl, rfl⟩,
    inv_beside, next_of (by decide +kernel), _, List.mem_cons_of_mem _ (List.mem_singleton.mpr rfl), rfl⟩

theorem witness_GuestCannotObserveSavedRegisters : guestGoesOn.g = true ∧
    ∃ t, stepWith cfg guestGoesOn = .next t ∧ t.g = true :=
  ⟨rfl, guest_goes_on⟩

theorem witness_HypervisorCallIsTransparent : Inv cfg guest ∧ HcallReady cfg guest vmA ∧
    vmcsOf cfg (hcallTarget cfg guest vmA) .vmcsEnter vmA = .ok vmA.vmcs ∧
    regAvail cfg (guest.setIp (guest.ip + 2)).regs 2 = true ∧
    regAvail cfg (enterTarget cfg (hcallTarget cfg guest vmA) vmCalled 2 0).regs 2 = true :=
  ⟨inv_guest, ready_guest, by decide +kernel, by decide +kernel, by decide +kernel⟩

end Sys2Proof.Tests
end

section
/-! The invariant of R36 (10_state.md): each thing a step can do (`Laws.step_kinds`) keeps it. -/

namespace Sys2Proof.Proofs

open Sys2Proof.Machine Sys2Proof.Safety Sys2Proof.Laws

variable {c : Config} {s s0 t : State} {vm w : Vm}

/-! ## What is kept with the state of the extension. -/

/-- The invariant looks at the extension's state, XM, memory and what fetch has seen of it. -/
theorem inv_of_kept (hi : Inv c s) (h : Kept c s t) : Inv c t := by
  obtain ⟨hs, hx, hm⟩ := h
  have hme : t.me = s.me := hs.me
  have hcur : t.curVm? = s.curVm? := hs.curVm
  obtain ⟨hmxcw, hg, hsave, hcurvm, hvms, hdes, hdis, hoth⟩ := hs
  exact {
    guestManaged := by rw [hg, hme, hcur]; exact hi.guestManaged
    hypervisorSupervises := by
      rw [hg, hme]; exact fun a b => hx b a (hi.hypervisorSupervises a b)
    savedSupervises := by rw [hg, hsave]; exact hi.savedSupervises
    unmanagedEmpty := by rw [hme, hvms, hcurvm]; exact hi.unmanagedEmpty
    currentListed := by rw [hvms, hcurvm]; exact hi.currentListed
    numbersRise := by rw [hvms]; exact hi.numbersRise
    numbersNonzero := by rw [hvms]; exact hi.numbersNonzero
    limitKept := by unfold State.vmcount; rw [hvms]; exact hi.limitKept
    resetSignalled := by rw [hvms]; exact hi.resetSignalled
    vmcsLegal := by rw [hvms]; exact hi.vmcsLegal
    retiredFree := by rw [hvms, hdes, hdis]; exact hi.retiredFree
    retiredRise := by rw [hdes, hdis]; exact hi.retiredRise
    regionsDisjoint := (regionsClash_congr hvms hoth).trans hi.regionsDisjoint
    mxcwReserved := by rw [hmxcw]; exact hi.mxcwReserved
    memCanonical := hm.canonical hi.memCanonical
    seenChanges := by
      rw [hvms]
      exact ⟨hm.fetch.wf hi.seenChanges.1, fun v hv => (hi.seenChanges.2 v hv).trans hm.fetch.grows⟩ }

/-- Arrivals and draws are nothing of the extension's state. -/
theorem kept_of_started (h : Started s s0) : Kept c s s0 where
  same := ⟨h.mxcw, h.g, h.hsave, h.curvm, h.vms, h.retiredDestroyed, h.retiredDisabled, h.otherVms⟩
  supervises _ _ hx := by simpa only [State.xm, State.flags, h.regs] using hx
  mem := .of_eq h.mem h.fetch

/-! ## The entries of the VM table. -/

/-- What the invariant asks of one entry of the VM table. -/
structure EntryOk (c : Config) (s : State) (vm : Vm) : Prop where
  nonzero : vm.num ≠ 0
  resetSignalled : vm.status = .reset ↔ vm.pending = some 16
  legal : Machine.vmcsLegal c vm.vmcs = .ok ()
  notRetired : vm.num ∉ s.retiredDestroyed ∧ vm.num ∉ s.retiredDisabled
  seen : vm.seen ≤ s.fetch.changes.length

theorem entryOk_of_mem (hi : Inv c s) (hv : vm ∈ s.vms) : EntryOk c s vm where
  nonzero := hi.numbersNonzero vm hv
  resetSignalled := hi.resetSignalled vm hv
  legal := hi.vmcsLegal vm hv
  notRetired := hi.retiredFree vm hv
  seen := hi.seenChanges.2 vm hv

theorem curVm_of_find {n : VmNum} (hc : s.curvm = some n) (hf : vmFind s.vms n = some vm) : s.curVm? = some vm := by
  rw [State.curVm?, hc, Option.bind_some, hf]

theorem mem_of_curVm (h : s.curVm? = some vm) : vm ∈ s.vms := (vmFind_mem (curVm_some h).2).1

/-- An entry of the table is replaced by one with the same number and vmcs. -/
theorem inv_vmUpdate (hi : Inv c s) (hvm : vm ∈ s.vms) (hnum : w.num = vm.num) (hvmcs : w.vmcs = vm.vmcs)
    (hw : EntryOk c s w) (hactive : s.g = true → w.status = .active) :
    Inv c { s with vms := vmUpdate s.vms w } := by
  have hentry : ∀ v ∈ vmUpdate s.vms w, EntryOk c s v := by
    intro v hv
    rcases mem_vmUpdate hv with ⟨rfl, -⟩ | ⟨hv, -⟩
    · exact hw
    · exact entryOk_of_mem hi hv
  have hfound : (vmFind s.vms w.num).isSome = true := by
    rw [hnum, vmFind_of_mem hi.numbersRise hvm]; rfl
  have hfind : ∀ n v, vmFind s.vms n = some v →
      vmFind (vmUpdate s.vms w) n = some (if n = w.num then w else v) := by
    intro n v hv
    split
    · rename_i hn; rw [hn]; exact vmFind_vmUpdate_same hfound
    · rename_i hn; rw [vmFind_vmUpdate_ne _ _ hn, hv]
  exact { hi with
    guestManaged := by
      intro hg
      obtain ⟨hme, v, hv, hst⟩ := hi.guestManaged hg
      obtain ⟨hc, hf⟩ := curVm_some hv
      refine ⟨hme, _, curVm_of_find hc (hfind _ v hf), ?_⟩
      split
      · exact hactive hg
      · exact hst
    unmanagedEmpty := by
      intro hme
      have := (hi.unmanagedEmpty hme).1
      rw [this] at hvm
      cases hvm
    currentListed := by
      intro n hn
      obtain ⟨v, hv⟩ := Option.isSome_iff_exists.mp (hi.currentListed n hn)
      exact Option.isSome_iff_exists.mpr ⟨_, hfind n v hv⟩
    numbersRise := vmUpdate_rises w hi.numbersRise
    numbersNonzero := fun v hv => (hentry v hv).nonzero
    limitKept := (vmUpdate_length s.vms w).le.trans hi.limitKept
    resetSignalled := fun v hv => (hentry v hv).resetSignalled
    vmcsLegal := fun v hv => (hentry v hv).legal
    retiredFree := fun v hv => (hentry v hv).notRetired
    regionsDisjoint := by
      refine regionsClash_mono hi.regionsDisjoint rfl fun v hv => ?_
      rcases mem_vmUpdate hv with ⟨rfl, -⟩ | ⟨hv, -⟩
      · exact ⟨vm, hvm, by rw [hvmcs]⟩
      · exact ⟨v, hv, rfl⟩
    seenChanges := ⟨hi.seenChanges.1, fun v hv => (hentry v hv).seen⟩ }

/-! ## Leaving a VM (R157, R159). -/

/-- The hypervisor runs on, no table entry changed yet: XM is clear if management is on (R146). -/
theorem inv_outside {r : Regs} (hi : Inv c s) (hx : s.me = true → xm c (regGet r flagsReg) = false) :
    Inv c { s with g := false, regs := r } :=
  { hi with
    guestManaged := nofun
    hypervisorSupervises := fun _ => hx
    savedSupervises := nofun }

/-- The current VM may be left with any signal that goes with the status it then has. -/
theorem inv_of_left {p : Pending} {status : VmStatus} {hcall : Bool} {r : State} (hi : Inv c s) (hg : s.g = true)
    (hv : s.curVm? = some vm) (hl : LeftVm c s t (exitedVm r vm p status hcall)) (hm : MemStep s t)
    (hr : r.fetch = s.fetch) (hst : status = .reset ↔ p = some 16) : Inv c t := by
  have hvm := mem_of_curVm hv
  have hold := entryOk_of_mem hi hvm
  have hout : Inv c { s with g := false, regs := t.regs } :=
    inv_outside hi fun hme => hl.supervises hme (hi.savedSupervises hg)
  have hentry : EntryOk c { s with g := false, regs := t.regs } (exitedVm r vm p status hcall) :=
    { hold with
      resetSignalled := hst
      seen := by
        rw [exitedVm, hr]
        exact (fetchView_wf.mp hi.seenChanges.1).1 }
  have hleft : Inv c { s with g := false, regs := t.regs, vms := vmUpdate s.vms (exitedVm r vm p status hcall) } :=
    inv_vmUpdate (vm := vm) hout hvm rfl rfl hentry nofun
  refine inv_of_kept hleft ⟨?_, fun _ _ hx => hx, hm.before rfl rfl⟩
  exact ⟨hl.mxcw, hl.g, hl.hsave, hl.curvm, hl.vms, hl.retiredDestroyed, hl.retiredDisabled, hl.otherVms⟩

/-- A VM that runs has not received RESET. -/
theorem current_active (hi : Inv c s) (hg : s.g = true) (hv : s.curVm? = some vm) : vm.status = .active := by
  obtain ⟨-, v, hv', hst⟩ := hi.guestManaged hg
  rw [hv] at hv'
  cases hv'
  exact hst

/-- Leaving a running VM with a signal other than RESET. -/
theorem inv_of_left_running {p : Pending} {hcall : Bool} {r : State} (hi : Inv c s) (hg : s.g = true)
    (hv : s.curVm? = some vm) (hl : LeftVm c s t (exitedVm r vm p vm.status hcall)) (hm : MemStep s t)
    (hr : r.fetch = s.fetch) (hp : p ≠ some 16) : Inv c t := by
  refine inv_of_left hi hg hv hl hm hr ?_
  rw [current_active hi hg hv]
  exact iff_of_false VmStatus.noConfusion hp

theorem castLE_ne_reset (n : Fin 16) : some (n.castLE (by decide)) ≠ (some 16 : Pending) := by
  intro h
  have h16 : n.val = 16 := congrArg Fin.val (Option.some.inj h)
  omega

theorem inv_of_exited (hi : Inv c s) (h : Exited c s t) : Inv c t := by
  obtain ⟨hg, hm, vm, w, hv, hl, ⟨ip, n, -, rfl⟩ | ⟨ip, rfl⟩⟩ := h
  · exact inv_of_left_running hi hg hv hl hm rfl (castLE_ne_reset n)
  · exact inv_of_left hi hg hv hl hm rfl (iff_of_true rfl rfl)

theorem inv_of_interrupted {j : Nat} (hi : Inv c s) (h : Interrupted c s t j) : Inv c t := by
  obtain ⟨hg, -, hm, vm, hv, hl⟩ := h
  exact inv_of_left_running hi hg hv hl hm rfl (Option.some_ne_none _).symm

theorem inv_of_called (hi : Inv c s) (h : Called c s t) : Inv c t := by
  obtain ⟨hmode, hm, vm, w, hv, hl, rfl⟩ := h
  exact inv_of_left_running hi (mode_managed.mp hmode).2.2 hv hl hm rfl (Option.some_ne_none _).symm

theorem inv_of_ordinary (hi : Inv c s) (h : Ordinary c s t) : Inv c t :=
  h.elim (inv_of_kept hi) (inv_of_exited hi)

/-! ## Entering a VM (R158). -/

/-- The hypervisor enters an active VM of the table. -/
theorem inv_of_entered (hi : Inv c s) (hmode : s.mode c = .hypervisor) (hf : vmFind s.vms vm.num = some vm)
    (hst : vm.status = .active) (h : EnteredVm c s t vm) : Inv c t := by
  obtain ⟨hx, hme, hg⟩ := mode_hypervisor.mp hmode
  have hvm := (vmFind_mem hf).1
  have hflags : regGet t.hsave flagsReg = s.flags := (h.hsave flagsReg (by decide)).trans (x_flags c s)
  have hin : Inv c { s with g := true, curvm := some vm.num, hsave := t.hsave } :=
    { hi with
      guestManaged := fun _ => ⟨hme, vm, hf, hst⟩
      hypervisorSupervises := nofun
      savedSupervises := fun _ => by simpa only [State.xm, ← hflags] using hx
      unmanagedEmpty := fun h => nomatch hme.symm.trans h
      currentListed := fun n hn => by cases hn; rw [hf]; rfl }
  have hm : MemStep s t := h.mem (hi.seenChanges.2 vm hvm) hi.seenChanges.1
  refine inv_of_kept hin ⟨?_, fun _ h => (nomatch h), hm.before rfl rfl⟩
  exact ⟨h.mxcw, h.g, rfl, h.curvm, h.vms, h.retiredDestroyed, h.retiredDisabled, h.otherVms⟩

/-- hresume takes the signal off the VM it entered (R92). -/
theorem inv_clearPending (hi : Inv c s) (hvm : vm ∈ s.vms) (hst : vm.status = .active) :
    Inv c (clearPending s vm) := by
  have hentry : EntryOk c s { vm with pending := none } :=
    { entryOk_of_mem hi hvm with
      resetSignalled := iff_of_false (by rw [hst]; exact VmStatus.noConfusion) (Option.some_ne_none _).symm }
  exact inv_vmUpdate hi hvm rfl rfl hentry fun _ => hst

theorem inv_of_returned (hi : Inv c s) (h : Returned c s t) : Inv c t := by
  obtain ⟨hmode, vm, s1, s2, hf, hst, he, hs2, ho⟩ := h
  have h1 : Inv c s1 := inv_of_entered hi hmode hf hst he
  rcases hs2 with rfl | ⟨-, rfl⟩
  · exact inv_of_ordinary h1 ho
  · have hvm : vm ∈ s1.vms := by rw [he.vms]; exact (vmFind_mem hf).1
    exact inv_of_ordinary (inv_clearPending h1 hvm hst) ho

/-! ## The hypervisor's management of its VMs (R105, R110). -/

/-- There is a fresh number while the limit is not reached (R107). -/
theorem freshVmNum_unused (hl : s.vmcount < vmLimitCpu c) :
    freshVmNum c s ≠ 0 ∧ vmFind s.vms (freshVmNum c s) = none :=
  freshVmNum_free c (smallestFree_free (hl.trans_le (Nat.min_le_right _ _)))

/-- A VM with a number not in use is added below the limit (R105, R106). -/
theorem inv_addVm (hi : Inv c s) (hme : s.me = true) (hg : s.g = false) (hl : s.vmcount < vmLimitCpu c)
    (hnew : vmFind s.vms vm.num = none) (hok : EntryOk c (addVm s vm) vm) (hd : regionsClash (addVm s vm) = false) :
    Inv c (addVm s vm) := by
  have hentry : ∀ v ∈ vmInsert s.vms vm, EntryOk c (addVm s vm) v := by
    intro v hv
    rcases mem_vmInsert hv with rfl | hv
    · exact hok
    · have hold := entryOk_of_mem hi hv
      exact { hold with
        notRetired :=
          ⟨fun h => hold.notRetired.1 (mem_numErase.mp h).1, fun h => hold.notRetired.2 (mem_numErase.mp h).1⟩ }
  exact { hi with
    guestManaged := fun h => nomatch hg.symm.trans h
    unmanagedEmpty := fun h => nomatch hme.symm.trans h
    currentListed := by
      intro n hn
      by_cases he : n = vm.num
      · rw [he, addVm_vms, vmFind_vmInsert_same]; rfl
      · rw [addVm_vms, vmFind_vmInsert_ne _ _ he]; exact hi.currentListed n hn
    numbersRise := vmInsert_rises vm hi.numbersRise
    numbersNonzero := fun v hv => (hentry v hv).nonzero
    limitKept := (vmInsert_length hnew).le.trans hl
    resetSignalled := fun v hv => (hentry v hv).resetSignalled
    vmcsLegal := fun v hv => (hentry v hv).legal
    retiredFree := fun v hv => (hentry v hv).notRetired
    retiredRise := ⟨numErase_rises _ hi.retiredRise.1, numErase_rises _ hi.retiredRise.2⟩
    regionsDisjoint := hd
    seenChanges := ⟨hi.seenChanges.1, fun v hv => (hentry v hv).seen⟩ }

/-- Below the limits there is room for one more VM on this CPU. -/
theorem room_of_limit (h : limitReached c s = false) : s.vmcount < vmLimitCpu c := by
  simp only [limitReached, Bool.or_eq_false_iff, decide_eq_false_iff_not, not_le] at h
  exact h.1

theorem inv_of_created (hi : Inv c s) (h : Created c s t) : Inv c t := by
  obtain ⟨hmode, hlim, vm, s1, hnum, hst, hp, hseen, hleg, he, ho⟩ := h
  obtain ⟨hx, hme, hg⟩ := mode_hypervisor.mp hmode
  obtain ⟨h0, hnew⟩ := freshVmNum_unused (c := c) (room_of_limit hlim)
  rw [← hnum] at h0 hnew
  have hok : EntryOk c (addVm s vm) vm :=
    { nonzero := h0
      resetSignalled :=
        iff_of_false (by rw [hst]; exact VmStatus.noConfusion) (by rw [hp]; exact (Option.some_ne_none _).symm)
      legal := hleg
      notRetired := ⟨fun h => (mem_numErase.mp h).2 rfl, fun h => (mem_numErase.mp h).2 rfl⟩
      seen := hseen.le.trans (Nat.zero_le _) }
  have hadd : Inv c (addVm s vm) := inv_addVm hi hme hg (room_of_limit hlim) hnew hok he.apart
  exact inv_of_ordinary (inv_of_entered hadd hmode (vmFind_vmInsert_same s.vms vm) hst he) ho

/-- A VM is disposed of (R110). -/
theorem inv_removeVm (hi : Inv c s) (hme : s.me = true) (hg : s.g = false) : Inv c (removeVm s vm) := by
  have hentry : ∀ v ∈ vmErase s.vms vm.num, EntryOk c (removeVm s vm) v := by
    intro v hv
    obtain ⟨hv, hne⟩ := mem_vmErase.mp hv
    have hold := entryOk_of_mem hi hv
    exact { hold with
      notRetired := ⟨fun h => (mem_numInsert.mp h).elim hne hold.notRetired.1, hold.notRetired.2⟩ }
  exact { hi with
    guestManaged := fun h => nomatch hg.symm.trans h
    unmanagedEmpty := fun h => nomatch hme.symm.trans h
    currentListed := by
      intro n hn
      rw [removeVm_curvm] at hn
      split at hn
      · cases hn
      · rename_i hne
        rw [removeVm_vms, vmFind_vmErase_ne _ fun he => hne (hn.trans (congrArg some he))]
        exact hi.currentListed n hn
    numbersRise := vmErase_rises _ hi.numbersRise
    numbersNonzero := fun v hv => (hentry v hv).nonzero
    limitKept := (List.length_filter_le _ _).trans hi.limitKept
    resetSignalled := fun v hv => (hentry v hv).resetSignalled
    vmcsLegal := fun v hv => (hentry v hv).legal
    retiredFree := fun v hv => (hentry v hv).notRetired
    retiredRise := ⟨numInsert_rises _ hi.retiredRise.1, hi.retiredRise.2⟩
    regionsDisjoint := regionsClash_mono hi.regionsDisjoint rfl fun v hv => ⟨v, (mem_vmErase.mp hv).1, rfl⟩
    seenChanges := ⟨hi.seenChanges.1, fun v hv => (hentry v hv).seen⟩ }

theorem kept_advance (n : Nat) : Kept c s (s.advance n) :=
  ⟨sameVirt_advance s n, fun _ _ hx => (advance_xm c s n).trans hx, .of_eq rfl rfl⟩

theorem inv_of_destroyed (hi : Inv c s) (h : Destroyed c s t) : Inv c t := by
  obtain ⟨hmode, vm, -, rfl⟩ := h
  obtain ⟨-, hme, hg⟩ := mode_hypervisor.mp hmode
  exact inv_of_kept (inv_removeVm hi hme hg) (kept_advance 2)

/-! ## No VMs: reset (R33, R180), and management disabled (R144). -/

/-- Outside a VM, with no VM in the table, the clauses on VMs say nothing. -/
theorem inv_of_noVms (hg : s.g = false) (hx : s.me = true → s.xm c = false) (hvms : s.vms = []) (hcur : s.curvm = none)
    (hret : s.retiredDestroyed.Pairwise (· < ·) ∧ s.retiredDisabled.Pairwise (· < ·))
    (hoth : othersClash s.otherVms = false) (hmxcw : mxcwLegal s.mxcw = true) (hmem : memWf s.mem = true)
    (hfetch : s.fetch.wf = true) : Inv c s := by
  have hnone : ∀ {P : Vm → Prop}, ∀ v ∈ s.vms, P v := by
    rw [hvms]; exact nofun
  exact {
    guestManaged := fun h => nomatch hg.symm.trans h
    hypervisorSupervises := fun _ => hx
    savedSupervises := fun h => nomatch hg.symm.trans h
    unmanagedEmpty := fun _ => ⟨hvms, hcur⟩
    currentListed := fun _ h => nomatch hcur.symm.trans h
    numbersRise := by rw [hvms]; exact .nil
    numbersNonzero := hnone
    limitKept := by rw [State.vmcount, hvms]; exact Nat.zero_le _
    resetSignalled := hnone
    vmcsLegal := hnone
    retiredFree := hnone
    retiredRise := hret
    regionsDisjoint := regionsClash_false.mpr ⟨hnone, hoth⟩
    mxcwReserved := hmxcw
    memCanonical := hmem
    seenChanges := ⟨hfetch, hnone⟩ }

/-- Memory, what fetch has seen of it and the other CPUs' VMs survive a reset of the CPU; the rest is as at reset. -/
theorem inv_cpuReset (hi : Inv c s) : Inv c (cpuReset s) :=
  inv_of_noVms rfl (fun h => by simp [State.me] at h) rfl rfl ⟨.nil, .nil⟩ (regionsClash_false.mp hi.regionsDisjoint).2
    (by rw [cpuReset_mxcw]; decide) hi.memCanonical hi.seenChanges.1

theorem inv_of_cpuReset (hi : Inv c s) (h : CpuReset s t) : Inv c t := h.2 ▸ inv_cpuReset hi

theorem inv_disableManagement (hi : Inv c s) (hg : s.g = false) : Inv c (disableManagement s) :=
  inv_of_noVms hg (hi.hypervisorSupervises hg) rfl rfl ⟨hi.retiredRise.1, retireAll_rises hi.retiredRise.2⟩
    (regionsClash_false.mp hi.regionsDisjoint).2 hi.mxcwReserved hi.memCanonical hi.seenChanges.1

/-! ## mxcw (R143, R144) and the other CPUs (R47). -/

/-- mxcw takes a legal value in supervisor mode; with ME clear in it there must be no VMs. -/
theorem inv_withMxcw {v : Word} (hi : Inv c s) (hg : s.g = false) (hx : s.xm c = false) (hv : mxcwLegal v = true)
    (hempty : v.getLsbD 0 = false → s.vms = [] ∧ s.curvm = none) : Inv c { s with mxcw := v } :=
  { hi with
    guestManaged := fun h => nomatch hg.symm.trans h
    hypervisorSupervises := fun _ _ => hx
    unmanagedEmpty := hempty
    mxcwReserved := hv }

theorem inv_writeMxcw {v : Word} (hi : Inv c s) (hg : s.g = false) (hx : s.xm c = false) (hv : mxcwLegal v = true) :
    Inv c (writeMxcw s v) := by
  unfold writeMxcw
  split
  · exact inv_withMxcw (inv_disableManagement hi hg) hg hx hv fun _ => ⟨rfl, rfl⟩
  · rename_i hcond
    refine inv_withMxcw hi hg hx hv fun hv0 => hi.unmanagedEmpty ?_
    rw [hv0] at hcond
    simpa using hcond

theorem inv_of_mxcwWritten (hi : Inv c s) (h : MxcwWritten c s t) : Inv c t := by
  obtain ⟨hg, v, hv, hx, hk, -⟩ := h
  exact inv_of_kept (inv_writeMxcw hi hg hx hv) hk

theorem inv_of_othersChanged (hi : Inv c s) (h : OthersChanged s t) : Inv c t := by
  obtain ⟨hd, l, rfl⟩ := h
  exact { hi with regionsDisjoint := hd }

/-! ## The step. -/

theorem inv_of_stepWith (hi : Inv c s) (h : stepWith c s = .next t) : Inv c t := by
  obtain ⟨-, s0, hs0, hkinds⟩ := step_kinds h
  have h0 : Inv c s0 := inv_of_kept hi (kept_of_started hs0)
  rcases hkinds with h | h | h | h | h | h | h | ⟨j, es, -, h⟩ | ⟨-, -, h⟩
  · exact inv_of_ordinary h0 h
  · exact inv_of_returned h0 h
  · exact inv_of_created h0 h
  · exact inv_of_destroyed h0 h
  · exact inv_of_cpuReset h0 h
  · exact inv_of_mxcwWritten h0 h
  · exact inv_of_othersChanged h0 h
  · exact inv_of_interrupted h0 h
  · exact inv_of_called h0 h

/-- The dispatch of the hardware is the instructions' meaning at its configuration. -/
theorem exec_eq_execWith : exec = execWith Config.hw := by
  funext i s
  cases i <;> rfl

theorem step_eq_stepWith (s : State) : step s = stepWith Config.hw s := by
  rw [step, stepWith, exec_eq_execWith]

/-- Settles O12: everything a step can do (`step_kinds`) keeps the invariant. -/
theorem stepKeepsInvariant : Obligations.StepKeepsInvariant :=
  ⟨fun _ _ _ => inv_of_stepWith, fun s _ hi h => inv_of_stepWith hi (step_eq_stepWith s ▸ h)⟩

end Sys2Proof.Proofs
end

section
/-! The rules of 10_state.md about one state: the values at reset, the ports, identifiers. -/

namespace Sys2Proof.Proofs

open Sys2Proof.Machine Sys2Proof.Safety Sys2Proof.Laws

variable {c : Config} {s : State} {vm : Vm}

/-! ## Reset (R33). -/

theorem reset_xm (c : Config) : State.reset.xm c = false := by
  rw [State.xm, State.flags, State.reset, regGet_zeroRegs]
  rfl

/-- Settles O1: the fields are `State.reset`'s own, and with XM and ME clear the mode is Unmanaged Supervisor. -/
theorem resetLeavesUnmanagedSupervisor : Obligations.ResetLeavesUnmanagedSupervisor := by
  intro c
  have hmode : State.reset.mode c = .unmanagedSupervisor := mode_unmanaged.mpr ⟨reset_xm c, rfl⟩
  exact ⟨rfl, rfl, rfl, rfl, rfl, rfl, rfl, rfl, rfl, hmode⟩

/-- Settles O3: at reset there are no VMs (`inv_of_noVms`). -/
theorem invariantHoldsAtReset : Obligations.InvariantHoldsAtReset := fun c =>
  inv_of_noVms rfl (fun _ => reset_xm c) rfl rfl ⟨.nil, .nil⟩ rfl (by decide) reset_mem_wf rfl

/-! ## The ports (R20, R21, R126). -/

theorem ioRead_mxcw (c : Config) (s : State) : ioReadValue c s ioMxcw true = s.mxcw := rfl

theorem ioRead_context (c : Config) (s : State) : ioReadValue c s ioContext true = contextPort c s := rfl

theorem ioRead_vmcs (c : Config) (s : State) : ioReadValue c s ioVmcs true = vmcsPort s := rfl

theorem contextPort_current (h : s.curVm? = some vm) : contextPort c s = ctxEncode c vm.num none := by
  rw [contextPort, h]

theorem vmcsPort_current (h : s.curVm? = some vm) : vmcsPort s = vm.vmcsPa := by
  rw [vmcsPort, h]

theorem curVm_none (h : s.curvm = none) : s.curVm? = none := by
  rw [State.curVm?, h, Option.bind_none]

theorem contextPort_none (h : s.curVm? = none) : contextPort c s = 0 := by
  rw [contextPort, h]

theorem vmcsPort_none (h : s.curVm? = none) : vmcsPort s = 0 := by
  rw [vmcsPort, h]

/-- A 64-bit `out` to either port is refused (D15). -/
theorem ioWrite_port {a : Word} (ha : a = ioContext ∨ a = ioVmcs) (v : Word) (e : Effect) :
    ioWrite c s a true v e = .refused .portWrite := by
  rcases ha with rfl | rfl <;> rfl

/-- Settles O37: a 64-bit access to a port reaches the port, which reads off the current VM (`contextPort`, `vmcsPort`). -/
theorem portsNameCurrentVm : Obligations.PortsNameCurrentVm := by
  intro c s
  refine ⟨ioRead_mxcw c s, fun vm hv => ⟨?_, ?_⟩, fun hn => ⟨?_, ?_⟩, fun v e => ⟨?_, ?_⟩⟩
  · rw [ioRead_context, contextPort_current hv]
  · rw [ioRead_vmcs, vmcsPort_current hv]
  · rw [ioRead_context, contextPort_none (curVm_none hn)]
  · rw [ioRead_vmcs, vmcsPort_none (curVm_none hn)]
  · exact ioWrite_port (.inl rfl) v e
  · exact ioWrite_port (.inr rfl) v e

/-! ## Identifiers (R32). -/

theorem ctxNum_ctxEncode (c : Config) (n : VmNum) (p : Pending) : ctxNum (ctxEncode c n p) = n := ctxNum_append _ n

theorem ctxHigh_ctxEncode (c : Config) (n : VmNum) (p : Pending) :
    ctxHigh (ctxEncode c n p) = c.ctxPerm n (pendingCode p) := ctxHigh_append _ n

theorem ctxDecode_zero {id : Word} (h : ctxNum id = 0) : ctxDecode c id = none := if_pos h

theorem ctxDecode_ctxEncode {n : VmNum} (hn : n ≠ 0) (p : Pending) : ctxDecode c (ctxEncode c n p) = some (n, p) := by
  unfold ctxDecode
  rw [ctxNum_ctxEncode, if_neg hn, ctxHigh_ctxEncode, Equiv.symm_apply_apply, pendingOfCode_pendingCode]

/-- Settles O50: the permutation of the high half and the coding of the signal are undone in turn. -/
theorem identifierLaws : Obligations.IdentifierLaws := fun c n p =>
  ⟨ctxNum_ctxEncode c n p, fun hn => ctxDecode_ctxEncode hn p, fun _ => ctxDecode_zero⟩

/-! ## Deliveries (R149). -/

/-- A base operation leaves a register that is not read-only as its effect says (R17, R131). -/
theorem regGet_keepReadOnly {i : RegNo} (h : hwReg c i = none) (r : Regs) : regGet (keepReadOnly c s r) i = regGet r i := by
  rw [keepReadOnly, regGet_regsOf, h]
  rfl

/-- An effect with a byte that has no place does nothing but leave a PF to be taken. -/
theorem commit_unplaced {e : Effect} {o : Origin} (h : placeWrites c s 0 e.writes = none) :
    commit c s e o = { s with events := .exception c.pfNo .virt o :: s.events } := by
  rw [commit, h]

theorem commit_placed_regs {e : Effect} {o : Origin} {ws : List (Nat × Byte)}
    (h : placeWrites c s 0 e.writes = some ws) : (commit c s e o).regs = keepReadOnly c s e.regs := by
  rw [commit, h]

theorem commit_placed_events {e : Effect} {o : Origin} {ws : List (Nat × Byte)}
    (h : placeWrites c s 0 e.writes = some ws) : (commit c s e o).events = furtherEvents o e.further ++ s.events := by
  rw [commit, h]

/-- Where a delivery's effect ends in something further, it is the base ISA's as it stands (log 13). -/
theorem handlerEffect_further {e : Effect} {f : Further} (h : e.further = some f) : handlerEffect c e = e :=
  if_pos (by rw [h]; rfl)

/-- Where it does not, the handler it enters is a supervisor's (log 11). -/
theorem handlerEffect_xm {e : Effect} (h : e.further = none) : xm c (regGet (handlerEffect c e).regs flagsReg) = false := by
  rw [handlerEffect, if_neg (by rw [h]; exact Bool.false_ne_true), regGet_regSet_same, xm_clearXm]

theorem commit_placed_xm {e : Effect} {o : Origin} {ws : List (Nat × Byte)}
    (h : placeWrites c s 0 e.writes = some ws) : (commit c s e o).xm c = xm c (regGet e.regs flagsReg) := by
  rw [State.xm, State.flags, commit_placed_regs h, regGet_keepReadOnly (hwReg_fixed c (by decide))]

/-- Settles O49: the effect is committed whole, or, a byte of it having no place, only the PF is left; committed with nothing
further to come, it has entered a handler with XM clear. -/
theorem deliveryKeepsExtensionState : Obligations.DeliveryKeepsExtensionState := by
  intro c s n ret cause o t h
  obtain ⟨hmxcw, hg, hsave, hcurvm, hvms, hdes, hdis, hoth⟩ := (deliverTo_keeps h).1
  refine ⟨hmxcw, hg, hsave, hcurvm, hvms, hdes, hdis, hoth, fun hx => ?_⟩
  rw [deliverTo_next h] at hx ⊢
  set e := c.deliver (view c s .deliver) n ret cause
  cases hw : placeWrites c s 0 (handlerEffect c e).writes with
  | none =>
    rw [commit_unplaced hw]
    exact .inl ⟨rfl, rfl, rfl⟩
  | some ws =>
    cases hf : e.further with
    | none =>
      rw [commit_placed_xm hw, handlerEffect_xm hf] at hx
      cases hx
    | some f =>
      refine .inr ⟨f, rfl, ?_⟩
      rw [commit_placed_events hw, handlerEffect_further hf, hf]

end Sys2Proof.Proofs
end

section
/-! What happens inside a VM (R23): no step changes the hypervisor's state, and none depends on its saved registers. -/

namespace Sys2Proof.Proofs

open Sys2Proof.Machine Sys2Proof.Laws

variable {c : Config} {s t : State} {x : Regs}

/-! ## A step inside a VM (R155). -/

/-- Inside a VM the mode is not Hypervisor mode (R141). -/
theorem mode_ne_hypervisor (hg : s.g = true) : s.mode c ≠ .hypervisor :=
  fun h => nomatch hg.symm.trans (mode_hypervisor.mp h).2.2

/-- Inside a VM a step keeps the extension's state, takes a change of the other CPUs' VMs, or leaves the VM. -/
theorem step_inside (hg : s.g = true) (h : stepWith c s = .next t) :
    ∃ s0, Started s s0 ∧ (Kept c s0 t ∨ OthersChanged s0 t ∨ ∃ w, LeftVm c s0 t w) := by
  obtain ⟨-, s0, hs0, hkinds⟩ := step_kinds h
  have hg0 : s0.g = true := hs0.g.trans hg
  have hmode : s0.mode c ≠ .hypervisor := mode_ne_hypervisor hg0
  refine ⟨s0, hs0, ?_⟩
  rcases hkinds with (h | ⟨-, -, vm, w, -, hl, -⟩) | h | h | h | h | h | h | ⟨j, es, -, h⟩ | ⟨-, -, h⟩
  · exact .inl h
  · exact .inr (.inr ⟨w, hl⟩)
  · exact absurd h.1 hmode
  · exact absurd h.1 hmode
  · exact absurd h.1 hmode
  · exact nomatch hg0.symm.trans h.1
  · exact nomatch hg0.symm.trans h.1
  · exact .inr (.inl h)
  · obtain ⟨-, -, -, vm, -, hl⟩ := h
    exact .inr (.inr ⟨_, hl⟩)
  · obtain ⟨-, -, vm, w, -, hl, -⟩ := h
    exact .inr (.inr ⟨w, hl⟩)

/-- Settles O56: of what a step inside a VM can do, only leaving it changes the table, and one entry of it. -/
theorem guestStepKeepsHypervisorState : Obligations.GuestStepKeepsHypervisorState := by
  intro c s t hg h
  obtain ⟨s0, hs0, hk⟩ := step_inside hg h
  rw [← hs0.mxcw, ← hs0.hsave, ← hs0.curvm, ← hs0.retiredDestroyed, ← hs0.retiredDisabled, ← hs0.vms]
  rcases hk with ⟨hk, -, -⟩ | ⟨-, l, rfl⟩ | ⟨w, hl⟩
  · exact ⟨hk.mxcw, hk.hsave, hk.curvm, hk.retiredDestroyed, hk.retiredDisabled, congrArg _ hk.vms, fun _ => hk.vms⟩
  · exact ⟨rfl, rfl, rfl, rfl, rfl, rfl, fun _ => rfl⟩
  · have hnums : t.vms.map Vm.num = s0.vms.map Vm.num := by rw [hl.vms, vmUpdate_nums]
    exact ⟨hl.mxcw, hl.hsave, hl.curvm, hl.retiredDestroyed, hl.retiredDisabled, hnums,
      fun ht => nomatch hl.g.symm.trans ht⟩

/-! ## The saved registers are hidden (R23). -/

/-- Where the first run answers a state inside the VM, the second, begun with `x` saved, answers the same state with `x`
saved. -/
def Hidden (x : Regs) (r q : Result) : Prop := ∀ t, r = .next t → t.g = true → q = .next (withSaved t x)

theorem hidden_next (x : Regs) (s : State) : Hidden x (.next s) (.next (withSaved s x)) := by
  intro t h _
  cases h
  rfl

theorem hidden_fault (x : Regs) (f : Fault) (q : Result) : Hidden x (.fault f) q := nofun

theorem hidden_refused (x : Regs) (r : Refusal) (q : Result) : Hidden x (.refused r) q := nofun

/-- A run that leaves the VM has nothing to hide: the hypervisor gets its registers back. -/
theorem hidden_of_leaves {r : Result} (q : Result) (h : ∀ t, r = .next t → t.g = false) : Hidden x r q :=
  fun t ht hg => nomatch (h t ht).symm.trans hg

/-- Both runs make the same choice. -/
theorem hidden_ite {P : Prop} [Decidable P] {r r' q q' : Result} (h : P → Hidden x r q) (h' : ¬P → Hidden x r' q') :
    Hidden x (if P then r else r') (if P then q else q') := by
  split
  · exact h ‹_›
  · exact h' ‹_›

theorem hidden_orRefuse {α : Type} {v : Except Refusal α} {k k' : α → Result} (h : ∀ a, Hidden x (k a) (k' a)) :
    Hidden x (orRefuse v k) (orRefuse v k') := by
  cases v with
  | error r => exact hidden_refused x r _
  | ok a => exact h a

theorem hidden_applyEffect (e : Effect) (o : Origin := .own) :
    Hidden x (applyEffect c s e o) (applyEffect c (withSaved s x) e o) :=
  fun _ h _ => applyEffect_withSaved c s x h

theorem hidden_deliver (n : Nat) (cause : Cause) : Hidden x (deliver c s n cause) (deliver c (withSaved s x) n cause) :=
  fun _ h _ => deliver_withSaved c s x h

theorem hidden_raise (n : Fin 16) (cause : Cause) : Hidden x (raise c s n cause) (raise c (withSaved s x) n cause) :=
  fun _ h hg => raise_withSaved c s x h hg

/-! ### The extension's instructions inside a VM. -/

theorem hcallUnd_inside (hg : s.g = true) : hcallUnd c s = raise c s c.undNo .virt :=
  if_neg fun h => mode_ne_hypervisor hg h.1

/-- The transfer of hcall ends outside the VM (R80). -/
theorem hcall_transfer_leaves {vm : Vm} {s1 : State} (h1 : exitVm c s vm none vm.status true = .ok s1)
    (h : checkHypervisorIp c (atHypervisorProcedure c s1) = .next t) : t.g = false :=
  (checkHypervisorIp_keeps h).1.g.trans (leaveVm_left h1).1.g

theorem hidden_hcall (hg : s.g = true) (h : BitVec 4) : Hidden x (hcallWith c h s) (hcallWith c h (withSaved s x)) := by
  unfold hcallWith
  rw [withSaved_xm, withSaved_mode, withSaved_curVm, hcallUnd_inside hg, hcallUnd_inside (s := withSaved s x) hg]
  refine hidden_ite (fun _ => hidden_raise _ _) fun _ => hidden_ite (fun _ => hidden_raise _ _) fun _ =>
    hidden_ite (fun _ => hidden_raise _ _) fun _ => ?_
  cases s.curVm? with
  | none => exact hidden_fault x _ _
  | some vm =>
    refine hidden_of_leaves _ fun t ht => ?_
    obtain ⟨s1, h1, h2⟩ := orRefuse_next.mp ht
    exact hcall_transfer_leaves h1 h2

theorem hidden_hvReturn (hg : s.g = true) (b : Bool) (h : BitVec 4) :
    Hidden x (hvReturn c b h s) (hvReturn c b h (withSaved s x)) := by
  unfold hvReturn
  rw [withSaved_xm, withSaved_mode]
  simp only [if_pos (mode_ne_hypervisor (c := c) hg)]
  exact hidden_ite (fun _ => hidden_raise _ _) fun _ => hidden_ite (fun _ => hidden_raise _ _) fun _ => hidden_raise _ _

theorem hidden_vmcreate (hg : s.g = true) (h : BitVec 4) (src : List Byte) :
    Hidden x (vmcreateWith c h src s) (vmcreateWith c h src (withSaved s x)) := by
  unfold vmcreateWith
  rw [withSaved_mode]
  simp only [if_pos (mode_ne_hypervisor (c := c) hg)]
  exact hidden_ite (fun _ => hidden_raise _ _) fun _ => hidden_raise _ _

theorem hidden_vmdestroy (hg : s.g = true) (h : BitVec 4) :
    Hidden x (vmdestroyWith c h s) (vmdestroyWith c h (withSaved s x)) := by
  unfold vmdestroyWith
  rw [withSaved_mode]
  simp only [if_pos (mode_ne_hypervisor (c := c) hg)]
  exact hidden_ite (fun _ => hidden_raise _ _) fun _ => hidden_raise _ _

theorem hidden_execWith (hg : s.g = true) (i : Instr) : Hidden x (execWith c i s) (execWith c i (withSaved s x)) := by
  cases i with
  | hcall h => exact hidden_hcall hg h
  | hret h => exact hidden_hvReturn hg false h
  | hresume h => exact hidden_hvReturn hg true h
  | vmcreate h src => exact hidden_vmcreate hg h src
  | vmdestroy h => exact hidden_vmdestroy hg h

/-! ### Base instructions inside a VM. -/

theorem ioReadValue_withSaved (c : Config) (s : State) (x : Regs) : ioReadValue c (withSaved s x) = ioReadValue c s := by
  funext a wide
  unfold ioReadValue
  rw [view_withSaved]
  rfl

theorem ioAllowed_withSaved (c : Config) (s : State) (x : Regs) : ioAllowed c (withSaved s x) = ioAllowed c s := by
  unfold ioAllowed
  rw [vmcsOf_withSaved]
  rfl

theorem hidden_ioGate {k k' : Result} (h : Hidden x k k') : Hidden x (ioGate c s k) (ioGate c (withSaved s x) k') := by
  unfold ioGate
  rw [withSaved_g, withSaved_curVm, ioAllowed_withSaved]
  exact hidden_ite (fun _ => hidden_fault x _ _) fun _ => hidden_orRefuse fun _ =>
    hidden_ite (fun _ => h) fun _ => hidden_raise _ _

theorem hidden_ioWrite (hg : s.g = true) (a : Word) (wide : Bool) (v : Word) (e : Effect) :
    Hidden x (ioWrite c s a wide v e) (ioWrite c (withSaved s x) a wide v e) := by
  unfold ioWrite
  rw [view_withSaved, withSaved_g, if_pos hg, if_pos hg]
  exact hidden_ite (fun _ => hidden_applyEffect e) fun _ =>
    hidden_ite (fun _ => hidden_refused x _ _) fun _ => hidden_applyEffect _

theorem hidden_returnGate (e : Effect) : Hidden x (returnGate c s e) (returnGate c (withSaved s x) e) := by
  unfold returnGate
  rw [withSaved_mode]
  exact hidden_ite (fun _ => hidden_deliver _ _) fun _ => hidden_applyEffect e

theorem hidden_registerGate (i : RegNo) {k k' : Result} (h : Hidden x k k') :
    Hidden x (registerGate c s i k) (registerGate c (withSaved s x) i k') := by
  unfold registerGate
  rw [show regUsable c (withSaved s x) i = regUsable c s i from rfl]
  exact hidden_ite (fun _ => hidden_raise _ _) fun _ => hidden_ite (fun _ => hidden_raise _ _) fun _ => h

theorem hidden_resetEvent (hg : s.g = true) : Hidden x (resetEvent c s) (resetEvent c (withSaved s x)) := by
  refine hidden_of_leaves _ fun t ht => ?_
  rcases resetEvent_outcome ht with ⟨hg', -⟩ | ⟨-, ⟨vm, w, -, hl, -⟩, -⟩
  · exact nomatch hg.symm.trans hg'
  · exact hl.g

theorem hidden_baseStep (hg : s.g = true) : Hidden x (baseStep c s) (baseStep c (withSaved s x)) := by
  unfold baseStep
  rw [view_withSaved]
  cases c.baseAct (view c s .base) with
  | run e => exact hidden_applyEffect e
  | ioIn a wide k =>
    rw [ioReadValue_withSaved]
    exact hidden_ioGate (hidden_applyEffect _)
  | ioOut a wide v e => exact hidden_ioGate (hidden_ioWrite hg a wide v e)
  | iret e => exact hidden_returnGate e
  | scret e => exact hidden_returnGate e
  | machineSpecific id e => exact hidden_ite (fun _ => hidden_raise _ _) fun _ => hidden_applyEffect e
  | needsFeature r b e => exact hidden_ite (fun _ => hidden_raise _ _) fun _ => hidden_applyEffect e
  | readRegister i k => exact hidden_registerGate i (hidden_applyEffect _)
  | writeRegister i v e =>
    exact hidden_registerGate i (hidden_ite (fun _ => hidden_raise _ _) fun _ => hidden_applyEffect e)
  | raises n info => exact hidden_raise n _
  | resets => exact hidden_resetEvent hg

/-! ### Arrivals inside a VM. -/

theorem hidden_takeInterrupt (hg : s.g = true) (j : Nat) :
    Hidden x (takeInterrupt c s j) (takeInterrupt c (withSaved s x) j) := by
  unfold takeInterrupt
  rw [withSaved_g, if_pos hg, if_pos hg, withSaved_curVm]
  cases s.curVm? with
  | none => exact hidden_fault x _ _
  | some vm =>
    refine hidden_ite (fun _ => hidden_of_leaves _ fun t ht => ?_) fun _ => ?_
    · obtain ⟨⟨w, hl, -⟩, -⟩ := hvInterruptEntry_left ht
      exact hl.g
    · by_cases hj : j < 16
      · rw [dif_pos hj, dif_pos hj]
        exact hidden_raise _ _
      · rw [dif_neg hj, dif_neg hj]
        exact hidden_deliver j _

theorem takeFurther_inside (hg : s.g = true) (n : Fin 16) (cause : Cause) (o : Origin) :
    takeFurther c s n cause o = raise c s n cause :=
  if_neg (by simp [hg])

theorem hidden_takeFurther (hg : s.g = true) (n : Fin 16) (cause : Cause) (o : Origin) :
    Hidden x (takeFurther c s n cause o) (takeFurther c (withSaved s x) n cause o) := by
  rw [takeFurther_inside hg, takeFurther_inside (s := withSaved s x) hg]
  exact hidden_raise n cause

theorem hidden_takeAgentWrite (pa : Word) (b : Byte) :
    Hidden x (takeAgentWrite c s pa b) (takeAgentWrite c (withSaved s x) pa b) := by
  unfold takeAgentWrite
  rw [isLive_withSaved, keepsVmcs_withSaved]
  exact hidden_ite (fun _ => hidden_refused x _ _) fun _ => hidden_ite (fun _ => hidden_next x s) fun _ =>
    hidden_ite (fun _ => hidden_refused x _ _) fun _ => hidden_next x _

theorem hidden_takeOtherVms (l : List OtherVm) : Hidden x (takeOtherVms s l) (takeOtherVms (withSaved s x) l) :=
  hidden_ite (fun _ => hidden_refused x _ _) fun _ => hidden_next x _

theorem hidden_takeEvent (hg : s.g = true) (e : Event) : Hidden x (takeEvent c s e) (takeEvent c (withSaved s x) e) := by
  cases e with
  | interrupt j => exact hidden_takeInterrupt hg j
  | reset => exact hidden_resetEvent hg
  | exception n cause o => exact hidden_takeFurther hg n cause o
  | agentWrite pa b => exact hidden_takeAgentWrite pa b
  | otherVms l => exact hidden_takeOtherVms l

/-! ### The step. -/

theorem hidden_instructionStep (hg : s.g = true) :
    Hidden x (instructionStepBy c (execWith c) s) (instructionStepBy c (execWith c) (withSaved s x)) := by
  unfold instructionStepBy
  rw [fetchCheck_withSaved, withSaved_ip, fetchWindow_withSaved]
  cases fetchCheck c s .fetch s.ip with
  | xa => exact hidden_raise _ _
  | pf => exact hidden_raise _ _
  | ok =>
    cases decode c (fetchWindow c s) with
    | error e => exact hidden_baseStep hg
    | ok p => exact hidden_execWith hg p.1

theorem hidden_stepWith (hg : s.g = true) : Hidden x (stepWith c s) (stepWith c (withSaved s x)) := by
  unfold stepWith stepBy
  rw [regionsClash_withSaved, withSaved_events]
  refine hidden_ite (fun _ => hidden_refused x _ _) fun _ => ?_
  cases s.events with
  | nil => exact hidden_instructionStep (s := s.tick) hg
  | cons e es => exact hidden_takeEvent (s := s.dropEvent es) hg e

/-- Settles O59: every operation of a step that stays in the VM hides the saved registers. -/
theorem guestCannotObserveSavedRegisters : Obligations.GuestCannotObserveSavedRegisters := by
  intro c s x t hg h ht
  have hx : stepWith c (withSaved s x) = .next (withSaved t x) := hidden_stepWith hg t h ht
  rw [h, show stepWith c { s with hsave := x } = .next (withSaved t x) from hx]
  rfl

end Sys2Proof.Proofs
end

section
/-! The rules of 20_memory.md: stores of words and registers (R40 to R45), who writes what (R43, R46), what an entry reads
(R48), and when a transfer's structures refuse it (R43, R47, R57). -/

namespace Sys2Proof.Proofs

open Sys2Proof.Machine Sys2Proof.Laws Sys2Proof.Claims

variable {c : Config} {s t : State} {vm : Vm} {m : Memory} {v : Vmcs} {pa ip : Word} {r : Refusal}

/-! ## Words in memory (R40, R42). -/

/-- A word reads back where a list of writes to distinct addresses holds all its bytes. -/
theorem memWord_memWriteAll {ws : List (Nat × Byte)} {x : Word} (hm : memWf m = true) (hd : (ws.map Prod.fst).Nodup)
    (hx : ∀ w ∈ wordWrites pa x, w ∈ ws) : memWord (memWriteAll m ws) pa = x :=
  wordOf_eq fun k hk => memRead_memWriteAll_mem hm hd (hx _ (mem_wordWrites.mpr ⟨k, hk, rfl⟩))

/-- Settles O51: the eight bytes go to eight different addresses, and to no other. -/
theorem wordStoreIsLittleEndian : Obligations.WordStoreIsLittleEndian := by
  intro m pa v hm
  have hbyte : ∀ k, k < 8 → memRead (memWriteAll m (wordWrites pa v)) (wordAddr pa k).toNat = byteOf v k := fun k hk =>
    memRead_memWriteAll_mem hm (wordWrites_nodup pa v) (mem_wordWrites.mpr ⟨k, hk, rfl⟩)
  refine ⟨memWriteAll_wf _ hm, wordOf_eq hbyte, hbyte, fun a ha => memRead_memWriteAll_other hm fun w hw he => ?_⟩
  obtain ⟨k, hk, rfl⟩ := mem_wordWrites.mp hw
  exact ha k hk he.symm

/-- The bytes of an available register are among those StoreRegs writes. -/
theorem wordWrites_subset_slotWrites {i : RegNo} (hi : regAvail c s.regs i = true) :
    ∀ w ∈ wordWrites (slotAddr v i) (regGet s.regs i), w ∈ slotWrites c s v := by
  intro w hw
  obtain ⟨k, hk, rfl⟩ := mem_wordWrites.mp hw
  exact mem_slotWrites.mpr ⟨i, k, hi, hk, rfl⟩

/-- Settles O52: the slots do not overlap, and only those of available registers are written. -/
theorem storeRegsWritesAvailableSlots : Obligations.StoreRegsWritesAvailableSlots := by
  intro c s v hm
  refine ⟨fun i hi => memWord_memWriteAll hm (slotWrites_nodup v) (wordWrites_subset_slotWrites hi), fun a ha =>
    memRead_memWriteAll_other hm fun w hw he => ha ?_⟩
  obtain ⟨i, k, hi, hk, rfl⟩ := mem_slotWrites.mp hw
  exact ⟨i, k, hi, hk, he.symm⟩

/-! ## Writes of other agents (R43, R46, R52). -/

section AgentWrite

variable {b : Byte}

theorem takeAgentWrite_live (hl : isLive s pa = true) : takeAgentWrite c s pa b = .refused .liveRegionWrite := by
  rw [takeAgentWrite, if_pos hl]

theorem takeAgentWrite_unimplemented (hl : isLive s pa = false) (hi : implemented c pa = false) :
    takeAgentWrite c s pa b = .next s := by
  rw [takeAgentWrite, hl, hi]
  rfl

/-- Elsewhere the byte is written, unless it is one of an existing VM's vmcs. -/
theorem takeAgentWrite_implemented (hl : isLive s pa = false) (hi : implemented c pa = true) :
    takeAgentWrite c s pa b =
      if keepsVmcs s (memWrite s.mem pa.toNat b) then
        .next { s with mem := memWrite s.mem pa.toNat b, fetch := s.fetch.record (changedBy s.mem [(pa.toNat, b)]) }
      else .refused .vmcsChanged := by
  rw [takeAgentWrite, hl, hi]
  cases keepsVmcs s (memWrite s.mem pa.toNat b) <;> rfl

/-- The vmcs of every existing VM is what it was in the same memory. -/
theorem keepsVmcs_self (s : State) : keepsVmcs s s.mem = true := keepsVmcs_iff.mpr fun _ _ _ _ => rfl

theorem takeAgentWrite_keepsVmcs (h : takeAgentWrite c s pa b = .next t) : keepsVmcs s t.mem = true := by
  cases hl : isLive s pa with
  | true => rw [takeAgentWrite_live hl] at h; cases h
  | false =>
    cases hi : implemented c pa with
    | false =>
      rw [takeAgentWrite_unimplemented hl hi] at h
      cases h
      exact keepsVmcs_self s
    | true =>
      rw [takeAgentWrite_implemented hl hi] at h
      split at h
      · cases h; assumption
      · cases h

end AgentWrite

/-- Settles O54: an agent's write is one of three cases, a base effect avoids the live regions (`commit_live`), and whatever
writes memory is checked against the vmcs of every VM (`keepsVmcs`). -/
theorem liveRegionIsNotWritten : Obligations.LiveRegionIsNotWritten := by
  intro c s
  refine ⟨fun pa b => takeAgentWrite_live, fun pa b => takeAgentWrite_unimplemented, fun pa b hl hi => ⟨?_, ?_⟩, ?_, ?_⟩
  · intro hk
    exact (takeAgentWrite_implemented hl hi).trans (if_pos hk)
  · intro hk
    exact (takeAgentWrite_implemented hl hi).trans (if_neg (Bool.eq_false_iff.mp hk))
  · intro e o t h hm pa hpa
    obtain ⟨hl, -, -, rfl⟩ := applyEffect_next.mp h
    exact commit_live hl hm hpa
  · rintro t (⟨e, o, h⟩ | ⟨vm, p, status, hcall, v0, v1, h⟩ | ⟨pa, b, h⟩)
    · exact keepsVmcs_iff.mp (applyEffect_keepsVmcs h)
    · exact keepsVmcs_iff.mp (leaveVm_keepsVmcs h)
    · exact keepsVmcs_iff.mp (takeAgentWrite_keepsVmcs h)

/-! ## Entering a VM (R44, R48, R158). -/

section EnteredState

variable (c : Config) (s : State) (vm : Vm) (reentry delivers : Bool)

@[simp] theorem enteredState_regs :
    (enteredState c s vm reentry delivers).regs = loadFrom c s (slotImage c s vm.vmcs) := by
  simp only [enteredState, loadRegs]
@[simp] theorem enteredState_mxcw : (enteredState c s vm reentry delivers).mxcw = s.mxcw := by simp only [enteredState]
@[simp] theorem enteredState_g : (enteredState c s vm reentry delivers).g = true := by simp only [enteredState]
@[simp] theorem enteredState_hsave : (enteredState c s vm reentry delivers).hsave = s.xs c := by simp only [enteredState]
@[simp] theorem enteredState_curvm : (enteredState c s vm reentry delivers).curvm = some vm.num := by
  simp only [enteredState]
@[simp] theorem enteredState_vms : (enteredState c s vm reentry delivers).vms = s.vms := by simp only [enteredState]
@[simp] theorem enteredState_mem : (enteredState c s vm reentry delivers).mem = s.mem := by simp only [enteredState]

end EnteredState

/-- Settles O55: the state entered is `enteredState`, whose registers are the one answer of `loadFrom`. -/
theorem enteringWritesNoMemory : Obligations.EnteringWritesNoMemory := by
  intro c s vm reentry delivers t h
  obtain ⟨-, -, -, rfl⟩ := enterVm_ok.mp h
  refine ⟨enteredState_mem .., enteredState_mxcw .., enteredState_vms .., enteredState_g .., enteredState_curvm .., ?_⟩
  rw [enteredState_hsave, enteredState_regs]
  exact ⟨xs_get c s, loadFrom_entered c s (slotImage c s vm.vmcs), fun _ => loadFrom_unread⟩

/-! ## Transfers whose structures cannot be used (R43, R47, R57). -/

@[simp] theorem orRefuse_error {α : Type} (r : Refusal) (k : α → Result) : orRefuse (.error r) k = .refused r := rfl

@[simp] theorem orRefuse_ok {α : Type} (a : α) (k : α → Result) : orRefuse (.ok a) k = k a := rfl

theorem setIp_self (s : State) : s.setIp s.ip = s := by
  have hregs : regSet s.regs ipReg s.ip = s.regs := Vector.set_getElem_self _
  rw [State.setIp, State.setReg, hregs]

/-! ### Leaving a VM. -/

/-- Why leaving is refused does not depend on the signal, nor on the registers the hypervisor gets. -/
theorem leaveVm_of_cannotLeave {p : Pending} {status : VmStatus} {hcall : Bool} {v0 v1 : Word}
    (h : CannotLeave c s vm ip r) : leaveVm c (s.setIp ip) vm p status hcall v0 v1 = .error r := by
  rw [leaveVm_error, (sameHost_setIp s ip).vmcsOf, regionsClash_congr (setIp_vms s ip) (setIp_otherVms s ip),
    keepsVmcs_congr (setIp_vms s ip) (setIp_otherVms s ip) (setIp_mem s ip)]
  exact h

/-- A VM that can be left is left in the state the statements name. -/
theorem leaveVm_of_leavable {p : Pending} {status : VmStatus} {hcall : Bool} {v0 v1 : Word} (h : Leavable c s vm ip) :
    leaveVm c (s.setIp ip) vm p status hcall v0 v1 = .ok (leftTarget c s vm ip p status hcall v0 v1) := by
  rw [leaveVm_ok, (sameHost_setIp s ip).vmcsOf, regionsClash_congr (setIp_vms s ip) (setIp_otherVms s ip),
    keepsVmcs_congr (setIp_vms s ip) (setIp_otherVms s ip) (setIp_mem s ip)]
  refine ⟨h.vmcs, h.vmregs, h.apart, h.keeps, ?_⟩
  rw [leftState, exitedVm, setIp_ip]
  rfl

/-- hcall in a managed supervisor is the transfer (R80). -/
theorem hcall_managed (hmode : s.mode c = .managedSupervisor) (hv : s.curVm? = some vm) :
    hcallWith c 0 s = orRefuse (exitVm c (s.advance 2) vm none vm.status true) fun s1 =>
      checkHypervisorIp c (atHypervisorProcedure c s1) := by
  rw [hcallWith, if_neg (not_not.mpr rfl), (mode_managed.mp hmode).1, if_neg Bool.false_ne_true,
    if_neg (not_not.mpr hmode), hv]

theorem advance_two (s : State) : s.advance 2 = s.setIp (s.ip + 2) := rfl

theorem hcall_refused (h : CannotLeave c s vm (s.ip + 2) r) (hmode : s.mode c = .managedSupervisor)
    (hv : s.curVm? = some vm) : hcallWith c 0 s = .refused r := by
  rw [hcall_managed hmode hv, exitVm, advance_two, leaveVm_of_cannotLeave h, orRefuse_error]

theorem trap_refused_of_cannotLeave {k : Fin 17} (h : CannotLeave c s vm (returnIp c s k.val) r) :
    trapToHypervisor c s vm k = .refused r := by
  rw [trapToHypervisor, exitVm, leaveVm_of_cannotLeave h, orRefuse_error]

/-- A VM that can be left is left by a trap, whose vmcs and table are then used (R151). -/
theorem trap_of_leavable {k : Fin 17} (h : Leavable c s vm (returnIp c s k.val)) :
    trapToHypervisor c s vm k =
      orRefuse (vmcsOf c (trapLeft c s vm k) .vmcsTrap vm) fun v =>
      orRefuse (structureAt c v.vmtrxtab vmtrxtabBytes) fun _ =>
      checkHypervisorIp c
        ((trapLeft c s vm k).setIp (physRead8 c (trapLeft c s vm k) .vmtrxtab (trapEntryAddr v k))) := by
  rw [trapToHypervisor, exitVm, leaveVm_of_leavable h, orRefuse_ok]
  rfl

theorem trap_refused_of_table {k : Fin 17} (h : Leavable c s vm (returnIp c s k.val))
    (ht : vmcsOf c (trapLeft c s vm k) .vmcsTrap vm = .error r ∨
      (vmcsOf c (trapLeft c s vm k) .vmcsTrap vm = .ok vm.vmcs ∧
        structureAt c vm.vmcs.vmtrxtab vmtrxtabBytes = .error r)) :
    trapToHypervisor c s vm k = .refused r := by
  rw [trap_of_leavable h]
  rcases ht with hv | ⟨hv, ht⟩
  · rw [hv, orRefuse_error]
  · rw [hv, orRefuse_ok, ht, orRefuse_error]

/-- A RESET inside a VM is trapped (R153). -/
theorem resetEvent_inside (hg : s.g = true) (hv : s.curVm? = some vm) :
    resetEvent c s = trapToHypervisor c s vm 16 := by
  rw [resetEvent, if_pos hg, hv]

/-- An interrupt of the hypervisor's inside a VM (R162). -/
theorem takeInterrupt_hypervisor {j : Nat} (hg : s.g = true) (hv : s.curVm? = some vm) (hj : c.hvInterrupt j = true) :
    takeInterrupt c s j = hvInterruptEntry c s vm j := by
  rw [takeInterrupt, if_pos hg, hv]
  exact if_pos hj

theorem hvInterruptEntry_refused {j : Nat} (h : CannotLeave c { s with drawCtr := s.drawCtr + 2 } vm s.ip r) :
    hvInterruptEntry c s vm j = .refused r := by
  have hleave := leaveVm_of_cannotLeave (p := none) (status := vm.status) (hcall := false) (v0 := drawn c s)
    (v1 := drawn c s.tick) h
  rw [show ({ s with drawCtr := s.drawCtr + 2 } : State) = s.tick.tick from rfl, ← tick_ip s, ← tick_ip s.tick,
    setIp_self] at hleave
  rw [hvInterruptEntry, hleave, orRefuse_error]

/-! ### Entering a VM. -/

theorem enterVm_of_cannotEnter {n : Nat} {reentry delivers : Bool} (h : CannotEnter c s vm r) :
    enterVm c (s.advance n) vm reentry delivers = .error r := by
  rw [enterVm_error, (sameHost_advance s n).vmcsOf, regionsClash_congr (advance_vms s n) (advance_otherVms s n)]
  exact h

/-- hret and hresume of a live VM in Hypervisor mode (R92). -/
theorem hvReturn_live {resume : Bool} {p : Pending} (hmode : s.mode c = .hypervisor)
    (hlive : ctxClass c s (regGet s.regs r0) = .live vm p) : hvReturn c resume 0 s = returnToVm c resume s vm p := by
  rw [hvReturn, if_neg (not_not.mpr rfl), (mode_hypervisor.mp hmode).1, if_neg Bool.false_ne_true,
    if_neg (not_not.mpr hmode), x_r0, hlive]

/-- An identifier that signals nothing, or what the VM's last exit signalled, is not forged (D29). -/
theorem not_forged {p : Pending} (hp : p = none ∨ vm.pending = p) : ¬(p.isSome ∧ vm.pending ≠ p) := by
  rintro ⟨hsome, hne⟩
  rcases hp with rfl | hp
  · cases hsome
  · exact hne hp

theorem hvReturn_refused {resume : Bool} {p : Pending} (h : CannotEnter c s vm r) (hmode : s.mode c = .hypervisor)
    (hlive : ctxClass c s (regGet s.regs r0) = .live vm p) (hp : p = none ∨ vm.pending = p) :
    hvReturn c resume 0 s = .refused r := by
  rw [hvReturn_live hmode hlive, returnToVm, if_neg (not_forged hp), enterVm_of_cannotEnter h, orRefuse_error]

theorem limitReached_false (h1 : s.vmcount < vmLimitCpu c) (h2 : s.vmcountAll < vmLimitAll c) :
    limitReached c s = false := by
  simp [limitReached, h1, h2]

/-- vmcreate in Hypervisor mode, below the limits, of an operand with a value (R105). -/
theorem vmcreate_creates {src : List Byte} (hmode : s.mode c = .hypervisor) (h1 : s.vmcount < vmLimitCpu c)
    (h2 : s.vmcountAll < vmLimitAll c) (hpa : readOperand c s src = .value pa) :
    vmcreateWith c 0 src s = createVm c pa (2 + src.length) s := by
  rw [vmcreateWith, if_neg (not_not.mpr rfl), if_neg (not_not.mpr hmode), limitReached_false h1 h2,
    if_neg Bool.false_ne_true, hpa]

theorem createVm_refused_of_vmcs {n : Nat} (h : readVmcs c s .vmcsCreate pa = .error r) :
    createVm c pa n s = .refused r := by
  rw [createVm, h, orRefuse_error]

theorem addVm_newVm (c : Config) (s : State) (pa : Word) (v : Vmcs) :
    addVm s (newVm (freshVmNum c s) pa v) = withNewVm c s pa v := rfl

theorem createVm_refused_of_cannotEnter {n : Nat} (hv : readVmcs c s .vmcsCreate pa = .ok v)
    (hl : vmcsLegal c v = .ok ()) (h : CannotEnter c (withNewVm c s pa v) (newVm (freshVmNum c s) pa v) r) :
    createVm c pa n s = .refused r := by
  rw [createVm, hv, orRefuse_ok, hl, orRefuse_ok, addVm_newVm, enterVm_of_cannotEnter h, orRefuse_error]

/-- Settles O53: each transfer is refused by its first operation that cannot be done. -/
theorem unusableStructuresRefuseTransfer : Obligations.UnusableStructuresRefuseTransfer := by
  intro c s
  refine ⟨fun vm r => hcall_refused, fun vm r h p hmode hlive hp => ?_, fun src pa hmode h1 h2 hpa => ⟨?_, ?_⟩,
    fun vm k r hg hv h => ?_, fun vm j r hg hv hj h => ?_, fun hclash => if_pos hclash⟩
  · exact ⟨hvReturn_refused h hmode hlive hp, hvReturn_refused h hmode hlive hp⟩
  · intro r h
    exact (vmcreate_creates hmode h1 h2 hpa).trans (createVm_refused_of_vmcs h)
  · intro v r hv hl h
    exact (vmcreate_creates hmode h1 h2 hpa).trans (createVm_refused_of_cannotEnter hv hl h)
  · have htrap : trapToHypervisor c s vm k = .refused r :=
      h.elim trap_refused_of_cannotLeave fun ⟨hl, ht⟩ => trap_refused_of_table hl ht
    refine ⟨htrap, ?_⟩
    rintro rfl
    exact (resetEvent_inside hg hv).trans htrap
  · exact (takeInterrupt_hypervisor hg hv hj).trans (hvInterruptEntry_refused h)

end Sys2Proof.Proofs
end

section
/-! The rules of 30_encoding.md: the opcode and `h` of a word, the two directions of the encoding, the step that runs what was
decoded, and the checks of the five instructions that come first. -/

namespace Sys2Proof.Proofs

open Sys2Proof.Machine Sys2Proof.Laws

variable {c : Config} {s : State} {op : BitVec 12} {h : BitVec 4} {rest : List Byte}

/-! ## What an opcode decodes to (R61). -/

theorem decodeWord_hcall (c : Config) (h : BitVec 4) (rest : List Byte) :
    decodeWord c opHcall h rest = .ok (.hcall h, rest) := rfl

theorem decodeWord_hret (c : Config) (h : BitVec 4) (rest : List Byte) :
    decodeWord c opHret h rest = .ok (.hret h, rest) := rfl

theorem decodeWord_hresume (c : Config) (h : BitVec 4) (rest : List Byte) :
    decodeWord c opHresume h rest = .ok (.hresume h, rest) := rfl

theorem decodeWord_vmcreate (c : Config) (h : BitVec 4) (rest : List Byte) :
    decodeWord c opVmcreate h rest =
      .ok (.vmcreate h (rest.take (operandLength c rest)), rest.drop (operandLength c rest)) := rfl

theorem decodeWord_vmdestroy (c : Config) (h : BitVec 4) (rest : List Byte) :
    decodeWord c opVmdestroy h rest = .ok (.vmdestroy h, rest) := rfl

/-- Any other opcode is the base ISA's (R65). -/
theorem decodeWord_other (hop : op ∉ [opHcall, opHret, opHresume, opVmcreate, opVmdestroy]) :
    decodeWord c op h rest = .error (.baseOpcode op) := by
  simp only [List.mem_cons, List.not_mem_nil, or_false, not_or] at hop
  obtain ⟨hcall, hret, hresume, vmcreate, vmdestroy⟩ := hop
  rw [decodeWord, if_neg hcall, if_neg hret, if_neg hresume, if_neg vmcreate, if_neg vmdestroy]

/-- What an opcode decodes to has that opcode, and together with what is left over it has all the bytes. -/
theorem encode_of_decodeWord {i : Instr} {tail : List Byte} (hd : decodeWord c op h rest = .ok (i, tail)) :
    encode i ++ tail = encodeWord op h ++ rest := by
  unfold decodeWord at hd
  split_ifs at hd with hcall hret hresume vmcreate vmdestroy <;> cases hd
  · rw [hcall, encode]
  · rw [hret, encode]
  · rw [hresume, encode]
  · rw [vmcreate, encode, List.append_assoc, List.take_append_drop]
  · rw [vmdestroy, encode]

/-! ## The two directions (R60, R64). -/

/-- Settles O6: the word of each instruction decodes by its opcode, and vmcreate's operand ends where its own first two bytes
say, whatever follows (`operandLength_append`). -/
theorem decodeOfEncode : Obligations.DecodeOfEncode := by
  intro c i rest hwf
  cases i with
  | hcall h => rw [encode, decode_encodeWord, decodeWord_hcall]
  | hret h => rw [encode, decode_encodeWord, decodeWord_hret]
  | hresume h => rw [encode, decode_encodeWord, decodeWord_hresume]
  | vmdestroy h => rw [encode, decode_encodeWord, decodeWord_vmdestroy]
  | vmcreate h src =>
    have hlen : operandLength c (src ++ rest) = src.length := operandLength_append c rest hwf
    rw [encode, List.append_assoc, decode_encodeWord, decodeWord_vmcreate, hlen, List.take_left, List.drop_left]

/-- The word of two bytes, from its fields, is those two bytes (R60). -/
theorem encodeWord_fields (b0 b1 : Byte) :
    encodeWord (opcodeOf (instrWord b0 b1)) (hOf (instrWord b0 b1)) = [b0, b1] := by
  rw [encodeWord, instrWord_fields, wordBytes_instrWord]

/-- Settles O7: bytes that decode begin with a word, and that word has no bits but its opcode and `h`. -/
theorem encodeOfDecode : Obligations.EncodeOfDecode := by
  intro c bs i rest hd
  match bs, hd with
  | b0 :: b1 :: bytes, hd => exact (encode_of_decodeWord hd).trans (congrArg (· ++ bytes) (encodeWord_fields b0 b1))

/-! ## Decoding by the mask 0xfff0 (R61). -/

/-- The mask keeps the opcode and clears `h`. -/
theorem mask_word (w : BitVec 16) : w &&& 0xfff0 = opcodeOf w ++ 0#4 := by
  have hmask : (0xfff0 : BitVec 16) = BitVec.allOnes 12 ++ 0#4 := by decide
  conv_lhs => rw [← instrWord_fields w, hmask]
  rw [BitVec.and_append, BitVec.and_allOnes, BitVec.and_zero]

theorem mask_word_eq {w : BitVec 16} : w &&& 0xfff0 = op ++ 0#4 ↔ opcodeOf w = op := by
  rw [mask_word]
  refine ⟨fun h => ?_, congrArg (· ++ _)⟩
  simpa only [opcodeOf_append] using congrArg opcodeOf h

theorem decode_of_mask {b0 b1 : Byte} (hm : instrWord b0 b1 &&& 0xfff0 = op ++ 0#4) :
    decode c (b0 :: b1 :: rest) = decodeWord c op (hOf (instrWord b0 b1)) rest := by
  rw [decode, mask_word_eq.mp hm]

theorem decode_of_mask_other {b0 b1 : Byte}
    (hm : instrWord b0 b1 &&& 0xfff0 ∉ [0xfcb0, 0xfd60, 0xfd70, 0xe000, 0xe010]) :
    decode c (b0 :: b1 :: rest) = .error (.baseOpcode (opcodeOf (instrWord b0 b1))) := by
  refine decodeWord_other fun hop => hm ?_
  rw [mask_word]
  exact List.mem_map_of_mem (f := (· ++ 0#4)) hop

/-- Settles O4: each masked word is an opcode of R61 followed by zeros (`mask_word_eq`). -/
theorem opcodeSelectsInstruction : Obligations.OpcodeSelectsInstruction := fun _ _ _ _ =>
  ⟨fun hm => (decode_of_mask (op := opHcall) hm).trans (decodeWord_hcall ..),
    fun hm => (decode_of_mask (op := opHret) hm).trans (decodeWord_hret ..),
    fun hm => (decode_of_mask (op := opHresume) hm).trans (decodeWord_hresume ..),
    fun hm => (decode_of_mask (op := opVmcreate) hm).trans (decodeWord_vmcreate ..),
    fun hm => (decode_of_mask (op := opVmdestroy) hm).trans (decodeWord_vmdestroy ..), decode_of_mask_other⟩

/-- Two bytes that begin an operand are all there is to take where no more follow (R64). -/
theorem decodeWord_vmcreate_pair (c : Config) (h : BitVec 4) (x y : Byte) :
    decodeWord c opVmcreate h [x, y] = .ok (.vmcreate h [x, y], []) := by
  have hlen : [x, y].length ≤ operandLength c [x, y] := Nat.le_add_right 2 _
  rw [decodeWord_vmcreate, List.take_of_length_le hlen, List.drop_of_length_le hlen]

/-- Settles O5: the words of the four instructions without an operand are their encodings; the others decode by the mask. -/
theorem writtenOutWordsDecode : Obligations.WrittenOutWordsDecode := fun c =>
  ⟨decodeOfEncode c (.hcall 0) [] rfl, decodeOfEncode c (.hret 0) [] rfl, decodeOfEncode c (.hresume 0) [] rfl,
    decodeOfEncode c (.vmdestroy 0) [] rfl, decodeOfEncode c (.hret 15) [] rfl, decode_of_mask_other (by decide),
    decode_of_mask_other (by decide), [0x12, 0x34],
    (decode_of_mask (op := opVmcreate) rfl).trans (decodeWord_vmcreate_pair c 0 0x12 0x34), rfl⟩

/-! ## The step (R65, R66, R51). -/

/-- When nothing arrives and regions are apart, a step is the instruction at `ip`, its draws fresh. -/
theorem stepBy_instruction {run : Instr → State → Result} (he : s.events = []) (hr : regionsClash s = false) :
    stepBy c run s = instructionStepBy c run s.tick := by
  rw [stepBy, hr, if_neg Bool.false_ne_true, he]

theorem instructionStepBy_decoded {run : Instr → State → Result} {i : Instr} (hf : fetchCheck c s .fetch s.ip = .ok)
    (hd : decode c (fetchWindow c s) = .ok (i, rest)) : instructionStepBy c run s = run i s := by
  rw [instructionStepBy, hf]
  simp only [hd]

theorem instructionStepBy_base {run : Instr → State → Result} {e : DecodeError} (hf : fetchCheck c s .fetch s.ip = .ok)
    (hd : decode c (fetchWindow c s) = .error e) : instructionStepBy c run s = baseStep c s := by
  rw [instructionStepBy, hf]
  simp only [hd]

theorem instructionStepBy_xa {run : Instr → State → Result} (hf : fetchCheck c s .fetch s.ip = .xa) :
    instructionStepBy c run s = raise c s c.xaNo (.address s.ip) := by
  rw [instructionStepBy, hf]

theorem instructionStepBy_pf {run : Instr → State → Result} (hf : fetchCheck c s .fetch s.ip = .pf) :
    instructionStepBy c run s = raise c s c.pfNo (.address s.ip) := by
  rw [instructionStepBy, hf]

/-- Settles O9: with nothing arriving the step is the instruction at `ip` (`stepBy_instruction`), which is run where it
decodes, by `exec` or `execWith` alike. -/
theorem stepRunsDecodedInstruction : Obligations.StepRunsDecodedInstruction :=
  ⟨fun _ _ _ he hr hf hd => (stepBy_instruction he hr).trans (instructionStepBy_decoded hf hd),
    fun _ _ _ _ he hr hf hd => (stepBy_instruction he hr).trans (instructionStepBy_decoded hf hd), fun _ => rfl⟩

/-- The bytes the decoder reads begin with the first unit fetched. -/
theorem fetchUnit_of_fetchWindow {a b : Byte} (hw : fetchWindow c s = a :: b :: rest) : fetchUnit c s 0 = some (a, b) := by
  unfold fetchWindow at hw
  split at hw
  · cases hw
  next hu =>
    obtain ⟨ha, htail⟩ := List.cons.inj hw
    rw [hu, ha, (List.cons.inj htail).1]

/-- What a base operation sees of the first unit is the unit as the decoder reads it. -/
theorem view_code_of_fetchUnit {a b : Byte} {p : Place} (hu : fetchUnit c s 0 = some (a, b)) :
    (view c s p).code 0 = some a ∧ (view c s p).code 1 = some b := by
  simp [view, codeByte, hu]

/-- Settles O10: the step goes by the outcome of the fetch check, and decoder and base ISA read one unit at `ip`. -/
theorem stepRunsBaseOrRaises : Obligations.StepRunsBaseOrRaises := by
  intro c s he hr
  have hstep : stepWith c s = instructionStepBy c (execWith c) s.tick := stepBy_instruction he hr
  rw [hstep]
  refine ⟨fun hf e hd => ⟨instructionStepBy_base hf hd, fun a b rest hw => ?_⟩, instructionStepBy_xa, instructionStepBy_pf⟩
  exact view_code_of_fetchUnit (fetchUnit_of_fetchWindow hw)

/-! ## The checks of an instruction that come first (R62, R63). -/

/-- Settles O25: in Hypervisor mode below the limits vmcreate goes on with its operand's evaluation. -/
theorem vmcreateOperandExceptionOnlyRaises : Obligations.VmcreateOperandExceptionOnlyRaises := by
  intro c s src n info hmode h1 h2 hop
  rw [execWith, vmcreateWith, if_neg (not_not.mpr rfl), if_neg (not_not.mpr hmode), limitReached_false h1 h2,
    if_neg Bool.false_ne_true, hop]

/-- A nonzero `h` is the first check of hret and hresume (R62). -/
theorem hvReturn_reserved (hh : h ≠ 0) (resume : Bool) : hvReturn c resume h s = raise c s c.undNo .virt := if_pos hh

/-- Settles O33: each meaning tests `h` first. -/
theorem reservedHRaisesUnd : Obligations.ReservedHRaisesUnd := by
  intro c s h src hh
  refine ⟨hvReturn_reserved hh false, hvReturn_reserved hh true, if_pos hh, if_pos hh, ?_⟩
  rw [execWith, hcallWith, if_pos hh, hcallUnd]
  simp only [Option.isSome_iff_ne_none]

end Sys2Proof.Proofs
end

section
/-! The rules of 40_hcall.md: the transfer to the hypervisor and the check of its new `ip` (R80 to R83), hcall in the other modes
(R84, R85), and the VM that an hcall left and hret enters again (vector P2). -/

namespace Sys2Proof.Proofs

open Sys2Proof.Machine Sys2Proof.Safety Sys2Proof.Laws Sys2Proof.Claims

variable {c : Config} {s t : State} {vm : Vm} {i : RegNo}

/-! ## The hypervisor at its procedure (R80, R82). -/

/-- A register of the hypervisor's that is neither given by the transfer nor read-only is its saved one (R159). -/
theorem leftTarget_x {ip v0 v1 : Word} {p : Pending} {status : VmStatus} {hcall : Bool} (h0 : i ≠ r0) (h1 : i ≠ r1)
    (hw : hwReg c i = none) : (leftTarget c s vm ip p status hcall v0 v1).x c i = regGet s.hsave i := by
  rw [x_of_hwReg_none _ _ hw, leftTarget_regs, regGet_regsOf, if_neg h0, if_neg h1]

theorem scdpReg_ne (hi : i ∈ fixedRegs) : scdpReg c ≠ i := (ne_of_not_mem (scdpReg_not_fixed c) hi).symm

theorem scspReg_ne (hi : i ∈ fixedRegs) : scspReg c ≠ i :=
  (ne_of_not_mem (scspReg_not_used c) (List.mem_cons_of_mem _ hi)).symm

theorem regGet_hcallTarget (c : Config) (s : State) (vm : Vm) (i : RegNo) :
    regGet (hcallTarget c s vm).regs i =
      if i = r0 then ctxEncode c vm.num none
      else if i = r1 then vm.vmcsPa
      else if i = r7 then regGet s.hsave (scspReg c)
      else if i = ipReg then regGet s.hsave (scdpReg c)
      else regGet s.hsave i := by
  rw [hcallTarget, regGet_regsOf]

@[simp] theorem hcallTarget_ip (c : Config) (s : State) (vm : Vm) : (hcallTarget c s vm).ip = regGet s.hsave (scdpReg c) :=
  regGet_hcallTarget c s vm ipReg

@[simp] theorem hcallTarget_r0 (c : Config) (s : State) (vm : Vm) :
    regGet (hcallTarget c s vm).regs r0 = ctxEncode c vm.num none :=
  regGet_hcallTarget c s vm r0

@[simp] theorem hcallTarget_flags (c : Config) (s : State) (vm : Vm) :
    (hcallTarget c s vm).flags = regGet s.hsave flagsReg :=
  regGet_hcallTarget c s vm flagsReg

/-- The procedure's r7 and `ip` are read from the saved scsp and scdp, which are none of the registers given (N5). -/
theorem atHypervisorProcedure_leftTarget (c : Config) (s : State) (vm : Vm) :
    atHypervisorProcedure c (leftTarget c s vm (s.ip + 2) none vm.status true (ctxEncode c vm.num none) vm.vmcsPa) =
      hcallTarget c s vm := by
  apply state_ext
  case regs =>
    refine regs_ext fun i => ?_
    rw [regGet_hcallTarget, atHypervisorProcedure_regs,
      leftTarget_x (scspReg_ne (by decide)) (scspReg_ne (by decide)) (hwReg_scsp c),
      leftTarget_x (scdpReg_ne (by decide)) (scdpReg_ne (by decide)) (hwReg_scdp c)]
    by_cases hip : i = ipReg
    · rw [hip, regGet_regSet_same]
      rfl
    · rw [regGet_regSet_ne _ _ (Ne.symm hip), if_neg hip]
      by_cases h7 : i = r7
      · rw [h7, regGet_regSet_same]
        rfl
      · rw [regGet_regSet_ne _ _ (Ne.symm h7), if_neg h7, leftTarget_regs, regGet_regsOf]
  all_goals simp

/-- hcall is the whole transfer, then the check of the hypervisor's new `ip` (R80). -/
theorem hcall_of_ready (h : HcallReady c s vm) :
    execWith c (.hcall 0) s = checkHypervisorIp c (hcallTarget c s vm) := by
  rw [execWith, hcall_managed h.mode h.current, exitVm, advance_two, leaveVm_of_leavable h.leavable, orRefuse_ok,
    atHypervisorProcedure_leftTarget]

/-! ## The check of the hypervisor's `ip` (R83). -/

theorem checkHypervisorIp_ok (h : fetchCheck c s .dest s.ip = .ok) : checkHypervisorIp c s = .next s := by
  rw [checkHypervisorIp, h]

theorem checkHypervisorIp_xa (h : fetchCheck c s .dest s.ip = .xa) :
    checkHypervisorIp c s = deliverDrawn c s c.xaNo.val (.address s.ip) := by
  rw [checkHypervisorIp, h]

theorem checkHypervisorIp_pf (h : fetchCheck c s .dest s.ip = .pf) :
    checkHypervisorIp c s = deliverDrawn c s c.pfNo.val (.address s.ip) := by
  rw [checkHypervisorIp, h]

/-- `exec` is the meaning at the hardware's configuration, so it answers what the meaning answers there. -/
theorem answers_of_execWith {i : Instr} (h : execWith c i s = .next t) : Answers c i s t :=
  ⟨h, fun hc => by rw [exec_eq_execWith, ← hc, h]⟩

/-- Settles O13: the transfer (`hcall_of_ready`) ends in the state checked. -/
theorem hcallTransfers : Obligations.HcallTransfers := by
  intro c s vm h hok
  rw [← hcallTarget_ip c s vm] at hok
  exact answers_of_execWith ((hcall_of_ready h).trans (checkHypervisorIp_ok hok))

/-- Settles O14: the check after the transfer (`hcall_of_ready`) fails in one of two ways. -/
theorem hcallBadDestinationRaisesInHypervisor : Obligations.HcallBadDestinationRaisesInHypervisor := by
  intro c s vm h
  rw [← hcallTarget_ip c s vm]
  exact ⟨fun hxa => (hcall_of_ready h).trans (checkHypervisorIp_xa hxa),
    fun hpf => (hcall_of_ready h).trans (checkHypervisorIp_pf hpf)⟩

/-! ## hcall in the other modes (R80, R84, R85). -/

/-- Program-execution mode is checked first (D17). -/
theorem hcall_program (hmode : s.mode c = .program) : hcallWith c 0 s = raise c s c.protNo .virt := by
  rw [hcallWith, if_neg (not_not.mpr rfl), if_pos (mode_program.mp hmode)]

theorem hcall_notManaged (hx : s.xm c = false) (hmode : s.mode c ≠ .managedSupervisor) :
    hcallWith c 0 s = hcallUnd c s := by
  rw [hcallWith, if_neg (not_not.mpr rfl), hx, if_neg Bool.false_ne_true, if_pos hmode]

/-- The UND of an hcall by an unmanaged supervisor, or by a hypervisor in no VM's context, is delivered directly (R84, R85). -/
theorem hcallUnd_direct (hg : s.g = false) (h : ¬(s.mode c = .hypervisor ∧ s.curvm.isSome)) :
    hcallUnd c s = deliver c s c.undNo.val .virt := by
  rw [hcallUnd, if_neg h, raise_outside hg]

theorem hcall_hypervisor (hmode : s.mode c = .hypervisor) : hcallWith c 0 s = hcallUnd c s :=
  hcall_notManaged (mode_hypervisor.mp hmode).1 (by rw [hmode]; nofun)

/-- In a VM's context the hypervisor's UND records a draw (R85). -/
theorem hcallUnd_drawn (hmode : s.mode c = .hypervisor) (hcur : s.curvm ≠ none) :
    hcallUnd c s = deliverDrawn c s c.undNo.val .virt .own :=
  if_pos ⟨hmode, Option.isSome_iff_ne_none.mpr hcur⟩

/-- Settles O15: each mode takes one branch of hcall's checks. -/
theorem hcallWrongModeOnlyRaises : Obligations.HcallWrongModeOnlyRaises := by
  intro c s
  refine ⟨hcall_program, fun hmode hg => ?_, fun hmode hcur => ?_, fun hmode hcur => ?_⟩
  · have hund := hcall_notManaged (mode_unmanaged.mp hmode).1 (by rw [hmode]; nofun)
    exact hund.trans (hcallUnd_direct hg fun h => nomatch hmode.symm.trans h.1)
  · refine (hcall_hypervisor hmode).trans (hcallUnd_direct (mode_hypervisor.mp hmode).2.2 ?_)
    rw [hcur]
    nofun
  · exact (hcall_hypervisor hmode).trans (hcallUnd_drawn hmode hcur)

/-! ## The VM that made the call (R80, R90, vector P2). -/

/-- The entry of the VM after its hcall: no signal pending, its status as it was (R159). -/
def calledVm (s : State) (vm : Vm) : Vm := exitedVm (s.advance 2) vm none vm.status true

@[simp] theorem calledVm_status (s : State) (vm : Vm) : (calledVm s vm).status = vm.status := rfl

theorem hcallTarget_vms_called (c : Config) (s : State) (vm : Vm) :
    (hcallTarget c s vm).vms = vmUpdate s.vms (calledVm s vm) := by
  rw [hcallTarget_vms, calledVm, exitedVm, advance_ip]
  rfl

theorem hcallTarget_find (hv : s.curVm? = some vm) : vmFind (hcallTarget c s vm).vms vm.num = some (calledVm s vm) := by
  have hfound : (vmFind s.vms (calledVm s vm).num).isSome = true := Option.isSome_iff_exists.mpr ⟨vm, (curVm_some hv).2⟩
  rw [hcallTarget_vms_called]
  exact vmFind_vmUpdate_same hfound

/-- The hypervisor is back in its mode: its saved flags have XM clear (R36). -/
theorem hcallTarget_mode (hi : Inv c s) (hmode : s.mode c = .managedSupervisor) :
    (hcallTarget c s vm).mode c = .hypervisor := by
  obtain ⟨-, hme, hg⟩ := mode_managed.mp hmode
  refine mode_hypervisor.mpr ⟨?_, ?_, hcallTarget_g c s vm⟩
  · rw [State.xm, hcallTarget_flags, hi.savedSupervises hg]
  · rw [State.me, hcallTarget_mxcw, ← State.me, hme]

/-- The identifier that hcall leaves in r0 names the VM that made the call, without a signal (R80, R156). -/
theorem hcallTarget_live (hi : Inv c s) (hg : s.g = true) (hv : s.curVm? = some vm) :
    ctxClass c (hcallTarget c s vm) (regGet (hcallTarget c s vm).regs r0) = .live (calledVm s vm) none := by
  have hactive : (calledVm s vm).status ≠ .reset := by
    rw [calledVm_status, current_active hi hg hv]
    nofun
  rw [hcallTarget_r0, ctxClass, ctxDecode_ctxEncode (hi.numbersNonzero vm (mem_of_curVm hv))]
  simp only [hcallTarget_find hv, if_neg hactive]

/-- The transfer changes no VM's region (R47). -/
theorem hcallTarget_apart (hv : s.curVm? = some vm) (h : regionsClash s = false) :
    regionsClash (hcallTarget c s vm) = false := by
  refine regionsClash_mono h (hcallTarget_otherVms c s vm) fun w hw => ?_
  rw [hcallTarget_vms_called] at hw
  rcases mem_vmUpdate hw with ⟨rfl, -⟩ | ⟨hw, -⟩
  · exact ⟨vm, mem_of_curVm hv, rfl⟩
  · exact ⟨w, hw, rfl⟩

/-- hret can enter the VM that made the call, while its vmcs reads as it did. -/
theorem hcallTarget_returnReady (hi : Inv c s) (h : HcallReady c s vm)
    (hvmcs : vmcsOf c (hcallTarget c s vm) .vmcsEnter vm = .ok vm.vmcs) :
    ReturnReady c (hcallTarget c s vm) (calledVm s vm) none where
  mode := hcallTarget_mode hi h.mode
  live := hcallTarget_live hi (mode_managed.mp h.mode).2.2 h.current
  genuine := .inl rfl
  enterable := ⟨hvmcs, h.leavable.vmregs, hcallTarget_apart h.current h.leavable.apart⟩

/-- After hcall the slot of a register available at the exit holds its value, slot 16 the `ip` after the hcall (R45, R80). -/
theorem hcallTarget_slots (hm : memWf s.mem = true) (hi : regAvail c (s.setIp (s.ip + 2)).regs i = true) :
    regGet (slots (hcallTarget c s vm) vm.vmcs) i = regGet (s.setIp (s.ip + 2)).regs i := by
  rw [slots, regGet_regsOf, hcallTarget_mem]
  exact memWord_memWriteAll hm (slotWrites_nodup vm.vmcs) (wordWrites_subset_slotWrites hi)

/-- A register available in the state entered is loaded from its slot (R44, R158). -/
theorem enterTarget_loaded {n seen : Nat} (hi : regAvail c (enterTarget c s vm n seen).regs i = true) :
    regGet (enterTarget c s vm n seen).regs i = regGet (slots s vm.vmcs) i := by
  rw [enterTarget] at hi ⊢
  rw [loadFrom_entered, if_pos hi]

theorem regGet_setIp (s : State) (ip : Word) (i : RegNo) :
    regGet (s.setIp ip).regs i = if i = ipReg then ip else regGet s.regs i := by
  split
  next h => rw [h, setIp_regs, regGet_regSet_same]
  next h => rw [setIp_regs, regGet_regSet_ne _ _ (Ne.symm h)]

/-- Settles O60: what hcall stored in the slots (`hcallTarget_slots`) is what hret loads from them (`enterTarget_loaded`). -/
theorem hypervisorCallIsTransparent : Obligations.HypervisorCallIsTransparent := by
  intro c s vm hi h hvmcs
  refine ⟨calledVm s vm, hcallTarget_returnReady hi h hvmcs, rfl, rfl, fun i seen hout hin => ?_⟩
  calc regGet (enterTarget c (hcallTarget c s vm) (calledVm s vm) 2 seen).regs i
    _ = regGet (slots (hcallTarget c s vm) vm.vmcs) i := enterTarget_loaded hin
    _ = regGet (s.setIp (s.ip + 2)).regs i := hcallTarget_slots hi.memCanonical hout
    _ = if i = ipReg then s.ip + 2 else regGet s.regs i := regGet_setIp s (s.ip + 2) i

end Sys2Proof.Proofs
end

section
/-! The rules of 41_hret_hresume.md: the checks of hret and hresume in order (R92), the entry of the VM that r0 names (R90, R91),
and the check of its `ip`. -/

namespace Sys2Proof.Proofs

open Sys2Proof.Machine Sys2Proof.Laws Sys2Proof.Claims

variable {c : Config} {s : State} {vm : Vm} {p : Pending} {resume : Bool}

/-! ## The modes (R92, R165). -/

/-- hret and hresume are `HvReturn`. -/
theorem execWith_return {i : Instr} (hi : i = .hret 0 ∨ i = .hresume 0) (c : Config) (s : State) :
    ∃ resume, execWith c i s = hvReturn c resume 0 s := by
  rcases hi with rfl | rfl
  · exact ⟨false, rfl⟩
  · exact ⟨true, rfl⟩

/-- Program-execution mode is checked before the other modes. -/
theorem hvReturn_program (hmode : s.mode c = .program) : hvReturn c resume 0 s = raise c s c.protNo .virt := by
  rw [hvReturn, if_neg (not_not.mpr rfl), if_pos (mode_program.mp hmode)]

theorem hvReturn_notHypervisor (hx : s.xm c = false) (hmode : s.mode c ≠ .hypervisor) :
    hvReturn c resume 0 s = raise c s c.undNo .virt := by
  rw [hvReturn, if_neg (not_not.mpr rfl), hx, if_neg Bool.false_ne_true, if_pos hmode]

/-- Settles O21: the two checks of the mode, in their order. -/
theorem returnWrongModeOnlyRaises : Obligations.ReturnWrongModeOnlyRaises := by
  intro c s i hi
  obtain ⟨resume, hexec⟩ := execWith_return hi c s
  rw [hexec]
  refine ⟨hvReturn_program, ?_⟩
  rintro (hmode | hmode)
  · exact hvReturn_notHypervisor (mode_unmanaged.mp hmode).1 (by rw [hmode]; nofun)
  · exact hvReturn_notHypervisor (mode_managed.mp hmode).1 (by rw [hmode]; nofun)

/-! ## The classes of identifiers (R92, R93, R96). -/

/-- What `HvReturn` does in Hypervisor mode, by the class of the identifier in r0. -/
def returnByClass (c : Config) (resume : Bool) (s : State) : CtxClass → Result
  | .invalid => raiseInHypervisor c s c.protNo
  | .reset _ => raiseInHypervisor c s c.protNo
  | .staleDisabled => .refused .staleDisabled
  | .staleDestroyed => .refused .staleDestroyed
  | .live vm p => returnToVm c resume s vm p

theorem hvReturn_hypervisor (hmode : s.mode c = .hypervisor) :
    hvReturn c resume 0 s = returnByClass c resume s (ctxClass c s (regGet s.regs r0)) := by
  rw [hvReturn, if_neg (not_not.mpr rfl), (mode_hypervisor.mp hmode).1, if_neg Bool.false_ne_true,
    if_neg (not_not.mpr hmode), x_r0]
  rfl

/-- Settles O20: both classes give the hypervisor's PROT. -/
theorem returnWithoutLiveVmRaisesProt : Obligations.ReturnWithoutLiveVmRaisesProt := by
  intro c s i hi hmode hclass
  obtain ⟨resume, hexec⟩ := execWith_return hi c s
  rw [hexec, hvReturn_hypervisor hmode]
  rcases hclass with hinv | ⟨vm, hreset⟩
  · rw [hinv, returnByClass, raiseInHypervisor]
  · rw [hreset, returnByClass, raiseInHypervisor]

/-- An identifier that signals what the VM's last exit did not is refused before the entry (D29). -/
theorem returnToVm_forged {k : Fin 17} (hne : vm.pending ≠ some k) :
    returnToVm c resume s vm (some k) = .refused .forgedPending :=
  if_pos ⟨rfl, hne⟩

/-- Settles O22: two classes are refused as such, a live VM's identifier by its signal. -/
theorem staleOrForgedIdentifierRefused : Obligations.StaleOrForgedIdentifierRefused := by
  intro c s i hi hmode
  obtain ⟨resume, hexec⟩ := execWith_return hi c s
  rw [hexec, hvReturn_hypervisor hmode]
  refine ⟨fun hdestroyed => ?_, fun hdisabled => ?_, fun vm k hlive hne => ?_⟩
  · rw [hdestroyed, returnByClass]
  · rw [hdisabled, returnByClass]
  · rw [hlive, returnByClass, returnToVm_forged hne]

/-! ## The state entered (R44, R55, R158). -/

/-- Outside a VM the array of a VM of this CPU reads as memory holds it: no live region shares a byte with it (R46, R47). -/
theorem slotImage_outside (hg : s.g = false) (hvm : vm ∈ s.vms) (hapart : regionsClash s = false) :
    slotImage c s vm.vmcs = slots s vm.vmcs := by
  have hothers := (regionsClash_false.mp hapart).1 vm hvm
  refine regs_ext fun i => ?_
  rw [slotImage, slots, regGet_regsOf, regGet_regsOf, physRead8_slot hg hothers, memWord]

/-- The registers saved at an entry are the hypervisor's, with `ip` after the instruction (R158, D32). -/
theorem xs_advance (hg : s.g = false) (n : Nat) :
    (s.advance n).xs c = regsOf fun i => if i = ipReg then s.ip + BitVec.ofNat 64 n else s.x c i := by
  refine regs_ext fun i => ?_
  rw [xs_get, regGet_regsOf, State.x, advance_regs, advance_g, hg, if_neg Bool.false_ne_true]
  split
  next h => rw [h, hwReg_fixed c (by decide), Option.getD_none, regGet_regSet_same]
  next h => rw [regGet_regSet_ne _ _ (Ne.symm h), State.x, hg, if_neg Bool.false_ne_true]

/-- The registers loaded do not depend on the `ip` saved: slot 16 is always loaded (D40). -/
theorem loadFrom_advance (c : Config) (s : State) (image : Regs) (n : Nat) :
    loadFrom c (s.advance n) image = loadFrom c s image := by
  refine loadFrom_congr fun i hi => ?_
  rw [State.x, State.x, advance_g, advance_regs, regGet_regSet_ne _ _ (Ne.symm hi)]

/-- The hypervisor enters a VM of its CPU in the state the statements name (R158). -/
theorem enterVm_of_enterable (h : Enterable c s vm) (hg : s.g = false) (hvm : vm ∈ s.vms) (n : Nat)
    (reentry delivers : Bool) :
    enterVm c (s.advance n) vm reentry delivers =
      .ok (enterTarget c s vm n (entrySeen s vm reentry delivers (regGet (slots s vm.vmcs) ipReg))) := by
  have himage : slotImage c (s.advance n) vm.vmcs = slots s vm.vmcs := by
    rw [(sameHost_advance s n).slotImage, slotImage_outside hg hvm h.apart]
  have hregs : loadRegs c (s.advance n) vm.vmcs = loadFrom c s (slots s vm.vmcs) := by
    rw [loadRegs, himage, loadFrom_advance]
  rw [enterVm_ok, (sameHost_advance s n).vmcsOf, regionsClash_congr (advance_vms s n) (advance_otherVms s n)]
  refine ⟨h.vmcs, h.vmregs, h.apart, ?_⟩
  rw [enteredState, hregs, xs_advance hg, loadFrom_ip]
  rfl

/-- A re-entry sees all changes of memory where it is a branch inside the VM (R55). -/
theorem entrySeen_reentry (s : State) (vm : Vm) (delivers : Bool) :
    entrySeen s vm true delivers (regGet (slots s vm.vmcs) ipReg) = reentrySeen s vm delivers := by
  simp [entrySeen, reentrySeen, or_assoc]

theorem reentrySeen_delivers (s : State) (vm : Vm) : reentrySeen s vm true = s.fetch.changes.length :=
  if_pos (.inl rfl)

@[simp] theorem enterTarget_ip (c : Config) (s : State) (vm : Vm) (n seen : Nat) :
    (enterTarget c s vm n seen).ip = regGet (slots s vm.vmcs) ipReg :=
  loadFrom_ip c s (slots s vm.vmcs)

/-! ## The return to the VM (R90 to R92). -/

/-- The entry of a return that is ready. -/
theorem enterVm_of_ready (h : ReturnReady c s vm p) (delivers : Bool) :
    enterVm c (s.advance 2) vm true delivers = .ok (enterTarget c s vm 2 (reentrySeen s vm delivers)) := by
  have hvm : vm ∈ s.vms := (vmFind_mem (ctxClass_live h.live).2.1).1
  rw [enterVm_of_enterable h.enterable (mode_hypervisor.mp h.mode).2.2 hvm, entrySeen_reentry]

/-- A return that delivers nothing enters the VM and checks its `ip`. -/
theorem hvReturn_enters (h : ReturnReady c s vm p) (hd : deliveredBy resume p = none) :
    hvReturn c resume 0 s = checkVmIp c (enterTarget c s vm 2 (reentrySeen s vm false)) := by
  rw [hvReturn_live h.mode h.live, returnToVm, if_neg (not_forged h.genuine), hd, Option.isSome_none,
    enterVm_of_ready h, orRefuse_ok]

/-- A return that delivers an exception enters the VM and forwards it. -/
theorem hvReturn_delivers {n : Fin 17} (h : ReturnReady c s vm p) (hd : deliveredBy resume p = some n) :
    hvReturn c resume 0 s = forward c (enterTarget c s vm 2 s.fetch.changes.length) vm n := by
  rw [hvReturn_live h.mode h.live, returnToVm, if_neg (not_forged h.genuine), hd, Option.isSome_some,
    enterVm_of_ready h, orRefuse_ok, reentrySeen_delivers]

/-- hret delivers nothing, whatever the identifier signals. -/
theorem deliveredBy_hret (p : Pending) : deliveredBy false p = none := by
  cases p <;> rfl

theorem hret_of_ready (h : ReturnReady c s vm p) :
    execWith c (.hret 0) s = checkVmIp c (enterTarget c s vm 2 (reentrySeen s vm false)) :=
  hvReturn_enters h (deliveredBy_hret p)

/-! ### The check of the VM's `ip` (R92). -/

theorem checkVmIp_ok (h : fetchCheck c s .vmDest s.ip = .ok) : checkVmIp c s = .next s := by
  rw [checkVmIp, h]

theorem checkVmIp_xa (h : fetchCheck c s .vmDest s.ip = .xa) : checkVmIp c s = raise c s c.xaNo (.address s.ip) := by
  rw [checkVmIp, h]

theorem checkVmIp_pf (h : fetchCheck c s .vmDest s.ip = .pf) : checkVmIp c s = raise c s c.pfNo (.address s.ip) := by
  rw [checkVmIp, h]

/-- Settles O16: hret enters the VM (`hret_of_ready`), whose `ip` passes the check. -/
theorem hretEntersVm : Obligations.HretEntersVm := by
  intro c s vm p h hok
  rw [← enterTarget_ip c s vm 2 (reentrySeen s vm false)] at hok
  exact answers_of_execWith ((hret_of_ready h).trans (checkVmIp_ok hok))

/-- Settles O17: with no signal hresume delivers nothing, so it makes hret's entry. -/
theorem hresumeWithoutSignalEntersVm : Obligations.HresumeWithoutSignalEntersVm := by
  intro c s vm h
  have hsame : execWith c (.hresume 0) s = execWith c (.hret 0) s :=
    (hvReturn_enters (resume := true) h rfl).trans (hret_of_ready h).symm
  exact ⟨hsame, fun hok => answers_of_execWith (hsame.trans (hretEntersVm c s vm none h hok).1)⟩

/-- Settles O18: hresume forwards the exception signalled, recording the `ip` loaded from slot 16. -/
theorem hresumeForwardsPendingException : Obligations.HresumeForwardsPendingException := by
  intro c s vm n h
  have hentry := hvReturn_delivers (resume := true) h rfl
  rw [forward, enterTarget_ip, clearPending, enterTarget_vms] at hentry
  exact hentry

/-- Settles O19: the check after hret's entry (`hret_of_ready`) fails in one of two ways. -/
theorem enteredVmBadIpRaisesInVm : Obligations.EnteredVmBadIpRaisesInVm := by
  intro c s vm p h
  rw [← enterTarget_ip c s vm 2 (reentrySeen s vm false)]
  exact ⟨fun hxa => (hret_of_ready h).trans (checkVmIp_xa hxa), fun hpf => (hret_of_ready h).trans (checkVmIp_pf hpf)⟩

end Sys2Proof.Proofs
end

section
/-! A VM that received RESET is never entered again (R93): no step (`Laws.step_kinds`) enters it or changes its entry, but some
dispose of it. -/

namespace Sys2Proof.Proofs

open Sys2Proof.Machine Sys2Proof.Safety Sys2Proof.Laws

variable {c : Config} {s t : State} {vm v w : Vm}

/-- The entry stands in the table as it is, and the CPU does not execute its VM. -/
structure Shelved (s : State) (vm : Vm) : Prop where
  listed : vmFind s.vms vm.num = some vm
  notInside : s.g = true → s.curvm ≠ some vm.num

/-- The entry stands as it is or is gone, and the CPU does not execute its VM. -/
def NotEntered (s : State) (vm : Vm) : Prop :=
  (vmFind s.vms vm.num = some vm ∨ vmFind s.vms vm.num = none) ∧ (s.g = true → s.curvm ≠ some vm.num)

theorem Shelved.notEntered (h : Shelved s vm) : NotEntered s vm := ⟨.inl h.listed, h.notInside⟩

theorem notEntered_of_gone (hg : s.g = false) (hf : vmFind s.vms vm.num = none) : NotEntered s vm :=
  ⟨.inr hf, fun h => nomatch hg.symm.trans h⟩

/-- A VM that received RESET is not the one that runs (R36 (a)). -/
theorem shelved_of_reset (hi : Inv c s) (hvm : vm ∈ s.vms) (hst : vm.status = .reset) : Shelved s vm where
  listed := vmFind_of_mem hi.numbersRise hvm
  notInside hg hcur := by
    have hactive := current_active hi hg (curVm_of_find hcur (vmFind_of_mem hi.numbersRise hvm))
    exact nomatch hst.symm.trans hactive

/-- A live VM is another one than a VM that received RESET. -/
theorem Shelved.num_ne (h : Shelved s vm) (hst : vm.status = .reset) (hf : vmFind s.vms v.num = some v)
    (hv : v.status = .active) : vm.num ≠ v.num := by
  intro hnum
  have hfound := h.listed
  rw [hnum, hf] at hfound
  cases hfound
  exact nomatch hst.symm.trans hv

/-! ## Steps that keep the entry. -/

theorem shelved_of_same (h : Shelved s vm) (hs : SameVirt s t) : Shelved t vm where
  listed := by rw [hs.vms, h.listed]
  notInside := by rw [hs.g, hs.curvm]; exact h.notInside

/-- Another entry is replaced. -/
theorem shelved_vmUpdate (h : Shelved s vm) (hne : vm.num ≠ w.num) : Shelved { s with vms := vmUpdate s.vms w } vm where
  listed := (vmFind_vmUpdate_ne s.vms w hne).trans h.listed
  notInside := h.notInside

/-- Leaving the VM that runs changes its entry alone. -/
theorem shelved_of_left (h : Shelved s vm) (hg : s.g = true) (hv : s.curVm? = some v) (hl : LeftVm c s t w)
    (hw : w.num = v.num) : Shelved t vm where
  listed := by
    have hne : vm.num ≠ w.num := fun hnum => h.notInside hg (by rw [(curVm_some hv).1, hnum, hw])
    rw [hl.vms, vmFind_vmUpdate_ne _ _ hne, h.listed]
  notInside ht := nomatch hl.g.symm.trans ht

theorem shelved_of_exited (h : Shelved s vm) (he : Exited c s t) : Shelved t vm := by
  obtain ⟨hg, -, v, w, hv, hl, ⟨ip, n, -, rfl⟩ | ⟨ip, rfl⟩⟩ := he
  · exact shelved_of_left h hg hv hl rfl
  · exact shelved_of_left h hg hv hl rfl

theorem shelved_of_interrupted {j : Nat} (h : Shelved s vm) (hi : Interrupted c s t j) : Shelved t vm := by
  obtain ⟨hg, -, -, v, hv, hl⟩ := hi
  exact shelved_of_left h hg hv hl rfl

theorem shelved_of_called (h : Shelved s vm) (hc : Called c s t) : Shelved t vm := by
  obtain ⟨hmode, -, v, w, hv, hl, rfl⟩ := hc
  exact shelved_of_left h (mode_managed.mp hmode).2.2 hv hl rfl

theorem shelved_of_ordinary (h : Shelved s vm) (ho : Ordinary c s t) : Shelved t vm :=
  ho.elim (fun hk => shelved_of_same h hk.same) (shelved_of_exited h)

/-- Another VM is entered. -/
theorem shelved_of_entered (h : Shelved s vm) (hne : vm.num ≠ v.num) (he : EnteredVm c s t v) : Shelved t vm where
  listed := by rw [he.vms, h.listed]
  notInside _ hcur := hne (Option.some.inj (hcur.symm.trans he.curvm))

/-- hret and hresume enter live VMs only (R92). -/
theorem shelved_of_returned (h : Shelved s vm) (hst : vm.status = .reset) (hr : Returned c s t) : Shelved t vm := by
  obtain ⟨-, v, s1, s2, hf, hv, he, hs2, ho⟩ := hr
  have hne : vm.num ≠ v.num := h.num_ne hst hf hv
  have h1 : Shelved s1 vm := shelved_of_entered h hne he
  rcases hs2 with rfl | ⟨-, rfl⟩
  · exact shelved_of_ordinary h1 ho
  · have hcleared : Shelved (clearPending s1 v) vm := shelved_vmUpdate (w := { v with pending := none }) h1 hne
    exact shelved_of_ordinary hcleared ho

/-- A new VM's number is not in use (R107). -/
theorem shelved_of_created (h : Shelved s vm) (hc : Created c s t) : Shelved t vm := by
  obtain ⟨hmode, hlim, v, s1, hnum, -, -, -, -, he, ho⟩ := hc
  have hne : vm.num ≠ v.num := by
    intro hsame
    have hfree := (freshVmNum_unused (c := c) (room_of_limit hlim)).2
    rw [← hnum, ← hsame, h.listed] at hfree
    cases hfree
  have hadd : Shelved (addVm s v) vm :=
    { listed := (vmFind_vmInsert_ne s.vms v hne).trans h.listed
      notInside := h.notInside }
  exact shelved_of_ordinary (shelved_of_entered hadd hne he) ho

/-! ## Steps that may dispose of the VM. -/

theorem notEntered_of_same (h : NotEntered s vm) (hs : SameVirt s t) : NotEntered t vm := by
  unfold NotEntered
  rw [hs.vms, hs.g, hs.curvm]
  exact h

/-- vmdestroy disposes of this VM or of another one (R110). -/
theorem notEntered_of_destroyed (h : Shelved s vm) (hd : Destroyed c s t) : NotEntered t vm := by
  obtain ⟨hmode, v, -, rfl⟩ := hd
  have hg : s.g = false := (mode_hypervisor.mp hmode).2.2
  suffices hremoved : NotEntered (removeVm s v) vm from notEntered_of_same hremoved (sameVirt_advance (removeVm s v) 2)
  refine ⟨?_, fun h => nomatch hg.symm.trans h⟩
  rw [removeVm_vms]
  by_cases hnum : vm.num = v.num
  · exact .inr (hnum ▸ vmFind_vmErase_same s.vms v.num)
  · exact .inl ((vmFind_vmErase_ne s.vms hnum).trans h.listed)

/-- A write of mxcw disposes of all VMs or of none (R144). -/
theorem writeMxcw_vms (s : State) (x : Word) : (writeMxcw s x).vms = [] ∨ (writeMxcw s x).vms = s.vms := by
  unfold writeMxcw
  split
  · exact .inl rfl
  · exact .inr rfl

theorem notEntered_of_mxcwWritten (h : Shelved s vm) (hm : MxcwWritten c s t) : NotEntered t vm := by
  obtain ⟨hg, x, -, -, hk, -⟩ := hm
  refine notEntered_of_same ⟨?_, fun hg' => nomatch hg.symm.trans ((writeMxcw_g s x).symm.trans hg')⟩ hk.same
  rcases writeMxcw_vms s x with hnone | hall
  · rw [hnone]; exact .inr rfl
  · rw [hall]; exact .inl h.listed

/-! ## The step. -/

/-- Settles O58: an entry marked reset is not that of the running VM (`shelved_of_reset`), and no kind of step enters it. -/
theorem resetVmIsNeverReentered : Obligations.ResetVmIsNeverReentered := by
  intro c s t vm hi h hvm hst
  obtain ⟨-, s0, hs0, hkinds⟩ := step_kinds h
  have h0 : Shelved s0 vm := shelved_of_same (shelved_of_reset hi hvm hst) (kept_of_started (c := c) hs0).same
  rcases hkinds with h | h | h | h | ⟨-, rfl⟩ | h | ⟨-, l, rfl⟩ | ⟨j, es, -, h⟩ | ⟨-, -, h⟩
  · exact (shelved_of_ordinary h0 h).notEntered
  · exact (shelved_of_returned h0 hst h).notEntered
  · exact (shelved_of_created h0 h).notEntered
  · exact notEntered_of_destroyed h0 h
  · exact notEntered_of_gone rfl rfl
  · exact notEntered_of_mxcwWritten h0 h
  · exact ⟨.inl h0.listed, h0.notInside⟩
  · exact (shelved_of_interrupted h0 h).notEntered
  · exact (shelved_of_called h0 h).notEntered

end Sys2Proof.Proofs
end

section
/-! The rules of 42_vmcreate_vmdestroy.md: the checks of vmcreate in order (R105, R106, R108), the number of a new VM (R107) and its
first entry (R105), the disposal of a VM by vmdestroy (R110). -/

namespace Sys2Proof.Proofs

open Sys2Proof.Machine Sys2Proof.Safety Sys2Proof.Laws Sys2Proof.Claims

variable {c : Config} {s : State} {vm : Vm} {src : List Byte} {pa : Word} {v : Vmcs}

/-! ## The modes (R105, R110). -/

theorem vmcreate_notHypervisor (hmode : s.mode c ≠ .hypervisor) : vmcreateWith c 0 src s = raise c s c.undNo .virt := by
  rw [vmcreateWith, if_neg (not_not.mpr rfl), if_pos hmode]

theorem vmdestroy_notHypervisor (hmode : s.mode c ≠ .hypervisor) : vmdestroyWith c 0 s = raise c s c.undNo .virt := by
  rw [vmdestroyWith, if_neg (not_not.mpr rfl), if_pos hmode]

/-- Settles O29: after `h` the mode is the first check of both. -/
theorem createDestroyWrongModeRaisesUnd : Obligations.CreateDestroyWrongModeRaisesUnd :=
  fun _ _ _ hmode => ⟨vmcreate_notHypervisor hmode, vmdestroy_notHypervisor hmode⟩

/-! ## The limits (R106). -/

theorem limitReached_iff : limitReached c s = true ↔ vmLimitCpu c ≤ s.vmcount ∨ vmLimitAll c ≤ s.vmcountAll := by
  simp [limitReached]

/-- Settles O27: the limits are checked before the operand is read. -/
theorem vmcreateAtLimitRaisesProt : Obligations.VmcreateAtLimitRaisesProt := by
  intro c s src hmode hlimit
  rw [execWith, vmcreateWith, if_neg (not_not.mpr rfl), if_neg (not_not.mpr hmode), if_pos (limitReached_iff.mpr hlimit),
    raiseInHypervisor]

/-! ## The validation of the vmcs (R108). -/

theorem vmcsLegal_version (hver : v.vmcsver ≠ 0) : vmcsLegal c v = .error .vmcsVersion := if_pos hver

theorem vmcsLegal_reserved (hver : v.vmcsver = 0) (hres : v.reserved35 ≠ 0 ∨ v.reserved56 ≠ 0) :
    vmcsLegal c v = .error .vmcsReservedBits := by
  rw [vmcsLegal, if_neg (not_not.mpr hver), if_pos hres]

theorem vmcsLegal_sizes (hver : v.vmcsver = 0) (h35 : v.reserved35 = 0) (h56 : v.reserved56 = 0)
    (hsizes : sizesOk c v.vmpas v.vmvas = false) : vmcsLegal c v = .error .vmcsSizes := by
  have hres : ¬(v.reserved35 ≠ 0 ∨ v.reserved56 ≠ 0) := not_or.mpr ⟨not_not.mpr h35, not_not.mpr h56⟩
  rw [vmcsLegal, if_neg (not_not.mpr hver), if_neg hres, hsizes]
  rfl

/-- One of the three bounds on the sizes is broken. -/
theorem sizesOk_false {p q : BitVec 3} :
    sizesOk c p q = false ↔
      c.vasBits (hostVas c) < c.pasBits p ∨ c.vasBits (hostVas c) < c.vasBits q ∨ c.vasBits q < c.pasBits p := by
  simp only [sizesOk, Bool.and_eq_false_iff, decide_eq_false_iff_not, not_le, or_assoc]

theorem createVm_refused_of_illegal {n : Nat} {r : Refusal} (hv : readVmcs c s .vmcsCreate pa = .ok v)
    (hl : vmcsLegal c v = .error r) : createVm c pa n s = .refused r := by
  rw [createVm, hv, orRefuse_ok, hl, orRefuse_error]

/-- Settles O28: below the limits the vmcs that the operand names is validated, by the three checks of `vmcsLegal` in order. -/
theorem illegalVmcsRefused : Obligations.IllegalVmcsRefused := by
  intro c s src pa v hmode h1 h2 hpa hv
  have hrefused : ∀ {r}, vmcsLegal c v = .error r → execWith c (.vmcreate 0 src) s = .refused r := fun hl =>
    (vmcreate_creates hmode h1 h2 hpa).trans (createVm_refused_of_illegal hv hl)
  exact ⟨fun hver => hrefused (vmcsLegal_version hver), fun hver hres => hrefused (vmcsLegal_reserved hver hres),
    fun hver h35 h56 hsizes => hrefused (vmcsLegal_sizes hver h35 h56 (sizesOk_false.mpr hsizes))⟩

/-! ## The number of a new VM (R107). -/

/-- A drawn number that is nonzero and not in use is the new VM's. -/
theorem freshVmNum_drawn (h0 : c.drawNum s.drawCtr ≠ 0) (hfree : vmFind s.vms (c.drawNum s.drawCtr) = none) :
    freshVmNum c s = c.drawNum s.drawCtr :=
  if_pos ⟨h0, Option.isNone_iff_eq_none.mpr hfree⟩

@[simp] theorem withNewVm_retiredDestroyed (c : Config) (s : State) (pa : Word) (v : Vmcs) :
    (withNewVm c s pa v).retiredDestroyed = numErase s.retiredDestroyed (freshVmNum c s) := rfl

@[simp] theorem withNewVm_retiredDisabled (c : Config) (s : State) (pa : Word) (v : Vmcs) :
    (withNewVm c s pa v).retiredDisabled = numErase s.retiredDisabled (freshVmNum c s) := rfl

theorem not_mem_numErase (l : List VmNum) (n : VmNum) : n ∉ numErase l n := fun h => (mem_numErase.mp h).2 rfl

/-- Settles O26: below the limit a number is free (`freshVmNum_unused`), a free one that is drawn is taken, and the number taken
is erased from both retired sets. -/
theorem freshNumberIsUnused : Obligations.FreshNumberIsUnused := by
  intro c s _ hroom
  obtain ⟨h0, hunused⟩ := freshVmNum_unused hroom
  refine ⟨h0, vmFind_none.mp hunused, ?_, fun pa v => ?_⟩
  · rintro n hn hfree rfl
    exact freshVmNum_drawn hn hfree
  · rw [withNewVm_retiredDestroyed, withNewVm_retiredDisabled]
    exact ⟨not_mem_numErase _ _, not_mem_numErase _ _⟩

/-! ## The first entry of a new VM (R105). -/

/-- The new VM stands in the table that vmcreate leaves. -/
theorem newVm_mem (c : Config) (s : State) (pa : Word) (v : Vmcs) :
    newVm (freshVmNum c s) pa v ∈ (withNewVm c s pa v).vms := by
  rw [withNewVm_vms]
  exact (vmFind_mem (vmFind_vmInsert_same s.vms (newVm (freshVmNum c s) pa v))).1

/-- The VM is entered from the state in which it has been added; the first entry is no branch for its fetch (log 15). -/
theorem enterVm_of_createReady (h : CreateReady c s src pa v) (n : Nat) :
    enterVm c ((withNewVm c s pa v).advance n) (newVm (freshVmNum c s) pa v) false false =
      .ok (createTarget c s pa v n) := by
  have hg : (withNewVm c s pa v).g = false := (withNewVm_g c s pa v).trans (mode_hypervisor.mp h.mode).2.2
  rw [enterVm_of_enterable h.enterable hg (newVm_mem c s pa v)]
  rfl

/-- vmcreate adds the VM and enters it, then checks the VM's `ip` (R105). -/
theorem vmcreate_of_ready (h : CreateReady c s src pa v) :
    execWith c (.vmcreate 0 src) s = checkVmIp c (createTarget c s pa v (2 + src.length)) := by
  rw [execWith, vmcreate_creates h.mode h.room.1 h.room.2 h.operand, createVm, h.vmcs, orRefuse_ok, h.legal, orRefuse_ok,
    addVm_newVm, enterVm_of_createReady h, orRefuse_ok]

/-- The new VM starts at the `ip` in its slot 16, which vmcreate does not write. -/
@[simp] theorem createTarget_ip (c : Config) (s : State) (pa : Word) (v : Vmcs) (n : Nat) :
    (createTarget c s pa v n).ip = regGet (slots s v) ipReg :=
  enterTarget_ip c (withNewVm c s pa v) (newVm (freshVmNum c s) pa v) n s.fetch.seen

/-- Settles O23: vmcreate enters the new VM (`vmcreate_of_ready`), whose `ip` passes the check. -/
theorem vmcreateEntersNewVm : Obligations.VmcreateEntersNewVm := by
  intro c s src pa v h hok
  rw [← createTarget_ip c s pa v (2 + src.length)] at hok
  exact answers_of_execWith ((vmcreate_of_ready h).trans (checkVmIp_ok hok))

/-- Settles O24: the check after the entry of the new VM (`vmcreate_of_ready`) fails in one of two ways. -/
theorem createdVmBadIpRaisesInVm : Obligations.CreatedVmBadIpRaisesInVm := by
  intro c s src pa v h
  rw [← createTarget_ip c s pa v (2 + src.length)]
  exact ⟨fun hxa => (vmcreate_of_ready h).trans (checkVmIp_xa hxa),
    fun hpf => (vmcreate_of_ready h).trans (checkVmIp_pf hpf)⟩

/-! ## The disposal of a VM (R110). -/

/-- Removing the VM and going on to the next instruction is the state the statements name. -/
theorem removeVm_advance (s : State) (vm : Vm) : (removeVm s vm).advance 2 = destroyTarget s vm := rfl

/-- What vmdestroy does in Hypervisor mode, by the class of the identifier in r0. -/
def destroyByClass (c : Config) (s : State) : CtxClass → Result
  | .reset vm => .next (destroyTarget s vm)
  | .live vm _ => .next (destroyTarget s vm)
  | .invalid | .staleDestroyed | .staleDisabled => deliver c s c.protNo.val .virt

theorem vmdestroy_hypervisor (hmode : s.mode c = .hypervisor) :
    execWith c (.vmdestroy 0) s = destroyByClass c s (ctxClass c s (regGet s.regs r0)) := by
  rw [execWith, vmdestroyWith, if_neg (not_not.mpr rfl), if_neg (not_not.mpr hmode), x_r0]
  cases ctxClass c s (regGet s.regs r0) with
  | reset w => exact congrArg Host.Outcome.next (removeVm_advance s w)
  | live w _ => exact congrArg Host.Outcome.next (removeVm_advance s w)
  | invalid | staleDestroyed | staleDisabled => rfl

/-- Settles O30: a VM of the table is disposed of, whether it is live or received RESET. -/
theorem vmdestroyDisposes : Obligations.VmdestroyDisposes := by
  intro c s vm hmode hclass
  refine answers_of_execWith ((vmdestroy_hypervisor hmode).trans ?_)
  rcases hclass with hreset | ⟨p, hlive⟩
  · rw [hreset, destroyByClass]
  · rw [hlive, destroyByClass]

/-- Settles O31: the three classes that name no VM of the table give the hypervisor's PROT. -/
theorem vmdestroyInvalidRaisesProt : Obligations.VmdestroyInvalidRaisesProt := by
  intro c s hmode hclass
  rw [vmdestroy_hypervisor hmode]
  rcases hclass with hclass | hclass | hclass <;> rw [hclass, destroyByClass]

/-! ## After the disposal (R25, R26, R110). -/

/-- The VM no longer counts on its CPU. -/
theorem destroyTarget_vmcount (hi : Inv c s) (hvm : vm ∈ s.vms) : (destroyTarget s vm).vmcount + 1 = s.vmcount := by
  rw [State.vmcount, destroyTarget_vms, vmErase_length hi.numbersRise hvm, State.vmcount]

theorem vmcountAll_eq (s : State) : s.vmcountAll = s.vmcount + s.otherVms.length := rfl

/-- Nor does it count among the VMs of all CPUs. -/
theorem destroyTarget_vmcountAll (hi : Inv c s) (hvm : vm ∈ s.vms) :
    (destroyTarget s vm).vmcountAll + 1 = s.vmcountAll := by
  rw [vmcountAll_eq, vmcountAll_eq, destroyTarget_otherVms, ← destroyTarget_vmcount hi hvm]
  exact Nat.add_right_comm _ _ 1

/-- Where the VM was the current one, no VM is. -/
theorem destroyTarget_curVm (hcur : s.curvm = some vm.num) : (destroyTarget s vm).curVm? = none :=
  curVm_none (by rw [destroyTarget_curvm, if_pos hcur])

/-- Settles O32: one entry is erased from the table (`vmErase_length`, `vmFind_vmErase_ne`), and the ports read off the current
VM. -/
theorem destroyedVmNoLongerCounts : Obligations.DestroyedVmNoLongerCounts := by
  intro c s vm hi hvm
  refine ⟨destroyTarget_vmcount hi hvm, destroyTarget_vmcountAll hi hvm, ?_, ?_, fun n hn => ?_, fun hcur => ⟨?_, ?_⟩⟩
  · rw [destroyTarget_vms, vmFind_vmErase_same]
  · rw [destroyTarget_retiredDestroyed]
    exact mem_numInsert.mpr (.inl rfl)
  · rw [destroyTarget_vms, vmFind_vmErase_ne _ hn]
  · exact contextPort_none (destroyTarget_curVm hcur)
  · exact vmcsPort_none (destroyTarget_curVm hcur)

end Sys2Proof.Proofs
end

section
/-! The rules of 43_base_instruction_changes.md: the io gate (R125, R126), how many CPUs io shows (R134), returns to a program (R127),
machine-specific operations (R129), features and register accesses (R130 to R133, R161). Each gate has one lemma per outcome. -/

namespace Sys2Proof.Proofs

open Sys2Proof.Machine Sys2Proof.Laws Sys2Proof.Claims

variable {c : Config} {s : State} {e : Effect} {vm : Vm} {a v id : Word} {i r : RegNo} {b : Fin 64} {k : Result}

/-! ## How many CPUs io shows (R134, R171). -/

theorem visibleCpus_one (hg : s.g = true) (ha : reportsCpus c a = true) : visibleCpus c s a = 1 := by
  rw [visibleCpus, hg, ha]
  rfl

theorem visibleCpus_all (ha : reportsCpus c a = false) : visibleCpus c s a = ncpu c := by
  rw [visibleCpus, ha, Bool.and_false]
  rfl

/-- The addresses R134 names report CPUs however far the initialization registers extend. -/
theorem reportsCpus_named (c : Config) (ha : a = 0xfe80 ∨ a = 0xff00 ∨ a = 0xff80) : reportsCpus c a = true := by
  rcases ha with rfl | rfl | rfl <;> simp [reportsCpus]

/-- A configuration's `NCPU` is seen by io alone, through the number of CPUs the address shows. -/
theorem ioReadValue_ncpu {n : Nat} (hn : visibleCpus { c with ncpuRaw := n } s a = visibleCpus c s a) (wide : Bool) :
    ioReadValue { c with ncpuRaw := n } s a wide = ioReadValue c s a wide := by
  rw [ioReadValue, hn]
  rfl

theorem ioWrite_ncpu {n : Nat} (hn : visibleCpus { c with ncpuRaw := n } s a = visibleCpus c s a) (wide : Bool) (v : Word)
    (e : Effect) : ioWrite { c with ncpuRaw := n } s a wide v e = ioWrite c s a wide v e := by
  simp only [ioWrite, hn, applyEffect_ncpu]
  rfl

/-- An access is the base ISA's if it is narrow or not to one of the three ports (D16). -/
theorem not_port {wide : Bool} (h : wide = false ∨ (a ≠ ioMxcw ∧ a ≠ ioContext ∧ a ≠ ioVmcs)) :
    (wide && a == ioMxcw) = false ∧ (wide && a == ioContext) = false ∧ (wide && a == ioVmcs) = false := by
  rcases h with rfl | ⟨hm, hc, hv⟩
  · exact ⟨rfl, rfl, rfl⟩
  · simp only [beq_false_of_ne hm, beq_false_of_ne hc, beq_false_of_ne hv, Bool.and_false, and_self]

theorem ioReadValue_base {wide : Bool} (h : wide = false ∨ (a ≠ ioMxcw ∧ a ≠ ioContext ∧ a ≠ ioVmcs)) :
    ioReadValue c s a wide = c.ioRead s.drawCtr (visibleCpus c s a) (view c s .ioPort) a wide := by
  obtain ⟨hm, hc, hv⟩ := not_port h
  simp only [ioReadValue, hm, hc, hv, Bool.false_eq_true, if_false]

theorem ioWrite_base {wide : Bool} (h : wide = false ∨ (a ≠ ioMxcw ∧ a ≠ ioContext ∧ a ≠ ioVmcs)) :
    ioWrite c s a wide v e = applyEffect c s (c.ioWrite (visibleCpus c s a) (view c s .ioPort) a wide v e) := by
  obtain ⟨hm, hc, hv⟩ := not_port h
  simp only [ioWrite, Bool.and_or_distrib_left, hm, hc, hv, Bool.or_self, Bool.false_eq_true, if_false]

/-- Settles O39: io depends on `NCPU` only through `visibleCpus`, which is one at the addresses R134 names and `NCPU` at the
others. -/
theorem guestSeesOneCpu : Obligations.GuestSeesOneCpu := by
  intro c s a wide hg
  refine ⟨rfl, reportsCpus_named c, fun ha => ?_, fun ha hbase => ?_⟩
  · have hone : visibleCpus { c with ncpuRaw := 0 } s a = visibleCpus c s a :=
      (visibleCpus_one (c := { c with ncpuRaw := 0 }) hg ha).trans (visibleCpus_one hg ha).symm
    exact ⟨(ioReadValue_ncpu hone wide).symm, fun v e => (ioWrite_ncpu hone wide v e).symm⟩
  · rw [← visibleCpus_all (s := s) ha]
    exact ⟨ioReadValue_base hbase, fun _ _ => ioWrite_base hbase⟩

/-! ## The io gate (R125, R126). -/

theorem ioGate_outside (hg : s.g = false) : ioGate c s k = if s.xm c then raise c s c.protNo .virt else k := by
  rw [ioGate, ioAllowed, hg]
  cases s.xm c <;> rfl

theorem ioGate_inside (hg : s.g = true) (hv : s.curVm? = some vm) (hok : vmcsOf c s .vmcsIo vm = .ok vm.vmcs) :
    ioGate c s k = if s.xm c || vm.vmcs.trapio then raise c s c.protNo .virt else k := by
  simp only [ioGate, ioAllowed, hg, hv, hok]
  cases s.xm c <;> cases vm.vmcs.trapio <;> rfl

/-- An `in` or an `out` is behind the gate, whatever it does once it is made. -/
theorem baseStep_io (h : IoMade c s k) : baseStep c s = ioGate c s k := by
  rcases h with ⟨a, wide, f, hact, rfl⟩ | ⟨a, wide, v, e, hact, rfl⟩ <;> rw [baseStep, hact]

/-- Settles O38: the gate goes by XM, and inside a VM by trapio too. -/
theorem ioGateRaisesProt : Obligations.IoGateRaisesProt := by
  intro c s k hmade
  rw [baseStep_io hmade]
  refine ⟨fun hg hx => ?_, fun hg hx => ?_, fun vm hg hv hok => ⟨fun h => ?_, fun hx ht => ?_⟩⟩
  · rw [ioGate_outside hg, hx, if_pos rfl]
  · rw [ioGate_outside hg, hx, if_neg Bool.false_ne_true]
  · rw [ioGate_inside hg hv hok, if_pos ((Bool.or_eq_true _ _).mpr h)]
  · rw [ioGate_inside hg hv hok, hx, ht, Bool.or_self, if_neg Bool.false_ne_true]

/-! ## Returns to a program (R127). -/

theorem returnGate_aborts (hmode : s.mode c = .hypervisor) (hx : xm c (regGet e.regs flagsReg) = true) :
    returnGate c s e = deliver c s c.abortNo.val .virt :=
  if_pos ⟨hmode, hx⟩

theorem returnGate_returns (h : s.mode c ≠ .hypervisor ∨ xm c (regGet e.regs flagsReg) = false) :
    returnGate c s e = applyEffect c s e :=
  if_neg fun ⟨hmode, hx⟩ => h.elim (fun hn => hn hmode) fun hn => Bool.false_ne_true (hn.symm.trans hx)

theorem baseStep_return (h : c.baseAct (view c s .base) = .iret e ∨ c.baseAct (view c s .base) = .scret e) :
    baseStep c s = returnGate c s e := by
  rcases h with hact | hact <;> rw [baseStep, hact]

/-- Settles O40: both returns are behind one gate. -/
theorem returnToProgramInHypervisorAborts : Obligations.ReturnToProgramInHypervisorAborts := by
  intro c s e hact
  rw [baseStep_return hact]
  exact ⟨returnGate_aborts, returnGate_returns⟩

/-! ## Machine-specific operations (R129). -/

theorem machineSpecificGate_managed (hmode : s.mode c = .managedSupervisor) (hv : s.curVm? = some vm) :
    machineSpecificGate c s id e =
      if c.msPassthrough vm.num id then applyEffect c s e else raise c s c.undNo .virt := by
  obtain ⟨hx, -, hg⟩ := mode_managed.mp hmode
  rw [machineSpecificGate, hg, hx, (curVm_some hv).1, Option.any_some]
  cases c.msPassthrough vm.num id <;> rfl

/-- Only a managed supervisor is stopped: `G = 1` and XM clear. -/
theorem machineSpecificGate_open (h : s.g = false ∨ s.xm c = true) : machineSpecificGate c s id e = applyEffect c s e := by
  rw [machineSpecificGate]
  rcases h with hg | hx
  · rw [hg, Bool.false_and, Bool.false_and, if_neg Bool.false_ne_true]
  · rw [hx, Bool.not_true, Bool.and_false, Bool.false_and, if_neg Bool.false_ne_true]

/-! ## Features (R133, R161). -/

/-- A feature is there if neither the loaded nor the hardware's bit is clear. -/
theorem featureAvailable_eq_true {x : Regs} :
    featureAvailable c x r b = true ↔ (regGet x r).getLsbD b.val = true ∧ hwFeature c r b = true :=
  Bool.and_eq_true_iff

theorem featureAvailable_eq_false {x : Regs} :
    featureAvailable c x r b = false ↔ (regGet x r).getLsbD b.val = false ∨ hwFeature c r b = false :=
  Bool.and_eq_false_iff

theorem featureGate_absent (hg : s.g = true) (h : featureAvailable c s.regs r b = false) :
    featureGate c s r b e = raise c s c.absentFeature .virt := by
  rw [featureGate, hg, h, Bool.not_false, Bool.and_true, if_pos rfl]

theorem featureGate_there (h : s.g = false ∨ featureAvailable c s.regs r b = true) :
    featureGate c s r b e = applyEffect c s e := by
  rw [featureGate]
  rcases h with hg | hf
  · rw [hg, Bool.false_and, if_neg Bool.false_ne_true]
  · rw [hf, Bool.not_true, Bool.and_false, if_neg Bool.false_ne_true]

/-! ## Uses of a register (R131, R132, R161). -/

theorem regUsable_outside (hg : s.g = false) (i : RegNo) : regUsable c s i = true := by
  rw [regUsable, hg]
  rfl

/-- Inside a VM a register cannot be used where the feature it belongs to is absent. -/
theorem regUsable_absent (hg : s.g = true) (hi : i ∉ alwaysAvail) (hf : regFeature c i = some (r, b))
    (h : featureAvailable c s.regs r b = false) : regUsable c s i = false := by
  rw [regUsable, regFeaturePresent, hg, hf, decide_eq_false hi]
  exact h

theorem registerGate_undefined (hd : regDefined c i = false) : registerGate c s i k = raise c s c.undNo .virt := by
  rw [registerGate, hd, Bool.not_false, if_pos rfl]

theorem registerGate_absent (hd : regDefined c i = true) (hu : regUsable c s i = false) :
    registerGate c s i k = raise c s c.absentFeature .virt := by
  rw [registerGate, hd, hu, Bool.not_true, Bool.not_false, if_neg Bool.false_ne_true, if_pos rfl]

theorem registerGate_usable (hd : regDefined c i = true) (hu : regUsable c s i = true) : registerGate c s i k = k := by
  rw [registerGate, hd, hu, Bool.not_true, if_neg Bool.false_ne_true, if_neg Bool.false_ne_true]

theorem baseStep_read {f : Word → Effect} (hact : c.baseAct (view c s .base) = .readRegister i f) :
    baseStep c s = registerGate c s i (applyEffect c s (f (s.x c i))) := by
  simp only [baseStep, hact, readGate]

theorem baseStep_write (hact : c.baseAct (view c s .base) = .writeRegister i v e) :
    baseStep c s = registerGate c s i (if c.writeUnd i v then raise c s c.undNo .virt else applyEffect c s e) := by
  simp only [baseStep, hact, writeGate]

/-- A read and a write of a register go through the same gate. -/
theorem baseStep_register (h : (∃ f, c.baseAct (view c s .base) = .readRegister i f) ∨
    (∃ v e, c.baseAct (view c s .base) = .writeRegister i v e)) : ∃ k, baseStep c s = registerGate c s i k := by
  rcases h with ⟨f, hact⟩ | ⟨v, e, hact⟩
  · exact ⟨_, baseStep_read hact⟩
  · exact ⟨_, baseStep_write hact⟩

theorem baseStep_machineSpecific (hact : c.baseAct (view c s .base) = .machineSpecific id e) :
    baseStep c s = machineSpecificGate c s id e := by
  rw [baseStep, hact]

theorem baseStep_needsFeature (hact : c.baseAct (view c s .base) = .needsFeature r b e) :
    baseStep c s = featureGate c s r b e := by
  rw [baseStep, hact]

/-- Settles O41: each guarded operation is its gate, and each clause one outcome of it. -/
theorem guardedBaseOperationsRaise : Obligations.GuardedBaseOperationsRaise := by
  intro c s
  refine ⟨fun id e hact => ?_, fun r b e hact => ?_, fun i hact => ?_, fun i v e hact hd hu => ?_⟩
  · rw [baseStep_machineSpecific hact]
    refine ⟨fun vm hmode hv => ?_, fun _ hg => machineSpecificGate_open (.inl hg),
      fun hmode => machineSpecificGate_open (.inl (mode_hypervisor.mp hmode).2.2),
      fun hmode => machineSpecificGate_open (.inr (mode_program.mp hmode))⟩
    rw [machineSpecificGate_managed hmode hv]
    exact ⟨fun hp => if_neg (Bool.eq_false_iff.mp hp), fun hp => if_pos hp⟩
  · rw [baseStep_needsFeature hact]
    exact ⟨fun hg h => featureGate_absent hg (featureAvailable_eq_false.mpr h),
      fun h => featureGate_there (h.imp_right featureAvailable_eq_true.mpr)⟩
  · obtain ⟨k, hk⟩ := baseStep_register hact
    rw [hk]
    exact ⟨registerGate_undefined, fun r b hg hd hi hf h =>
      registerGate_absent hd (regUsable_absent hg hi hf (featureAvailable_eq_false.mpr h))⟩
  · rw [baseStep_write hact, registerGate_usable hd hu]
    exact ⟨fun hw => if_pos hw, fun hw => if_neg (Bool.eq_false_iff.mp hw)⟩

/-! ## What a register reads (R17, R130), and that read-only registers stay (R131). -/

/-- Outside a VM a read-only register reads the hardware's value (R17). -/
theorem x_outside (c : Config) (hg : s.g = false) (i : RegNo) : s.x c i = (hwReg c i).getD (regGet s.regs i) := by
  rw [State.x, hg]
  rfl

theorem regGet_keepReadOnly_readOnly (h : (hwReg c i).isSome = true) (q : Regs) :
    regGet (keepReadOnly c s q) i = regGet s.regs i := by
  rw [keepReadOnly, regGet_regsOf, if_pos h]

/-- Committed or not for lack of a place, an effect leaves a read-only register as it was (R131). -/
theorem commit_readOnly {o : Origin} (h : (hwReg c i).isSome = true) :
    regGet (commit c s e o).regs i = regGet s.regs i := by
  cases hw : placeWrites c s 0 e.writes with
  | none => rw [commit_unplaced hw]
  | some ws => rw [commit_placed_regs hw, regGet_keepReadOnly_readOnly h]

/-- `N_cpuex2` is none of the numbers of R11, nor that of a system-call register (N5). -/
theorem cpuex2Reg_not_used (c : Config) : cpuex2Reg c ∉ sccrReg c :: scspReg c :: scdpReg c :: fixedRegs :=
  pickReg_not_mem _ _ (by simp [fixedRegs])

/-- cpuex2 is read-only, with VIRT set (R1, R17). -/
@[simp] theorem hwReg_cpuex2 (c : Config) : hwReg c (cpuex2Reg c) = some (hwCpuex2 c) := by
  have h := cpuex2Reg_not_used c
  simp only [List.mem_cons, not_or] at h
  obtain ⟨hsccr, hscsp, hscdp, hfixed⟩ := h
  simp [hwReg, hsccr, hscsp, hscdp, hfixed]

theorem x_cpuex2 (hg : s.g = false) : s.x c (cpuex2Reg c) = hwCpuex2 c := by
  rw [x_outside c hg, hwReg_cpuex2, Option.getD_some]

theorem hwCpuex2_virt (c : Config) : (hwCpuex2 c).getLsbD 12 = true := by
  rw [hwCpuex2, BitVec.getLsbD_or, Bool.or_eq_true_iff]
  exact .inr (by decide)

/-- Settles O42: a read goes on with `s.x c i`, which is the value held inside a VM (`x_guest`) and the hardware's of a read-only
register outside (`x_outside`). -/
theorem registerReadsInsideAndOutside : Obligations.RegisterReadsInsideAndOutside := by
  intro c s
  refine ⟨fun i f hg hact hd hu => ?_, fun i f hg hact hd => ?_, fun e i t hro h => ?_, fun hg => ?_⟩
  · rw [baseStep_read hact, registerGate_usable hd hu, x_guest c s hg]
  · rw [baseStep_read hact, registerGate_usable hd (regUsable_outside hg i), x_outside c hg]
  · obtain ⟨-, -, -, rfl⟩ := applyEffect_next.mp h
    exact commit_readOnly hro
  · rw [x_cpuex2 hg]
    exact ⟨hwCpuex2_virt c, rfl, rfl⟩

end Sys2Proof.Proofs
end

section
/-! The rules of 60_exceptions.md: the writes of mxcw (R143 to R145), the routing of exceptions (R150), the trap and its check of the
vector (R151 to R154), RESET inside a VM (R153), interrupts (R157, R162), and the complete list of exits from a VM (R155). -/

namespace Sys2Proof.Proofs

open Sys2Proof.Machine Sys2Proof.Safety Sys2Proof.Laws Sys2Proof.Claims

variable {c : Config} {s s0 t : State} {vm w : Vm} {v : Word} {e : Effect}

/-! ## The writes of mxcw (R143 to R145). -/

/-- Inside a VM the write of mxcw is dropped, and the `out` is its base effect alone (R145). -/
theorem ioWrite_mxcw_inside (hg : s.g = true) : ioWrite c s ioMxcw true v e = applyEffect c s e :=
  (if_pos rfl).trans (if_pos hg)

/-- Outside a VM a reserved bit is refused (U1), and any other value is written. -/
theorem ioWrite_mxcw_outside (hg : s.g = false) :
    ioWrite c s ioMxcw true v e =
      if !mxcwLegal v then .refused .reservedMxcwBits else applyEffect c (writeMxcw s v) e :=
  (if_pos rfl).trans (if_neg (Bool.eq_false_iff.mp hg))

theorem ioWrite_mxcw_reserved (hg : s.g = false) (hv : mxcwLegal v = false) :
    ioWrite c s ioMxcw true v e = .refused .reservedMxcwBits := by
  rw [ioWrite_mxcw_outside hg, hv, Bool.not_false, if_pos rfl]

theorem ioWrite_mxcw_legal (hg : s.g = false) (hv : mxcwLegal v = true) :
    ioWrite c s ioMxcw true v e = applyEffect c (writeMxcw s v) e := by
  rw [ioWrite_mxcw_outside hg, hv, Bool.not_true, if_neg Bool.false_ne_true]

/-- Only a write that clears a set ME does more than replace mxcw (D37). -/
theorem writeMxcw_replaces (h : s.me = false ∨ v.getLsbD 0 = true) : writeMxcw s v = { s with mxcw := v } := by
  rw [writeMxcw]
  rcases h with hme | hv0
  · rw [hme, Bool.false_and, if_neg Bool.false_ne_true]
  · rw [hv0, Bool.not_true, Bool.and_false, if_neg Bool.false_ne_true]

/-- A write that clears ME disables management (R144). -/
theorem writeMxcw_disables (hme : s.me = true) (hv0 : v.getLsbD 0 = false) :
    writeMxcw s v = { disableManagement s with mxcw := v } := by
  rw [writeMxcw, hme, hv0, Bool.not_false, Bool.and_true, if_pos rfl]

/-- Outside a VM, in supervisor mode, bit 0 of mxcw decides the mode (R141). -/
theorem mode_withMxcw (hx : s.xm c = false) (hg : s.g = false) :
    { s with mxcw := v }.mode c = if v.getLsbD 0 then .hypervisor else .unmanagedSupervisor := by
  cases hv0 : v.getLsbD 0 with
  | false => exact mode_unmanaged.mpr ⟨hx, hv0⟩
  | true => exact mode_hypervisor.mpr ⟨hx, hv0, hg⟩

/-- Settles O34: with ME clear the write only replaces mxcw (`writeMxcw_replaces`), whose bit 0 decides the mode. -/
theorem settingMeEntersHypervisorMode : Obligations.SettingMeEntersHypervisorMode := by
  intro c s v e hmode hg
  obtain ⟨hx, hme⟩ := mode_unmanaged.mp hmode
  refine ⟨ioWrite_mxcw_reserved hg, fun hv => ⟨?_, mode_withMxcw hx hg⟩, fun hi => ?_⟩
  · rw [ioWrite_mxcw_legal hg hv, writeMxcw_replaces (.inl hme)]
  · obtain ⟨hvms, hcur⟩ := hi.unmanagedEmpty hme
    exact ⟨hvms, hcur, List.length_eq_zero_iff.mpr hvms⟩

/-- Of the VMs of all CPUs those of the others remain (R26, R144). -/
theorem disableManagement_vmcountAll (s : State) : (disableManagement s).vmcountAll = s.vmcountAll - s.vmcount := by
  rw [vmcountAll_eq s, Nat.add_sub_cancel_left]
  exact Nat.zero_add _

/-- Settles O35: with ME set, a value with bit 0 set only replaces mxcw, and any other disables management first. -/
theorem clearingMeDisposesOfVms : Obligations.ClearingMeDisposesOfVms := by
  intro c s v e hmode
  obtain ⟨hx, hme, hg⟩ := mode_hypervisor.mp hmode
  refine ⟨ioWrite_mxcw_reserved hg, fun hv hv0 => ?_, fun hv hv0 => ⟨{ disableManagement s with mxcw := v }, ?_, ?_⟩⟩
  · rw [ioWrite_mxcw_legal hg hv, writeMxcw_replaces (.inr hv0)]
  · rw [ioWrite_mxcw_legal hg hv, writeMxcw_disables hme hv0]
  · exact ⟨rfl, rfl, rfl, disableManagement_vmcountAll s, fun _ => mem_retireAll, contextPort_none rfl, vmcsPort_none rfl,
      mode_unmanaged.mpr ⟨hx, hv0⟩, rfl⟩

/-- Settles O36: with trapio clear the `out` passes the gate, and inside the VM it is its base effect. -/
theorem guestWriteOfMxcwHasNoEffect : Obligations.GuestWriteOfMxcwHasNoEffect := by
  intro c s v e vm hmode hv hok hio hact
  obtain ⟨hx, -, hg⟩ := mode_managed.mp hmode
  refine ⟨?_, fun t h => ?_⟩
  · rw [baseStep_io (.inr ⟨_, _, _, _, hact, rfl⟩), ioGate_inside hg hv hok, hx, hio, Bool.or_self,
      if_neg Bool.false_ne_true, ioWrite_mxcw_inside hg]
  · obtain ⟨hmxcw, hgt, hsave, hcur, hvms, hdes, hdis, hoth⟩ := (applyEffect_keeps h).1
    exact ⟨hmxcw, hgt.trans hg, hsave, hvms, hcur, hdes, hdis, hoth⟩

/-! ## Routing (R150, R162). -/

theorem raise_trapped {n : Fin 16} {cause : Cause} (hg : s.g = true) (ht : s.trx n = true) (hv : s.curVm? = some vm) :
    raise c s n cause = trapToHypervisor c s vm (n.castLE (by decide)) := by
  rw [raise, hg, ht, Bool.and_self, if_pos rfl, hv]
  rfl

theorem raise_delivered {n : Fin 16} {cause : Cause} (h : s.g = false ∨ s.trx n = false) :
    raise c s n cause = deliver c s n.val cause :=
  if_neg (Bool.eq_false_iff.mp (Bool.and_eq_false_iff.mpr h))

/-- Settles O43: `G` and the exception's TRX bit decide. -/
theorem raiseRoutesByTrx : Obligations.RaiseRoutesByTrx :=
  fun _ _ _ _ => ⟨fun _ => raise_trapped, raise_delivered⟩

/-- An interrupt outside a VM (R162). -/
theorem takeInterrupt_outside {j : Nat} (hg : s.g = false) : takeInterrupt c s j = deliver c s j .interrupt :=
  if_neg (Bool.eq_false_iff.mp hg)

/-- An interrupt inside a VM that is not the hypervisor's (R162). -/
theorem takeInterrupt_guest {j : Nat} (hg : s.g = true) (hv : s.curVm? = some vm) (hj : c.hvInterrupt j = false) :
    takeInterrupt c s j = if h : j < 16 then raise c s ⟨j, h⟩ .interrupt else deliver c s j .interrupt := by
  rw [takeInterrupt, if_pos hg, hv]
  exact if_neg (Bool.eq_false_iff.mp hj)

/-- Settles O48: outside a VM every interrupt is delivered; inside, those of 0 to 15 are routed as exceptions. -/
theorem otherInterruptsStayInContext : Obligations.OtherInterruptsStayInContext := by
  intro c s j
  refine ⟨takeInterrupt_outside, fun vm hg hv hj => ?_⟩
  rw [takeEvent, takeInterrupt_guest hg hv hj]
  exact ⟨fun hlt => dif_pos hlt, fun hle => dif_neg (Nat.not_lt.mpr hle)⟩

/-! ## The trap (R151 to R154). -/

/-- A trap that can be taken is the whole transfer, then the check of the hypervisor's new `ip` (R151). -/
theorem trap_of_ready {k : Fin 17} (h : TrapReady c s vm k) :
    trapToHypervisor c s vm k = checkHypervisorIp c (trapTarget c s vm k) := by
  rw [trap_of_leavable h.leavable, h.again, orRefuse_ok, h.table, orRefuse_ok]
  rfl

/-- Settles O44: the transfer (`trap_of_ready`) ends in the state checked. -/
theorem trapEntersHypervisorAtVector : Obligations.TrapEntersHypervisorAtVector :=
  fun _ _ _ _ h hok => (trap_of_ready h).trans (checkHypervisorIp_ok hok)

/-- Settles O45: the check after the transfer (`trap_of_ready`) fails in one of two ways. -/
theorem badTrapVectorRaisesInHypervisor : Obligations.BadTrapVectorRaisesInHypervisor :=
  fun _ _ _ _ h => ⟨fun hxa => (trap_of_ready h).trans (checkHypervisorIp_xa hxa),
    fun hpf => (trap_of_ready h).trans (checkHypervisorIp_pf hpf)⟩

/-- The trap handler gets its registers as the VM was left, `ip` apart (R151, R159). -/
theorem regGet_trapTarget {k : Fin 17} {i : RegNo} (hi : i ≠ ipReg) :
    regGet (trapTarget c s vm k).regs i =
      if i = r0 then ctxEncode c vm.num (some k) else if i = r1 then vm.vmcsPa else regGet s.hsave i := by
  rw [trapTarget, regGet_setIp, if_neg hi, trapLeft, leftTarget_regs, regGet_regsOf]

@[simp] theorem trapTarget_r0 (c : Config) (s : State) (vm : Vm) (k : Fin 17) :
    regGet (trapTarget c s vm k).regs r0 = ctxEncode c vm.num (some k) :=
  regGet_trapTarget (by decide)

@[simp] theorem trapTarget_r1 (c : Config) (s : State) (vm : Vm) (k : Fin 17) :
    regGet (trapTarget c s vm k).regs r1 = vm.vmcsPa :=
  regGet_trapTarget (by decide)

/-- The entry of the VM after a trap: the trap pending, the status it gives (R151, R153). -/
def trappedVm (c : Config) (s : State) (vm : Vm) (k : Fin 17) : Vm :=
  exitedVm (s.setIp (returnIp c s k.val)) vm (some k) (statusAfter vm k) false

theorem trapTarget_vms_trapped (c : Config) (s : State) (vm : Vm) (k : Fin 17) :
    (trapTarget c s vm k).vms = vmUpdate s.vms (trappedVm c s vm k) := by
  rw [trapTarget_vms, trappedVm, exitedVm, setIp_ip]
  rfl

theorem trapTarget_find (k : Fin 17) (hv : s.curVm? = some vm) :
    vmFind (trapTarget c s vm k).vms vm.num = some (trappedVm c s vm k) := by
  have hfound : (vmFind s.vms (trappedVm c s vm k).num).isSome = true :=
    Option.isSome_iff_exists.mpr ⟨vm, (curVm_some hv).2⟩
  rw [trapTarget_vms_trapped]
  exact vmFind_vmUpdate_same hfound

/-- Settles O46: inside a VM a RESET is the trap through entry 16, which marks the VM. -/
theorem resetInsideVmIsTrapped : Obligations.ResetInsideVmIsTrapped := by
  intro c s vm h hok
  have htrap : resetEvent c s = .next (trapTarget c s vm 16) := by
    rw [resetEvent_inside h.inside h.current, trap_of_ready h, checkHypervisorIp_ok hok]
  exact ⟨_, htrap, rfl, trapTarget_mxcw .., trapTarget_g .., trapTarget_r0 .., trapTarget_r1 ..,
    _, trapTarget_find 16 h.current, rfl, rfl⟩

/-! ## The hypervisor's interrupt (R157). -/

/-- What an exit leaves does not depend on the draws made before it. -/
theorem leftTarget_withDrawCtr (n : Nat) (ip : Word) (p : Pending) (status : VmStatus) (hcall : Bool) (v0 v1 : Word) :
    leftTarget c { s with drawCtr := n } vm ip p status hcall v0 v1 =
      { leftTarget c s vm ip p status hcall v0 v1 with drawCtr := n } := by
  have hwrites : slotWrites c (State.setIp { s with drawCtr := n } ip) vm.vmcs = slotWrites c (s.setIp ip) vm.vmcs := by
    rw [slotWrites, slotWrites, setIp_regs, setIp_regs]
  have hstore : storeRegs c (State.setIp { s with drawCtr := n } ip) vm.vmcs = storeRegs c (s.setIp ip) vm.vmcs := by
    rw [storeRegs, storeRegs, hwrites, setIp_mem, setIp_mem]
  rw [leftTarget, hwrites, hstore, leftTarget]

/-- The VM is left in the state the statements name, two draws later. -/
theorem leaveVm_interrupted {v0 v1 : Word} (h : Leavable c { s with drawCtr := s.drawCtr + 2 } vm s.ip) :
    leaveVm c s.tick.tick vm none vm.status false v0 v1 =
      .ok { leftTarget c s vm s.ip none vm.status false v0 v1 with drawCtr := s.drawCtr + 2 } := by
  have hleave := leaveVm_of_leavable (p := none) (status := vm.status) (hcall := false) (v0 := v0) (v1 := v1) h
  rw [show ({ s with drawCtr := s.drawCtr + 2 } : State) = s.tick.tick from rfl, ← tick_ip s, ← tick_ip s.tick,
    setIp_self] at hleave
  rw [hleave]
  exact congrArg _ (leftTarget_withDrawCtr ..)

/-- Settles O47: after the exit (`leaveVm_interrupted`) the interrupt is delivered with the third draw as its `ip`. -/
theorem hypervisorInterruptLeavesVm : Obligations.HypervisorInterruptLeavesVm := by
  intro c s vm j hg hv h hj
  rw [takeEvent, takeInterrupt_hypervisor hg hv hj, hvInterruptEntry, leaveVm_interrupted h, orRefuse_ok,
    deliverDrawn, drawn, drawn, drawn, tick_drawCtr, State.tick]

/-! ## The exits from a VM (R155). -/

theorem started_curVm (h : Started s s0) : s0.curVm? = s.curVm? := by
  rw [State.curVm?, State.curVm?, h.curvm, h.vms]

theorem started_mode (h : Started s s0) : s0.mode c = s.mode c := by
  have hx : s0.xm c = s.xm c := by rw [State.xm, State.xm, State.flags, State.flags, h.regs]
  have hme : s0.me = s.me := (kept_of_started (c := c) h).same.me
  rw [State.mode, State.mode, hx, hme, h.g]

/-- Of what a step inside a VM can do, three things leave it: a trap or a RESET, an interrupt of the hypervisor's, an hcall. -/
theorem step_leaves (hg : s.g = true) (h : stepWith c s = .next t) (ht : t.g = false) :
    ∃ s0, Started s s0 ∧ (Exited c s0 t ∨ (∃ j es, s.events = .interrupt j :: es ∧ Interrupted c s0 t j) ∨
      (s.events = [] ∧ (∃ rest, decode c (fetchWindow c s.tick) = .ok (.hcall 0, rest)) ∧ Called c s0 t)) := by
  obtain ⟨-, s0, hs0, hkinds⟩ := step_kinds h
  have hg0 : s0.g = true := hs0.g.trans hg
  have hmode : s0.mode c ≠ .hypervisor := mode_ne_hypervisor hg0
  refine ⟨s0, hs0, ?_⟩
  rcases hkinds with (h | h) | h | h | h | h | h | ⟨-, l, rfl⟩ | h | h
  · exact nomatch ht.symm.trans (h.same.g.trans hg0)
  · exact .inl h
  · exact absurd h.1 hmode
  · exact absurd h.1 hmode
  · exact absurd h.1 hmode
  · exact nomatch hg0.symm.trans h.1
  · exact nomatch hg0.symm.trans h.1
  · exact nomatch ht.symm.trans hg0
  · exact .inr (.inl h)
  · exact .inr (.inr h)

/-- The cause of an exit that is neither an hcall nor an interrupt is read off the VM's new entry. -/
theorem exitCause_listed (h : ExitCause s vm w) :
    w.num = vm.num ∧
      ((∃ n : Fin 16, w.pending = some (n.castLE (by decide)) ∧ s.trx n = true) ∨
       (w.pending = some 16 ∧ w.status = .reset)) := by
  rcases h with ⟨ip, n, htrx, rfl⟩ | ⟨ip, rfl⟩
  · exact ⟨rfl, .inl ⟨n, rfl, htrx⟩⟩
  · exact ⟨rfl, .inr ⟨rfl, rfl⟩⟩

/-- Settles O57: each thing that leaves the VM (`step_leaves`) is on the list, and replaces its entry alone (`LeftVm.vms`). -/
theorem onlyListedExitsLeaveVm : Obligations.OnlyListedExitsLeaveVm := by
  intro c s t hg h ht
  obtain ⟨s0, hs0, hleaves⟩ := step_leaves hg h ht
  rw [← started_curVm hs0, ← hs0.vms, ← hs0.mxcw, ← started_mode hs0]
  rcases hleaves with ⟨-, -, vm, w, hv, hl, hcause⟩ | ⟨j, es, hev, -, hj, -, vm, hv, hl⟩ |
    ⟨hev, hdecode, hmode, -, vm, w, hv, hl, rfl⟩
  · obtain ⟨hnum, htrap | hreset⟩ := exitCause_listed hcause
    · exact ⟨vm, w, hv, hnum, hl.vms, .inr (.inl htrap)⟩
    · exact ⟨vm, w, hv, hnum, hl.vms, .inr (.inr (.inl hreset))⟩
  · exact ⟨vm, exitedVm s0 vm none vm.status false, hv, rfl, hl.vms, .inr (.inr (.inr ⟨rfl, j, es, hev, hj⟩))⟩
  · exact ⟨vm, exitedVm (s0.advance 2) vm none vm.status true, hv, rfl, hl.vms, .inl ⟨rfl, rfl, hmode, hev, hdecode⟩⟩

end Sys2Proof.Proofs
end

section
/-! The rules of 70_reset_and_hazards.md: RESET of the CPU (R180) and the order in which arrivals, further exceptions among them, are
taken (R195, log 9, 13). -/

namespace Sys2Proof.Proofs

open Sys2Proof.Machine Sys2Proof.Laws

variable {c : Config} {s : State}

/-! ## RESET of the CPU (R180). -/

/-- Outside a VM a RESET is the CPU's. -/
theorem resetEvent_outside (hg : s.g = false) : resetEvent c s = .next (cpuReset s) :=
  if_neg (Bool.eq_false_iff.mp hg)

/-- Of the VMs of all CPUs those of the others remain (R26, R180). -/
theorem cpuReset_vmcountAll (s : State) : (cpuReset s).vmcountAll = s.vmcountAll - s.vmcount := by
  rw [vmcountAll_eq s, Nat.add_sub_cancel_left, vmcountAll_eq, cpuReset_otherVms]
  exact Nat.zero_add _

/-- The CPU is left as at reset: XM and ME clear. -/
theorem cpuReset_mode (c : Config) (s : State) : (cpuReset s).mode c = .unmanagedSupervisor := by
  have hme : (cpuReset s).me = false := by simp [State.me]
  exact mode_unmanaged.mpr ⟨reset_xm c, hme⟩

/-- Settles O2: with `G = 0` the event is `cpuReset`, which keeps memory and the other CPUs' VMs and resets every other field of
the statement. -/
theorem cpuResetRestoresResetValues : Obligations.CpuResetRestoresResetValues := by
  intro c s hg
  have hnoVm : (cpuReset s).curVm? = none := curVm_none (cpuReset_curvm s)
  exact ⟨cpuReset s, resetEvent_outside hg, cpuReset_mxcw s, cpuReset_g s, cpuReset_curvm s, cpuReset_vms s, rfl,
    cpuReset_vmcountAll s, contextPort_none hnoVm, vmcsPort_none hnoVm, cpuReset_retiredDestroyed s,
    cpuReset_retiredDisabled s, cpuReset_mem s, cpuReset_otherVms s, cpuReset_regs s, cpuReset_mode c s⟩

/-! ## Arrivals (R195, log 9). -/

/-- Where something has arrived the step takes it, and nothing of `run` is done. -/
theorem stepBy_arrival {run : Instr → State → Result} {e : Event} {es : List Event} (he : s.events = e :: es)
    (hr : regionsClash s = false) : stepBy c run s = takeEvent c (s.dropEvent es) e := by
  rw [stepBy, hr, if_neg Bool.false_ne_true, he]

/-! ## Further exceptions (R91, R157, R164, log 13). -/

/-- An effect whose writes have a place puts its further exception before whatever else is to arrive. -/
theorem applyEffect_further {e : Effect} {o : Origin} {ws : List (Nat × Byte)} {m : Fin 16} {info : Word} {t : State}
    (h : applyEffect c s e o = .next t) (hw : placeWrites c s 0 e.writes = some ws)
    (hf : e.further = some (.exception m info)) : t.events = .exception m (.base info) o :: s.events := by
  obtain ⟨-, -, -, rfl⟩ := applyEffect_next.mp h
  rw [commit_placed_events hw, hf]
  rfl

/-- A further exception is routed by `Raise`, but for one of an entry that the hypervisor receives in a VM's context. -/
theorem takeFurther_raises {n : Fin 16} {cause : Cause} {o : Origin} (h : o = .own ∨ s.g = true ∨ s.curvm = none) :
    takeFurther c s n cause o = raise c s n cause := by
  refine if_neg fun ⟨ho, hg, hcur⟩ => ?_
  rcases h with hown | hguest | hnone
  · exact nomatch hown.symm.trans ho
  · exact nomatch hguest.symm.trans hg
  · rw [hnone] at hcur
    exact nomatch hcur

/-- That one is received by the hypervisor, with a drawn `ip` (R157). -/
theorem takeFurther_drawn {n : Fin 16} {cause : Cause} (hg : s.g = false) (hcur : s.curvm ≠ none) :
    takeFurther c s n cause .entry = deliverDrawn c s n.val cause :=
  if_pos ⟨rfl, hg, Option.isSome_iff_ne_none.mpr hcur⟩

/-- Settles O11: the step takes the oldest arrival (`stepBy_arrival`), a further exception is made the oldest one
(`applyEffect_further`), and its origin and context decide how it is received. -/
theorem arrivalIsTakenFirst : Obligations.ArrivalIsTakenFirst :=
  ⟨fun _ _ _ _ => stepBy_arrival, fun _ _ _ _ _ _ _ _ => applyEffect_further, fun _ _ _ _ =>
    ⟨takeFurther_raises (.inl rfl), fun hctx => takeFurther_raises (.inr hctx), takeFurther_drawn⟩⟩

end Sys2Proof.Proofs
end

section
/-! The hardware is one configuration among those the statements range over (00_scope.md section 5). -/

namespace Sys2Proof.Proofs

open Sys2Proof.Machine

/-- Settles O8: the dispatch agrees with `execWith` at each instruction (`exec_eq_execWith`), and the two steps differ in what
they dispatch to alone (`step_eq_stepWith`). -/
theorem hardwareIsAnInstance : Obligations.HardwareIsAnInstance :=
  ⟨fun i s => congrFun (congrFun exec_eq_execWith i) s, step_eq_stepWith⟩

end Sys2Proof.Proofs
end
